-- ==== Sys2Proof/Word.lean ====
section
/-! DEFINITION. The word types of the block (00_scope.md R6, R9): bytes, 32-bit words, 64-bit doublewords and
5-bit register indices. -/

namespace Sys2Proof

/-- One byte of memory, the smallest addressable unit (R40). -/
abbrev Byte := BitVec 8

/-- An instruction word, or the value of a Word access (R6). -/
abbrev Word := BitVec 32

/-- A general register, pc, an address or a wire of 64 bits (R6). -/
abbrev Dword := BitVec 64

/-- A 5-bit general register index (R66). -/
abbrev RegIdx := BitVec 5

end Sys2Proof
end

