-- ==== Sys2Proof/Machine/Signals.lean ====
section
/-! DEFINITION. The enumerated signals, the decoder's tagged union, the control bundle, the wires and the Fatal
diagnostics: the data the stages of one instruction pass between them (10_state.md, 30_encoding.md, 40_control_signals.md). -/

namespace Sys2Proof

/-- The five stages (R26). -/
inductive Stage where
  | instructionFetch
  | instructionDecode
  | execute
  | memory
  | writeBack
  deriving DecidableEq, Repr

/-- The cyclic successor of R26. -/
def Stage.succ : Stage → Stage
  | .instructionFetch => .instructionDecode
  | .instructionDecode => .execute
  | .execute => .memory
  | .memory => .writeBack
  | .writeBack => .instructionFetch

/-- How many execute_stage calls bring the stage back to InstructionFetch; none is owed there (R172). -/
def Stage.left : Stage → Nat
  | .instructionFetch => 0
  | .instructionDecode => 4
  | .execute => 3
  | .memory => 2
  | .writeBack => 1

/-- The decoder's output, R62's `Instruction` union. -/
inductive Variant where
  | rType (opcode : BitVec 6) (rs rt rd shamt : RegIdx) (funct : BitVec 6)
  | iType (opcode : BitVec 6) (rs rt : RegIdx) (immediate : BitVec 16)
  | jType (opcode : BitVec 6) (target : BitVec 26)
  | fpuRType (opcode : BitVec 6) (fmt ft fs fd : RegIdx) (function : BitVec 6)
  deriving DecidableEq, Repr

/-- The diagnostic of a Fatal, one constructor per kind of R321. -/
inductive FatalInfo where
  /-- Kind 1: the decoder does not recognize the opcode (R63). -/
  | decodeFailure (opcode : BitVec 6)
  /-- Kind 2: opcode 0 with an unlisted funct (R111). -/
  | controlFunct (funct : BitVec 6)
  /-- Kind 3: opcode 0, an SOP funct, and a shamt other than 0b00010 (R120). -/
  | controlShamt (funct : BitVec 6) (shamt : BitVec 5)
  /-- Kind 4: opcode 1 with an rt that selects nothing (R112). -/
  | controlRegimm (rt : BitVec 5)
  /-- Kind 5: J or JAL (R113). -/
  | controlJType (opcode : BitVec 6)
  deriving DecidableEq, Repr

/-- The kind number of R321. -/
def FatalInfo.kind : FatalInfo → Nat
  | .decodeFailure _ => 1
  | .controlFunct _ => 2
  | .controlShamt _ _ => 3
  | .controlRegimm _ => 4
  | .controlJType _ => 5

inductive RegWidth where
  | word
  | doubleWord
  deriving DecidableEq, Repr

/-- How many bytes an access of this width moves (R45). -/
def RegWidth.bytes : RegWidth → Nat
  | .word => 4
  | .doubleWord => 8

inductive AluOp where
  | addition
  | subtraction
  | and
  | or
  | leftShift16
  | useFunctField
  deriving DecidableEq, Repr

inductive AluControl where
  | addition
  | subtraction
  | and
  | or
  | setOnLessThanSigned
  | setOnLessThanUnsigned
  | leftShift16
  | multiplicationSigned
  | multiplicationUnsigned
  | divisionSigned
  | divisionUnsigned
  deriving DecidableEq, Repr

inductive AluSrc where
  | readRegister2
  | signExtendedImmediate
  | zeroExtendedImmediate
  deriving DecidableEq, Repr

inductive ImmShift where
  | shift0
  | shift16
  | shift32
  | shift48
  deriving DecidableEq, Repr

inductive MemWriteSrc where
  | primaryUnit
  | floatingPointUnit
  deriving DecidableEq, Repr

inductive MemToReg where
  | useAlu
  | useMemory
  deriving DecidableEq, Repr

inductive RegDst where
  | rs
  | rt
  | rd
  deriving DecidableEq, Repr

/-- The ControlSignals bundle of R100. `aluControl` is ⊥ (none) between ID step 4, which latches the template, and
step 6, which derives it (R176; log 17). -/
structure Ctrl where
  aluOp : AluOp
  aluControl : Option AluControl
  aluSrc : AluSrc
  immShift : ImmShift
  branch : Bool
  jump : Bool
  memRead : Bool
  memWrite : Bool
  memWriteSrc : MemWriteSrc
  memToReg : MemToReg
  regDst : RegDst
  regWidth : RegWidth
  regWrite : Bool
  deriving DecidableEq, Repr

/-- The inter-stage wires of R28; `none` is the spec's ⊥ (R29). -/
structure Wires where
  instruction : Option Word
  rs : Option RegIdx
  rt : Option RegIdx
  rd : Option RegIdx
  shamt : Option RegIdx
  funct : Option (BitVec 6)
  imm : Option (BitVec 16)
  readData1 : Option Dword
  readData2 : Option Dword
  signExtend : Option Dword
  aluResult : Option Dword
  memoryData : Option Dword
  dataResult : Option Dword
  registerWriteData : Option Dword
  deriving DecidableEq, Repr

/-- All wires ⊥, as on entry to IF and at reset (R29). -/
def Wires.bottom : Wires :=
  { instruction := none, rs := none, rt := none, rd := none, shamt := none, funct := none, imm := none,
    readData1 := none, readData2 := none, signExtend := none, aluResult := none, memoryData := none,
    dataResult := none, registerWriteData := none }

/-- The name of a wire or latch, for the fault that reads it while it is ⊥ (R29, R325). -/
inductive Wire where
  | instruction
  | rs
  | rt
  | rd
  | imm
  | readData1
  | readData2
  | signExtend
  | aluResult
  | memoryData
  | dataResult
  | ctrl
  | aluControl
  deriving DecidableEq, Repr

/-- The name of a port whose code the generator never produces (R101). -/
inductive Port where
  | aluOp
  | aluControl
  | aluSrc
  | regDst
  deriving DecidableEq, Repr

end Sys2Proof
end

