-- ==== Sys2Proof/Machine/Encoding.lean ====
section
/-! DEFINITION. The ONE table of numeric encodings (30_encoding.md R74) and the bit fields of an instruction word (R61).
Every opcode, funct, shamt and rt value of the model stands here once; all are MIPS64 R6 values the spec supplies from
general knowledge (PRESUMED, log 9). -/

namespace Sys2Proof.Enc

/-! ### Primary opcodes, word[31:26] (R71) -/

def opSpecial : BitVec 6 := 0x00#6
def opRegimm : BitVec 6 := 0x01#6
def opJ : BitVec 6 := 0x02#6
def opJal : BitVec 6 := 0x03#6
def opOri : BitVec 6 := 0x0D#6
def opAui : BitVec 6 := 0x0F#6
def opCop1 : BitVec 6 := 0x11#6
def opLw : BitVec 6 := 0x23#6
def opSw : BitVec 6 := 0x2B#6
def opLd : BitVec 6 := 0x37#6
def opSd : BitVec 6 := 0x3F#6

/-! ### SPECIAL funct values, word[5:0] (R72) -/

def fnMul : BitVec 6 := 0x18#6
def fnMulu : BitVec 6 := 0x19#6
def fnDiv : BitVec 6 := 0x1A#6
def fnDivu : BitVec 6 := 0x1B#6
def fnDmul : BitVec 6 := 0x1C#6
def fnDmulu : BitVec 6 := 0x1D#6
def fnDdiv : BitVec 6 := 0x1E#6
def fnDdivu : BitVec 6 := 0x1F#6
def fnAdd : BitVec 6 := 0x20#6
def fnSub : BitVec 6 := 0x22#6
def fnAnd : BitVec 6 := 0x24#6
def fnOr : BitVec 6 := 0x25#6
def fnSlt : BitVec 6 := 0x2A#6
def fnSltu : BitVec 6 := 0x2B#6
def fnDadd : BitVec 6 := 0x2C#6
def fnDsub : BitVec 6 := 0x2E#6

/-! ### Sub-selectors: the SOP shamt (R72) and the REGIMM rt (R73) -/

def sopShamt : BitVec 5 := 0b00010#5
def rtDahi : BitVec 5 := 0b00110#5
def rtDati : BitVec 5 := 0b11110#5

/-! ### The lists the classes of words are made of, by name -/

/-- R72: the functs whose shamt is ignored (R69). -/
def plainFuncts : List (BitVec 6) := [fnAdd, fnSub, fnAnd, fnOr, fnSlt, fnSltu, fnDadd, fnDsub]

/-- R72: the SOP functs, which need the SOP shamt. -/
def sopFuncts : List (BitVec 6) := [fnMul, fnMulu, fnDiv, fnDivu, fnDmul, fnDmulu, fnDdiv, fnDdivu]

/-- R71: the opcodes that select an admitted instruction by themselves. -/
def plainOpcodes : List (BitVec 6) := [opOri, opAui, opCop1, opLw, opSw, opLd, opSd]

/-! ### The fields of a word (R61), sliced at fixed bit ranges whatever its variant (D34) -/

def opcode (w : Word) : BitVec 6 := w.extractLsb' 26 6
def rs (w : Word) : RegIdx := w.extractLsb' 21 5
def rt (w : Word) : RegIdx := w.extractLsb' 16 5
def rd (w : Word) : RegIdx := w.extractLsb' 11 5
def shamt (w : Word) : RegIdx := w.extractLsb' 6 5
def funct (w : Word) : BitVec 6 := w.extractLsb' 0 6
def imm (w : Word) : BitVec 16 := w.extractLsb' 0 16
def target (w : Word) : BitVec 26 := w.extractLsb' 0 26

end Sys2Proof.Enc

namespace Sys2Proof

/-- The word of a variant: its fields at the bit ranges of R61. -/
def Variant.word : Variant → Word
  | .rType op rs rt rd shamt funct => (op ++ rs ++ rt ++ rd ++ shamt ++ funct).cast rfl
  | .iType op rs rt imm => (op ++ rs ++ rt ++ imm).cast rfl
  | .jType op target => (op ++ target).cast rfl
  | .fpuRType op fmt ft fs fd function => (op ++ fmt ++ ft ++ fs ++ fd ++ function).cast rfl

/-- The opcode of a variant. -/
def Variant.opcode : Variant → BitVec 6
  | .rType op _ _ _ _ _ => op
  | .iType op _ _ _ => op
  | .jType op _ => op
  | .fpuRType op _ _ _ _ _ => op

/-- The opcode each diagnostic names (R321). -/
def FatalInfo.opcode : FatalInfo → BitVec 6
  | .decodeFailure op => op
  | .controlFunct _ => Enc.opSpecial
  | .controlShamt _ _ => Enc.opSpecial
  | .controlRegimm _ => Enc.opRegimm
  | .controlJType op => op

end Sys2Proof
end

