-- ==== Sys2Proof/Syntax.lean ====
section
/-! DEFINITION. The instructions: one constructor per row of spec/opcode_table.json. Each constructor carries EVERY
field of its word that the row does not fix, ignored fields among them (30_encoding.md R69), so that an instruction
and its word determine each other. -/

namespace Sys2Proof

inductive Instr where
  /-- R211, `add rd, rs, rt`; shamt is ignored (R69). -/
  | add (rs rt rd shamt : RegIdx)
  /-- R212, `sub rd, rs, rt`; shamt is ignored. -/
  | sub (rs rt rd shamt : RegIdx)
  /-- R213, `and rd, rs, rt`; shamt is ignored. -/
  | and (rs rt rd shamt : RegIdx)
  /-- R214, `or rd, rs, rt`; shamt is ignored. -/
  | or (rs rt rd shamt : RegIdx)
  /-- R215, `slt rd, rs, rt`; shamt is ignored. -/
  | slt (rs rt rd shamt : RegIdx)
  /-- R216, `sltu rd, rs, rt`; shamt is ignored. -/
  | sltu (rs rt rd shamt : RegIdx)
  /-- R217, `dadd rd, rs, rt`; shamt is ignored. -/
  | dadd (rs rt rd shamt : RegIdx)
  /-- R218, `dsub rd, rs, rt`; shamt is ignored. -/
  | dsub (rs rt rd shamt : RegIdx)
  /-- R231, `mul rd, rs, rt`. -/
  | mul (rs rt rd : RegIdx)
  /-- R232, `mulu rd, rs, rt`. -/
  | mulu (rs rt rd : RegIdx)
  /-- R233, `div rd, rs, rt`. -/
  | div (rs rt rd : RegIdx)
  /-- R234, `divu rd, rs, rt`. -/
  | divu (rs rt rd : RegIdx)
  /-- R235, `dmul rd, rs, rt`. -/
  | dmul (rs rt rd : RegIdx)
  /-- R236, `dmulu rd, rs, rt`. -/
  | dmulu (rs rt rd : RegIdx)
  /-- R237, `ddiv rd, rs, rt`. -/
  | ddiv (rs rt rd : RegIdx)
  /-- R238, `ddivu rd, rs, rt`. -/
  | ddivu (rs rt rd : RegIdx)
  /-- R251, `ori rt, rs, imm`. -/
  | ori (rs rt : RegIdx) (imm : BitVec 16)
  /-- R252, `aui rt, rs, imm`; `lui rt, imm` when rs = 0. -/
  | aui (rs rt : RegIdx) (imm : BitVec 16)
  /-- R271, `lw rt, imm(rs)`. -/
  | lw (rs rt : RegIdx) (imm : BitVec 16)
  /-- R272, `sw rt, imm(rs)`. -/
  | sw (rs rt : RegIdx) (imm : BitVec 16)
  /-- R273, `ld rt, imm(rs)`. -/
  | ld (rs rt : RegIdx) (imm : BitVec 16)
  /-- R274, `sd rt, imm(rs)`. -/
  | sd (rs rt : RegIdx) (imm : BitVec 16)
  /-- R253, `dahi rs, imm`; rs is source and destination. -/
  | dahi (rs : RegIdx) (imm : BitVec 16)
  /-- R254, `dati rs, imm`; rs is source and destination. -/
  | dati (rs : RegIdx) (imm : BitVec 16)
  /-- R291, any word of opcode 0x11; the fields are the coprocessor's. -/
  | cop1 (fmt ft fs fd : RegIdx) (function : BitVec 6)
  /-- R293, `j target`. -/
  | j (target : BitVec 26)
  /-- R293, `jal target`. -/
  | jal (target : BitVec 26)
  deriving DecidableEq, Repr

end Sys2Proof
end

