-- ==== Sys2Proof/Decode.lean ====
section
/-! DEFINITION. The decoder (30_encoding.md R63) in its two levels: the opcode gives the variant, and the funct, shamt
or rt sub-selector gives the instruction (R72, R73). Both reject by name, with the Fatal diagnostic of 60_exceptions.md
R321. After it the encoder, written from the same table. -/

namespace Sys2Proof

open Enc

/-- R63: the opcodes that decode to IType. -/
def isITypeOpcode (op : BitVec 6) : Bool :=
  op == opRegimm || op == opOri || op == opAui || op == opLw || op == opSw || op == opLd || op == opSd

/-- R63, `decode`: a pure, total function of the word; the opcode is checked and nothing else (R64). -/
def decodeVariant (w : Word) : Except FatalInfo Variant :=
  if opcode w = opSpecial then .ok (.rType (opcode w) (rs w) (rt w) (rd w) (shamt w) (funct w))
  else if isITypeOpcode (opcode w) then .ok (.iType (opcode w) (rs w) (rt w) (imm w))
  else if opcode w = opJ ∨ opcode w = opJal then .ok (.jType (opcode w) (target w))
  else if opcode w = opCop1 then .ok (.fpuRType (opcode w) (rs w) (rt w) (rd w) (shamt w) (funct w))
  else .error (.decodeFailure (opcode w))

/-- An SOP word selects its instruction only with shamt = 0b00010; any other shamt is Fatal kind 3 (R72, R120). -/
def selectSop (shamt : RegIdx) (funct : BitVec 6) (i : Instr) : Except FatalInfo Instr :=
  if shamt = sopShamt then .ok i else .error (.controlShamt funct shamt)

/-- The SPECIAL funct map of R72; an unlisted funct is Fatal kind 2. -/
def selectSpecial (rs rt rd shamt : RegIdx) (funct : BitVec 6) : Except FatalInfo Instr :=
  if funct = fnAdd then .ok (.add rs rt rd shamt)
  else if funct = fnSub then .ok (.sub rs rt rd shamt)
  else if funct = fnAnd then .ok (.and rs rt rd shamt)
  else if funct = fnOr then .ok (.or rs rt rd shamt)
  else if funct = fnSlt then .ok (.slt rs rt rd shamt)
  else if funct = fnSltu then .ok (.sltu rs rt rd shamt)
  else if funct = fnDadd then .ok (.dadd rs rt rd shamt)
  else if funct = fnDsub then .ok (.dsub rs rt rd shamt)
  else if funct = fnMul then selectSop shamt funct (.mul rs rt rd)
  else if funct = fnMulu then selectSop shamt funct (.mulu rs rt rd)
  else if funct = fnDiv then selectSop shamt funct (.div rs rt rd)
  else if funct = fnDivu then selectSop shamt funct (.divu rs rt rd)
  else if funct = fnDmul then selectSop shamt funct (.dmul rs rt rd)
  else if funct = fnDmulu then selectSop shamt funct (.dmulu rs rt rd)
  else if funct = fnDdiv then selectSop shamt funct (.ddiv rs rt rd)
  else if funct = fnDdivu then selectSop shamt funct (.ddivu rs rt rd)
  else .error (.controlFunct funct)

/-- The REGIMM rt map of R73; any other rt is Fatal kind 4. -/
def selectRegimm (rs rt : RegIdx) (imm : BitVec 16) : Except FatalInfo Instr :=
  if rt = rtDahi then .ok (.dahi rs imm)
  else if rt = rtDati then .ok (.dati rs imm)
  else .error (.controlRegimm rt)

/-- The I-type opcodes of R71. The last arm is never taken on a decoded variant: the decoder gives no other I-type
opcode (R105). -/
def selectIType (op : BitVec 6) (rs rt : RegIdx) (imm : BitVec 16) : Except FatalInfo Instr :=
  if op = opRegimm then selectRegimm rs rt imm
  else if op = opOri then .ok (.ori rs rt imm)
  else if op = opAui then .ok (.aui rs rt imm)
  else if op = opLw then .ok (.lw rs rt imm)
  else if op = opSw then .ok (.sw rs rt imm)
  else if op = opLd then .ok (.ld rs rt imm)
  else if op = opSd then .ok (.sd rs rt imm)
  else .error (.decodeFailure op)

/-- J and JAL (R71); the last arm is never taken on a decoded variant. -/
def selectJType (op : BitVec 6) (target : BitVec 26) : Except FatalInfo Instr :=
  if op = opJ then .ok (.j target)
  else if op = opJal then .ok (.jal target)
  else .error (.decodeFailure op)

/-- The instruction a variant stands for (R71-R73). -/
def Variant.select : Variant → Except FatalInfo Instr
  | .rType _ rs rt rd shamt funct => selectSpecial rs rt rd shamt funct
  | .iType op rs rt imm => selectIType op rs rt imm
  | .jType op target => selectJType op target
  | .fpuRType _ fmt ft fs fd function => .ok (.cop1 fmt ft fs fd function)

/-- The whole decoder: a word is an instruction of the opcode table, or it is refused with its diagnostic. J and JAL are
instructions here; what they do is raise Fatal (R293). -/
def decode (w : Word) : Except FatalInfo Instr :=
  match decodeVariant w with
  | .ok v => v.select
  | .error info => .error info

/-- The variant of an instruction: its fields with the fixed values of its row (R70). -/
def Instr.variant : Instr → Variant
  | .add rs rt rd shamt => .rType opSpecial rs rt rd shamt fnAdd
  | .sub rs rt rd shamt => .rType opSpecial rs rt rd shamt fnSub
  | .and rs rt rd shamt => .rType opSpecial rs rt rd shamt fnAnd
  | .or rs rt rd shamt => .rType opSpecial rs rt rd shamt fnOr
  | .slt rs rt rd shamt => .rType opSpecial rs rt rd shamt fnSlt
  | .sltu rs rt rd shamt => .rType opSpecial rs rt rd shamt fnSltu
  | .dadd rs rt rd shamt => .rType opSpecial rs rt rd shamt fnDadd
  | .dsub rs rt rd shamt => .rType opSpecial rs rt rd shamt fnDsub
  | .mul rs rt rd => .rType opSpecial rs rt rd sopShamt fnMul
  | .mulu rs rt rd => .rType opSpecial rs rt rd sopShamt fnMulu
  | .div rs rt rd => .rType opSpecial rs rt rd sopShamt fnDiv
  | .divu rs rt rd => .rType opSpecial rs rt rd sopShamt fnDivu
  | .dmul rs rt rd => .rType opSpecial rs rt rd sopShamt fnDmul
  | .dmulu rs rt rd => .rType opSpecial rs rt rd sopShamt fnDmulu
  | .ddiv rs rt rd => .rType opSpecial rs rt rd sopShamt fnDdiv
  | .ddivu rs rt rd => .rType opSpecial rs rt rd sopShamt fnDdivu
  | .ori rs rt imm => .iType opOri rs rt imm
  | .aui rs rt imm => .iType opAui rs rt imm
  | .lw rs rt imm => .iType opLw rs rt imm
  | .sw rs rt imm => .iType opSw rs rt imm
  | .ld rs rt imm => .iType opLd rs rt imm
  | .sd rs rt imm => .iType opSd rs rt imm
  | .dahi rs imm => .iType opRegimm rs rtDahi imm
  | .dati rs imm => .iType opRegimm rs rtDati imm
  | .cop1 fmt ft fs fd function => .fpuRType opCop1 fmt ft fs fd function
  | .j target => .jType opJ target
  | .jal target => .jType opJal target

/-- The encoder: the word of an instruction. -/
def encode (i : Instr) : Word := i.variant.word

/-! ### Byte layout -/

/-- R42: the byte at the lowest address is the most significant. This and `wordBytes`, `dwordOfBytes` and `dwordBytes`
are the only places that fix the byte order (log 8). -/
def wordOfBytes (b0 b1 b2 b3 : Byte) : Word := (b0 ++ b1 ++ b2 ++ b3).cast rfl

/-- R42: the four bytes of a word, lowest address first. -/
def wordBytes (w : Word) : List Byte :=
  [w.extractLsb' 24 8, w.extractLsb' 16 8, w.extractLsb' 8 8, w.extractLsb' 0 8]

/-- R42: a doubleword from eight bytes, lowest address first. -/
def dwordOfBytes (b0 b1 b2 b3 b4 b5 b6 b7 : Byte) : Dword :=
  (b0 ++ b1 ++ b2 ++ b3 ++ b4 ++ b5 ++ b6 ++ b7).cast rfl

/-- R42: the eight bytes of a doubleword, lowest address first. -/
def dwordBytes (v : Dword) : List Byte :=
  [v.extractLsb' 56 8, v.extractLsb' 48 8, v.extractLsb' 40 8, v.extractLsb' 32 8,
   v.extractLsb' 24 8, v.extractLsb' 16 8, v.extractLsb' 8 8, v.extractLsb' 0 8]

/-- Decode four bytes as they lie in memory; fewer or more are no instruction (R60). -/
def decodeBytes : List Byte → Option (Except FatalInfo Instr)
  | [b0, b1, b2, b3] => some (decode (wordOfBytes b0 b1 b2 b3))
  | _ => none

/-- The instruction the decoder reads from the opcode table's numbering of a word: bit 0 the least significant of the one
32-bit word, bits at and above `nbits` zero; laid out in memory order, then decoded. -/
def decodeTableWord (nbits w : Nat) : Option Instr :=
  match decodeBytes (wordBytes (BitVec.ofNat 32 (w % 2 ^ nbits))) with
  | some (.ok i) => some i
  | _ => none

/-! ### The opcode map as rows -/

/-- A row of the opcode table: the words of a mnemonic are those with `w &&& mask = pattern`. -/
structure Row where
  mnemonic : String
  mask : Word
  pattern : Word
  deriving DecidableEq, Repr

/-- A row of a non-SOP R-type instruction: opcode and funct fixed, shamt free (R69). -/
def rowSpecial (name : String) (fn : BitVec 6) : Row :=
  { mnemonic := name, mask := 0xFC00003F#32, pattern := Variant.word (.rType opSpecial 0 0 0 0 fn) }

/-- A row of an SOP instruction: opcode, shamt and funct fixed (R72). -/
def rowSop (name : String) (fn : BitVec 6) : Row :=
  { mnemonic := name, mask := 0xFC0007FF#32, pattern := Variant.word (.rType opSpecial 0 0 0 sopShamt fn) }

/-- A row whose opcode alone is fixed. -/
def rowOpcode (name : String) (op : BitVec 6) : Row :=
  { mnemonic := name, mask := 0xFC000000#32, pattern := Variant.word (.jType op 0) }

/-- A row of a REGIMM instruction: opcode and rt fixed (R73). -/
def rowRegimm (name : String) (rt : RegIdx) : Row :=
  { mnemonic := name, mask := 0xFC1F0000#32, pattern := Variant.word (.iType opRegimm 0 rt 0) }

/-- The rows of R70, with J and JAL. -/
def rows : List Row :=
  [rowSpecial "ADD" fnAdd, rowSpecial "SUB" fnSub, rowSpecial "AND" fnAnd, rowSpecial "OR" fnOr,
   rowSpecial "SLT" fnSlt, rowSpecial "SLTU" fnSltu, rowSpecial "DADD" fnDadd, rowSpecial "DSUB" fnDsub] ++
  [rowSop "MUL" fnMul, rowSop "MULU" fnMulu, rowSop "DIV" fnDiv, rowSop "DIVU" fnDivu,
   rowSop "DMUL" fnDmul, rowSop "DMULU" fnDmulu, rowSop "DDIV" fnDdiv, rowSop "DDIVU" fnDdivu] ++
  [rowOpcode "ORI" opOri, rowOpcode "AUI" opAui, rowOpcode "LW" opLw, rowOpcode "SW" opSw,
   rowOpcode "LD" opLd, rowOpcode "SD" opSd] ++
  [rowRegimm "DAHI" rtDahi, rowRegimm "DATI" rtDati] ++
  [rowOpcode "COP1" opCop1, rowOpcode "J" opJ, rowOpcode "JAL" opJal]

/-- The table's mnemonic of an instruction. -/
def Instr.mnemonic : Instr → String
  | .add .. => "ADD"
  | .sub .. => "SUB"
  | .and .. => "AND"
  | .or .. => "OR"
  | .slt .. => "SLT"
  | .sltu .. => "SLTU"
  | .dadd .. => "DADD"
  | .dsub .. => "DSUB"
  | .mul .. => "MUL"
  | .mulu .. => "MULU"
  | .div .. => "DIV"
  | .divu .. => "DIVU"
  | .dmul .. => "DMUL"
  | .dmulu .. => "DMULU"
  | .ddiv .. => "DDIV"
  | .ddivu .. => "DDIVU"
  | .ori .. => "ORI"
  | .aui .. => "AUI"
  | .lw .. => "LW"
  | .sw .. => "SW"
  | .ld .. => "LD"
  | .sd .. => "SD"
  | .dahi .. => "DAHI"
  | .dati .. => "DATI"
  | .cop1 .. => "COP1"
  | .j .. => "J"
  | .jal .. => "JAL"

end Sys2Proof
end

