-- ==== Sys2Proof/Config.lean ====
section
/-! DEFINITION. What a session fixes (00_scope.md R7): the memory's size and admission rule, and the coprocessor's
outputs. The parameters a launch chooses are plain data, so that a statement over all states holds for every choice of
them; the coprocessor's outputs have no value that Lean can see. -/

namespace Sys2Proof

/-- The memory collaborator's parameters (R7, R40, R43; log 6). `size` is MEM_SIZE. Beyond the range check, which the
source fixes, mem_ok is open: `aligned` makes it refuse a misaligned access, and `denied` lists further accesses
(address, bytes) it refuses, so that every mem_ok on [0, MEM_SIZE) can be written down. -/
structure MemConfig where
  size : Nat
  aligned : Bool
  denied : List (Nat × Nat)
  deriving DecidableEq, Repr

/-- DESIGN CHOICE (log 6): the common launch premises of 95_test_vectors.md section 0: MEM_SIZE = 0x1000 and every access in
range admitted. -/
def Config.testMemory : MemConfig := { size := 0x1000, aligned := false, denied := [] }

/-- One state-changing call of a coprocessor hook, with its argument (42_stage_sequencer.md R195). -/
inductive CopEvent where
  /-- `cop.fetch(word)`, in IF. -/
  | fetch (word : Word)
  /-- `cop.decode(v)`, in ID step 7. -/
  | decode (v : Dword)
  /-- `cop.execute()`, in EX. -/
  | execute
  /-- `cop.memory()`, in MEM. -/
  | memory
  /-- `cop.receive_data(v)`, in WB step 1. -/
  | receiveData (v : Dword)
  /-- `cop.writeback()`, in WB step 4. -/
  | writeback
  deriving DecidableEq, Repr

/-- FREE VALUE (log 7): `cop.data_write()` of an attached coprocessor that has seen these hook calls, newest first. -/
opaque Config.copDataWrite : List CopEvent → Bool

/-- FREE VALUE (log 7): `cop.data()` of an attached coprocessor that has seen these hook calls, newest first. -/
opaque Config.copData : List CopEvent → Dword

/-- FREE VALUE (log 7): `cop.mem_write_data()` of an attached coprocessor that has seen these hook calls, newest first. -/
opaque Config.copMemWriteData : List CopEvent → Dword

end Sys2Proof
end

