-- ==== Sys2Proof/Machine/Assembler.lean ====
section
/-! DEFINITION. The symbolic register names (10_state.md R23) and the assembler forms (30_encoding.md R78, R79), as
terms: no text is parsed. The names and forms are MIPS o32 ones the spec supplies from general knowledge (log 20). -/

namespace Sys2Proof

/-- The o32 names of R23; `s8` is the other name of `fp`. -/
inductive GprName where
  | zero
  | at
  | v0
  | v1
  | a0
  | a1
  | a2
  | a3
  | t0
  | t1
  | t2
  | t3
  | t4
  | t5
  | t6
  | t7
  | s0
  | s1
  | s2
  | s3
  | s4
  | s5
  | s6
  | s7
  | t8
  | t9
  | k0
  | k1
  | gp
  | sp
  | fp
  | ra
  | s8
  deriving DecidableEq, Repr

/-- R23: the register each name denotes. -/
def GprName.index : GprName → RegIdx
  | .zero => 0#5
  | .at => 1#5
  | .v0 => 2#5
  | .v1 => 3#5
  | .a0 => 4#5
  | .a1 => 5#5
  | .a2 => 6#5
  | .a3 => 7#5
  | .t0 => 8#5
  | .t1 => 9#5
  | .t2 => 10#5
  | .t3 => 11#5
  | .t4 => 12#5
  | .t5 => 13#5
  | .t6 => 14#5
  | .t7 => 15#5
  | .s0 => 16#5
  | .s1 => 17#5
  | .s2 => 18#5
  | .s3 => 19#5
  | .s4 => 20#5
  | .s5 => 21#5
  | .s6 => 22#5
  | .s7 => 23#5
  | .t8 => 24#5
  | .t9 => 25#5
  | .k0 => 26#5
  | .k1 => 27#5
  | .gp => 28#5
  | .sp => 29#5
  | .fp => 30#5
  | .ra => 31#5
  | .s8 => 30#5

/-- A name the host accessor takes: a general register's, or `pc` (R203, D28). -/
inductive RegName where
  | gpr (name : GprName)
  | pc
  deriving DecidableEq, Repr

/-- A register as the assembler writes it: by name, or as `$n` (R78). -/
inductive AsmReg where
  | named (name : GprName)
  | numbered (n : Nat)
  deriving DecidableEq, Repr

def AsmReg.index : AsmReg → RegIdx
  | .named name => name.index
  | .numbered n => BitVec.ofNat 5 n

/-- The mnemonics of the form `op rd, rs, rt` (R78). -/
inductive RrrOp where
  | add
  | sub
  | and
  | or
  | slt
  | sltu
  | dadd
  | dsub
  | mul
  | mulu
  | div
  | divu
  | dmul
  | dmulu
  | ddiv
  | ddivu
  deriving DecidableEq, Repr

/-- The mnemonics of the form `op rt, offset(base)` (R78). -/
inductive MemOp where
  | lw
  | sw
  | ld
  | sd
  deriving DecidableEq, Repr

/-- The assembler forms of R78 and the one alias of R79, with the operands in the order they are written. -/
inductive Asm where
  | rrr (op : RrrOp) (rd rs rt : AsmReg)
  | ori (rt rs : AsmReg) (imm : Int)
  | aui (rt rs : AsmReg) (imm : Int)
  | lui (rt : AsmReg) (imm : Int)
  | dahi (rs : AsmReg) (imm : Int)
  | dati (rs : AsmReg) (imm : Int)
  | mem (op : MemOp) (rt : AsmReg) (offset : Int) (base : AsmReg)
  deriving DecidableEq, Repr

/-- The instruction of an `op rd, rs, rt` form; a shamt the row does not fix is assembled as 0. -/
def RrrOp.instr (rd rs rt : RegIdx) : RrrOp → Instr
  | .add => .add rs rt rd 0
  | .sub => .sub rs rt rd 0
  | .and => .and rs rt rd 0
  | .or => .or rs rt rd 0
  | .slt => .slt rs rt rd 0
  | .sltu => .sltu rs rt rd 0
  | .dadd => .dadd rs rt rd 0
  | .dsub => .dsub rs rt rd 0
  | .mul => .mul rs rt rd
  | .mulu => .mulu rs rt rd
  | .div => .div rs rt rd
  | .divu => .divu rs rt rd
  | .dmul => .dmul rs rt rd
  | .dmulu => .dmulu rs rt rd
  | .ddiv => .ddiv rs rt rd
  | .ddivu => .ddivu rs rt rd

def MemOp.instr (rt base : RegIdx) (offset : BitVec 16) : MemOp → Instr
  | .lw => .lw base rt offset
  | .sw => .sw base rt offset
  | .ld => .ld base rt offset
  | .sd => .sd base rt offset

/-- What an assembler form assembles to. An immediate is encoded as its low 16 bits (R78); `lui rt, imm` is
`aui rt, $zero, imm` (R79). -/
def Asm.instr : Asm → Instr
  | .rrr op rd rs rt => op.instr rd.index rs.index rt.index
  | .ori rt rs imm => .ori rs.index rt.index (BitVec.ofInt 16 imm)
  | .aui rt rs imm => .aui rs.index rt.index (BitVec.ofInt 16 imm)
  | .lui rt imm => .aui 0#5 rt.index (BitVec.ofInt 16 imm)
  | .dahi rs imm => .dahi rs.index (BitVec.ofInt 16 imm)
  | .dati rs imm => .dati rs.index (BitVec.ofInt 16 imm)
  | .mem op rt offset base => op.instr rt.index base.index (BitVec.ofInt 16 offset)

end Sys2Proof
end

