-- ==== Sys2Proof/Machine/State.lean ====
section
/-! DEFINITION. The state of the block as plain data (10_state.md R20), the reasons a step can stop, and the state after reset (70_reset_and_hazards.md R340). -/

namespace Sys2Proof.Machine

/-- Memory: (address, byte) pairs in canonical form; an unlisted address reads as `unlistedByte`
(Ops.lean), and `Memory.wf` there says what canonical is. -/
abbrev Memory := List Host.Cell

/-- The coprocessor's state (R33). `null` is the single unit value of the null coprocessor (R196). Any other coprocessor
is `attached`: its state is the hook calls it has seen, newest first, from which its outputs follow (log 7). -/
inductive Cop where
  | null
  | attached (seen : List CopEvent)
  deriving DecidableEq, Repr

/-- The run status (R34). -/
inductive Status where
  | running
  | fatal (info : FatalInfo)
  deriving DecidableEq, Repr

/-- The execution strategy of one call (R201); it is never stored in the state. -/
inductive Strategy where
  | datapath
  | trad
  deriving DecidableEq, Repr

/-- The operations the host may call (R200). -/
inductive HostCall where
  | executeStage
  | executeInstruction
  | executeInstructionSelect (strategy : Strategy)
  | getRegisterByEnum (name : RegName)
  | getMemory
  | loadInstructions (words : List Word)
  deriving DecidableEq, Repr

/-- What a TradCore step returns to the host (R300); the diagnostic names opcode and funct. -/
inductive TradResult where
  | executed
  | unsupported (opcode funct : BitVec 6)
  | refused
  deriving DecidableEq, Repr

/-- What a host operation returns to the host, where it returns anything beside the new state (log 1). -/
inductive Reply where
  /-- The result of a TradCore step (R300, R304, R305). -/
  | trad (result : TradResult)
  /-- The value of a register (R203). -/
  | value (v : Dword)
  /-- The whole memory (R55). -/
  | memory (m : Memory)
  /-- Whether every store of the loader succeeded (R54). -/
  | loaded (ok : Bool)
  deriving DecidableEq, Repr

structure State where
  /-- The register file (R21). Entry 0 is never read and never written by the pipeline: x[0] is hardwired in `gpr` and
  `setGpr` (R22; log 11). -/
  x : Vector Dword 32
  /-- The program counter (R24). -/
  pc : Dword
  /-- The one memory, of instructions and data (R40, R41). -/
  mem : Memory
  /-- The current stage (R26). -/
  stage : Stage
  /-- The inter-stage wires (R28). -/
  w : Wires
  /-- The decoded instruction latch (R30). -/
  instr : Option Variant
  /-- The control-signal latch (R31). -/
  ctrl : Option Ctrl
  /-- The coprocessor's state (R33). -/
  cop : Cop
  /-- The run status (R34). -/
  status : Status
  /-- The session's memory parameters (R7); no step changes them. -/
  cfg : MemConfig
  /-- THE MODEL'S OWN: the host operations still to be driven, oldest first; when there is none the host calls
  execute_instruction (log 1). -/
  calls : List HostCall
  /-- THE MODEL'S OWN: what the host operations have returned, newest first (log 1). -/
  replies : List Reply
  deriving DecidableEq, Repr

/-- Why a step stops. -/
inductive Fault where
  /-- Raised by every host operation from a state whose status is Fatal: the run is over and no operation has a step
  (R34, R206, R320). It is the hardware's own end, so it is safe. -/
  | fatal (info : FatalInfo)
  /-- Raised by a stage that reads a wire or latch which is ⊥ (R29, R325). No state that a run reaches raises it; it is
  safe, since the model supplies no value. -/
  | unwritten (wire : Wire)
  /-- Raised when a port carries a code the control generator never produces (R101, R325). No step raises it, since the
  latch holds enumerations; only the port reader does. Safe. -/
  | undefinedCode (port : Port)
  deriving DecidableEq, Repr

/-- Why a step has no meaning. -/
inductive Refusal where
  /-- Raised by `exec` for an instruction that has no meaning yet: none is left. Safe. -/
  | notModelled (mnemonic : String)
  deriving DecidableEq, Repr

/-- The outcome of one step of this machine. -/
abbrev Out := Host.Outcome State Fault Refusal

/-! ### Updates of one field -/

def State.setX (s : State) (x : Vector Dword 32) : State := { s with x := x }
def State.setPc (s : State) (pc : Dword) : State := { s with pc := pc }
def State.setMem (s : State) (m : Memory) : State := { s with mem := m }
def State.setStage (s : State) (st : Stage) : State := { s with stage := st }
def State.setWires (s : State) (w : Wires) : State := { s with w := w }
def State.setInstr (s : State) (v : Option Variant) : State := { s with instr := v }
def State.setCtrl (s : State) (c : Option Ctrl) : State := { s with ctrl := c }
def State.setCop (s : State) (c : Cop) : State := { s with cop := c }
def State.setStatus (s : State) (st : Status) : State := { s with status := st }
def State.setCalls (s : State) (cs : List HostCall) : State := { s with calls := cs }
def State.addReply (s : State) (r : Reply) : State := { s with replies := r :: s.replies }

/-! ### Reset -/

/-- The machine right after reset (R340), under the common launch premises of 95_test_vectors.md section 0. The spec fixes
the stage, the wires and latches, the status and x[0]; every other value is a parameter of the launch, and the ones here
are DESIGN CHOICE, unsafe: PC_INIT = 4 (log 3), every register 0 (log 4), every byte 0 (log 5), MEM_SIZE = 0x1000 with
every access in range admitted (log 6), the null coprocessor (log 7). `State.launch` (Launch.lean) takes any others. -/
def State.reset : State :=
  { x := Vector.replicate 32 0#64
    pc := 4#64
    mem := []
    stage := .instructionFetch
    w := Wires.bottom
    instr := none
    ctrl := none
    cop := .null
    status := .running
    cfg := Config.testMemory
    calls := []
    replies := [] }

end Sys2Proof.Machine
end

