-- ==== Sys2Proof/Machine/Ops.lean ====
section
/-! DEFINITION. The named operations over outcomes, registers, memory, the coprocessor and the run status. Every read and
write of the state goes through these. -/

namespace Sys2Proof.Machine

/-! ### Outcomes -/

/-- Go on from a next state; a stop stays a stop. -/
def andThen (o : Out) (f : State → Out) : Out :=
  match o with
  | .next s => f s
  | .fault r => .fault r
  | .refused r => .refused r

/-- Read a wire or latch; reading ⊥ is a model fault (R29, R325). -/
def need {α : Type} (v : Option α) (wire : Wire) (k : α → Out) : Out :=
  match v with
  | some a => k a
  | none => .fault (.unwritten wire)

/-! ### General registers -/

/-- R10, R22: `x[i]`; x[0] reads 0 whatever is stored. -/
def gpr (s : State) (i : RegIdx) : Dword :=
  if i = 0#5 then 0#64 else s.x[i.toNat]

/-- R10, R22: `x[i] <- v`; a no-op when i = 0. -/
def setGpr (i : RegIdx) (v : Dword) (s : State) : State :=
  if i = 0#5 then s else s.setX (s.x.set i.toNat v)

/-- R24: pc advances by 4, modulo 2^64. -/
def advancePc (s : State) : State := s.setPc (s.pc + 4#64)

/-! ### Memory as bytes -/

/-- DESIGN CHOICE, unsafe at reset (log 5): what an address with no entry reads as. Every MEM_INIT can still be launched,
since [0, MEM_SIZE) is finite and a launch lists its bytes. -/
def unlistedByte : Byte := 0#8

/-- The canonical form: addresses strictly rise, and no entry equals what an unlisted address reads as. -/
abbrev Memory.wf (m : Memory) : Prop :=
  m.Pairwise (fun p q => p.1 < q.1) ∧ ∀ p ∈ m, p.2 ≠ unlistedByte

/-- Memory exists on [0, size) alone (R40). -/
abbrev Memory.within (size : Nat) (m : Memory) : Prop := ∀ p ∈ m, p.1 < size

/-- The byte at an address. -/
def readByte : Memory → Nat → Byte
  | [], _ => unlistedByte
  | (k, c) :: m, a => if k = a then c else readByte m a

/-- Store one byte, keeping the canonical form: writing `unlistedByte` removes the entry. -/
def writeByte : Memory → Nat → Byte → Memory
  | [], a, b => if b = unlistedByte then [] else [(a, b)]
  | (k, c) :: m, a, b =>
    if a < k then (if b = unlistedByte then (k, c) :: m else (a, b) :: (k, c) :: m)
    else if a = k then (if b = unlistedByte then m else (a, b) :: m)
    else (k, c) :: writeByte m a b

/-- Store bytes at rising addresses, from `a` on. -/
def writeBytes : Memory → Nat → List Byte → Memory
  | m, _, [] => m
  | m, a, b :: bs => writeBytes (writeByte m a b) (a + 1) bs

/-! ### Memory accesses -/

/-- R43, `mem_ok(addr, n)`: false when addr + n > MEM_SIZE, computed without wrap-around; the rest is the launch's. -/
def memOk (cfg : MemConfig) (a n : Nat) : Bool :=
  decide (a + n ≤ cfg.size) && (!cfg.aligned || a % n == 0) && !cfg.denied.contains (a, n)

/-- R42: the word at `a`. -/
def readWord (m : Memory) (a : Nat) : Word :=
  wordOfBytes (readByte m a) (readByte m (a + 1)) (readByte m (a + 2)) (readByte m (a + 3))

/-- R42: the doubleword at `a`. -/
def readDword (m : Memory) (a : Nat) : Dword :=
  dwordOfBytes (readByte m a) (readByte m (a + 1)) (readByte m (a + 2)) (readByte m (a + 3))
    (readByte m (a + 4)) (readByte m (a + 5)) (readByte m (a + 6)) (readByte m (a + 7))

/-- R10, R42, `MemRead(a, 4)`; none is FAIL. -/
def memRead4 (s : State) (a : Dword) : Option Word :=
  if memOk s.cfg a.toNat 4 then some (readWord s.mem a.toNat) else none

/-- R10, R42, `MemRead(a, 8)`; none is FAIL. -/
def memRead8 (s : State) (a : Dword) : Option Dword :=
  if memOk s.cfg a.toNat 8 then some (readDword s.mem a.toNat) else none

/-- R10, R42, `MemWrite(a, 4, v)`; none is FAIL, which changes no byte (R47, D13). -/
def memWrite4 (a : Dword) (v : Word) (s : State) : Option State :=
  if memOk s.cfg a.toNat 4 then some (s.setMem (writeBytes s.mem a.toNat (wordBytes v))) else none

/-- R10, R42, `MemWrite(a, 8, v)`; none is FAIL, which changes no byte (R47, D13). -/
def memWrite8 (a : Dword) (v : Dword) (s : State) : Option State :=
  if memOk s.cfg a.toNat 8 then some (s.setMem (writeBytes s.mem a.toNat (dwordBytes v))) else none

/-- R174: the word fetched at pc; a failed fetch substitutes 0 (R47, C1). -/
def fetchWord (s : State) : Word := (memRead4 s s.pc).getD 0#32

/-- R179: a load of the given width, zero-extended to 64 bits; a failed load substitutes 0 (R47). -/
def loadValue (width : RegWidth) (a : Dword) (s : State) : Dword :=
  match width with
  | .word => ((memRead4 s a).getD 0#32).setWidth 64
  | .doubleWord => (memRead8 s a).getD 0#64

/-- R179: a store of the low bits of `v` in the given width; a failed store is ignored (R47). -/
def storeValue (width : RegWidth) (a v : Dword) (s : State) : State :=
  match width with
  | .word => (memWrite4 a (v.setWidth 32) s).getD s
  | .doubleWord => (memWrite8 a v s).getD s

/-! ### The coprocessor's hooks (R195, R196) -/

/-- A state hook: the null coprocessor stays as it is, and an attached one sees the call. -/
def Cop.see (e : CopEvent) : Cop → Cop
  | .null => .null
  | .attached seen => .attached (e :: seen)

/-- `cop.data_write()`. -/
def Cop.dataWrite : Cop → Bool
  | .null => false
  | .attached seen => Config.copDataWrite seen

/-- `cop.data()`. -/
def Cop.data : Cop → Dword
  | .null => 0#64
  | .attached seen => Config.copData seen

/-- `cop.mem_write_data()`. -/
def Cop.memWriteData : Cop → Dword
  | .null => 0#64
  | .attached seen => Config.copMemWriteData seen

/-- Call a state hook. -/
def hook (e : CopEvent) (s : State) : State := s.setCop (s.cop.see e)

/-! ### Fatal, the one failure, and the latches -/

/-- TAKING FATAL (R320, R322): the status records the diagnostic, and nothing else changes: pc is still the word's address
and stage is still InstructionDecode (R171, D19). There is no trap entry (R326), and no return from it: no operation sets
the status back to Running (R327, R343). -/
def raiseFatal (info : FatalInfo) (s : State) : State := s.setStatus (.fatal info)

/-- Wires, instr and ctrl become ⊥, as on entry to IF (R29-R31) and in a TradCore step (R300). -/
def clearLatches (s : State) : State := ((s.setWires Wires.bottom).setInstr none).setCtrl none

/-- R171: after a stage's work the stage advances, unless the work raised Fatal. -/
def advanceStage (s : State) : State :=
  match s.status with
  | .running => s.setStage s.stage.succ
  | .fatal _ => s

end Sys2Proof.Machine
end

