-- ==== Sys2Proof/Machine/Operands.lean ====
section
/-! DEFINITION. The operand forms (30_encoding.md R66, R67; 41_alu.md R141; 42_stage_sequencer.md R176, R181): extensions,
the width-truncated register read, the operand-2 multiplexer, and the destination and width conversion of the writeback. -/

namespace Sys2Proof.Machine

/-- `v[31:0]`. -/
def lo32 (v : Dword) : Word := v.setWidth 32

/-- `sext_32` (R9). -/
def sext32 (v : Word) : Dword := v.signExtend 64

/-- `zext_32` (R9). -/
def zext32 (v : Word) : Dword := v.setWidth 64

/-- `sext_16` (R9). -/
def sext16 (v : BitVec 16) : Dword := v.signExtend 64

/-- `zext_16` (R9). -/
def zext16 (v : BitVec 16) : Dword := v.setWidth 64

/-- R176 step 5, `rdreg`: a Word read keeps the low 32 bits and zeroes the rest (D32). -/
def readReg (width : RegWidth) (s : State) (i : RegIdx) : Dword :=
  match width with
  | .word => zext32 (lo32 (gpr s i))
  | .doubleWord => gpr s i

/-- R141, `shift_of`. -/
def shiftOf : ImmShift → Nat
  | .shift0 => 0
  | .shift16 => 16
  | .shift32 => 32
  | .shift48 => 48

/-- R141: the operand-2 multiplexer. The zero-extended immediate is never shifted. None where the selected wire is ⊥. -/
def op2 (c : Ctrl) (w : Wires) : Option Dword :=
  match c.aluSrc with
  | .readRegister2 => w.readData2
  | .signExtendedImmediate => w.signExtend.map (fun v : Dword => v <<< shiftOf c.immShift)
  | .zeroExtendedImmediate => w.imm.map zext16

/-- The wire operand 2 is read from. -/
def op2Wire : AluSrc → Wire
  | .readRegister2 => .readData2
  | .signExtendedImmediate => .signExtend
  | .zeroExtendedImmediate => .imm

/-- R181: the destination index the RegDst signal selects. -/
def dstIndex (d : RegDst) (w : Wires) : Option RegIdx :=
  match d with
  | .rs => w.rs
  | .rt => w.rt
  | .rd => w.rd

/-- The wire the destination index is read from. -/
def dstWire : RegDst → Wire
  | .rs => .rs
  | .rt => .rt
  | .rd => .rd

/-- R181: a Word value is truncated to 32 bits and sign-extended before the write. -/
def narrow (width : RegWidth) (v : Dword) : Dword :=
  match width with
  | .word => sext32 (lo32 v)
  | .doubleWord => v

end Sys2Proof.Machine
end

