-- ==== Sys2Proof/Machine/Flags.lean ====
section
/-! DEFINITION. The block has no flags, condition codes or predicates (10_state.md R32). What other machines hold in flags
is here the 0/1 result of a comparison, which set-less-than writes to a register (41_alu.md R146), and overflow, which
sets nothing. -/

namespace Sys2Proof.Machine

/-- `zext` of a truth value (R146). -/
def zextBool (b : Bool) : Dword := if b then 1#64 else 0#64

/-- R146, SetOnLessThanSigned: 1 if signed(a) < signed(b), else 0. -/
def lessSigned {n : Nat} (a b : BitVec n) : Dword := zextBool (decide (a.toInt < b.toInt))

/-- R146, SetOnLessThanUnsigned: 1 if unsigned(a) < unsigned(b), else 0. -/
def lessUnsigned {n : Nat} (a b : BitVec n) : Dword := zextBool (decide (a.toNat < b.toNat))

end Sys2Proof.Machine
end

