-- ==== Sys2Proof/Machine/Alu.lean ====
section
/-! DEFINITION. The ALU (41_alu.md R140-R155): a pure function of a control code, a width and two 64-bit operands. It holds
no state and raises nothing. -/

namespace Sys2Proof.Machine

/-- R150: the exact product of the signed readings, modulo 2^64. -/
def productSigned {n : Nat} (a b : BitVec n) : Dword := BitVec.ofInt 64 (a.toInt * b.toInt)

/-- R151: the exact product of the unsigned readings, modulo 2^64. -/
def productUnsigned {n : Nat} (a b : BitVec n) : Dword := BitVec.ofNat 64 (a.toNat * b.toNat)

/-- R152: 0 when the divisor is 0, else the signed quotient rounded toward zero, modulo 2^n. The one overflow,
-2^(n-1) / -1, wraps to -2^(n-1) (D17; log 12). -/
def quotientSigned {n : Nat} (a b : BitVec n) : BitVec n :=
  if b = 0#n then 0#n else BitVec.ofInt n (Int.tdiv a.toInt b.toInt)

/-- R152: 0 when the divisor is 0, else the unsigned quotient rounded down. -/
def quotientUnsigned {n : Nat} (a b : BitVec n) : BitVec n :=
  if b = 0#n then 0#n else BitVec.ofNat n (a.toNat / b.toNat)

/-- R144-R152: the raw result over operands already truncated to n bits, in 64 bits. -/
def aluRaw {n : Nat} (ctl : AluControl) (a b : BitVec n) : Dword :=
  match ctl with
  | .addition => (a + b).setWidth 64
  | .subtraction => (a - b).setWidth 64
  | .and => (a &&& b).setWidth 64
  | .or => (a ||| b).setWidth 64
  | .setOnLessThanSigned => lessSigned a b
  | .setOnLessThanUnsigned => lessUnsigned a b
  | .leftShift16 => (b <<< 16).setWidth 64
  | .multiplicationSigned => productSigned a b
  | .multiplicationUnsigned => productUnsigned a b
  | .divisionSigned => (quotientSigned a b).setWidth 64
  | .divisionUnsigned => (quotientUnsigned a b).setWidth 64

/-- R153: the complete ALU. A Word operation truncates both operands to 32 bits first (R142) and sign-extends the low 32
bits of the raw result (R143). -/
def alu (ctl : AluControl) (width : RegWidth) (a b : Dword) : Dword :=
  match width with
  | .word => sext32 (lo32 (aluRaw ctl (lo32 a) (lo32 b)))
  | .doubleWord => aluRaw ctl a b

end Sys2Proof.Machine
end

