-- ==== Sys2Proof/Machine/Control.lean ====
section
/-! DEFINITION. The control-signal generator (40_control_signals.md R103-R122): the templates, the primary lookup by
opcode, the secondary lookup by funct or REGIMM rt, and the ALU-control derivation. -/

namespace Sys2Proof.Machine

open Enc

/-- R104, the Default row: the values of fields no later stage reads. branch and jump are 0 in every bundle (R110). -/
def defaultBundle : Ctrl :=
  { aluOp := .addition, aluControl := none, aluSrc := .readRegister2, immShift := .shift0, branch := false, jump := false,
    memRead := false, memWrite := false, memWriteSrc := .primaryUnit, memToReg := .useAlu, regDst := .rt,
    regWidth := .doubleWord, regWrite := false }

/-- R104, RegisterRegister; the width is per funct (R111). -/
def registerRegister (width : RegWidth) : Ctrl :=
  { defaultBundle with aluOp := .useFunctField, regDst := .rd, regWidth := width, regWrite := true }

/-- R104, OrImmediate. -/
def orImmediate : Ctrl :=
  { defaultBundle with aluOp := .or, aluSrc := .zeroExtendedImmediate, regWrite := true }

/-- R104, AddUpperImmediate. -/
def addUpperImmediate : Ctrl :=
  { defaultBundle with aluSrc := .signExtendedImmediate, immShift := .shift16, regWidth := .word, regWrite := true }

/-- R104, AddHigher. -/
def addHigher : Ctrl :=
  { defaultBundle with aluSrc := .signExtendedImmediate, immShift := .shift32, regDst := .rs, regWrite := true }

/-- R104, AddTop. -/
def addTop : Ctrl :=
  { defaultBundle with aluSrc := .signExtendedImmediate, immShift := .shift48, regDst := .rs, regWrite := true }

/-- R104, LoadWord. -/
def loadWord : Ctrl :=
  { defaultBundle with
    aluSrc := .signExtendedImmediate, memRead := true, memToReg := .useMemory, regWidth := .word, regWrite := true }

/-- R104, StoreWord. -/
def storeWord : Ctrl :=
  { defaultBundle with aluSrc := .signExtendedImmediate, memWrite := true, regWidth := .word }

/-- R104, LoadDouble. -/
def loadDouble : Ctrl :=
  { defaultBundle with aluSrc := .signExtendedImmediate, memRead := true, memToReg := .useMemory, regWrite := true }

/-- R104, StoreDouble. -/
def storeDouble : Ctrl :=
  { defaultBundle with aluSrc := .signExtendedImmediate, memWrite := true }

/-- R104, CoprocessorOnly: no branch, jump, memory or register-write side effect on the primary unit. -/
def coprocessorOnly : Ctrl := defaultBundle

/-- Put the derived ALU control into a bundle (R122). -/
def withAlu (c : Ctrl) (a : AluControl) : Ctrl := { c with aluControl := some a }

/-- R111: the width of each R-type funct; any other funct is Fatal kind 2. -/
def widthPolicy (funct : BitVec 6) : Except FatalInfo RegWidth :=
  if funct = fnAdd then .ok .word
  else if funct = fnSub then .ok .word
  else if funct = fnAnd then .ok .doubleWord
  else if funct = fnOr then .ok .doubleWord
  else if funct = fnSlt then .ok .doubleWord
  else if funct = fnSltu then .ok .doubleWord
  else if funct = fnDadd then .ok .doubleWord
  else if funct = fnDsub then .ok .doubleWord
  else if funct = fnMul then .ok .word
  else if funct = fnMulu then .ok .word
  else if funct = fnDiv then .ok .word
  else if funct = fnDivu then .ok .word
  else if funct = fnDmul then .ok .doubleWord
  else if funct = fnDmulu then .ok .doubleWord
  else if funct = fnDdiv then .ok .doubleWord
  else if funct = fnDdivu then .ok .doubleWord
  else .error (.controlFunct funct)

/-- R112: the REGIMM template; any other rt is Fatal kind 4. -/
def regimmSelect (rt : RegIdx) : Except FatalInfo Ctrl :=
  if rt = rtDahi then .ok addHigher
  else if rt = rtDati then .ok addTop
  else .error (.controlRegimm rt)

/-- R105: the primary lookup. The last I-type arm is never taken on a decoded word, since the decoder gives no other
I-type opcode (R63). -/
def ctrlPrimary : Variant → Except FatalInfo Ctrl
  | .rType _ _ _ _ _ funct =>
    match widthPolicy funct with
    | .ok width => .ok (registerRegister width)
    | .error info => .error info
  | .iType op _ rt _ =>
    if op = opOri then .ok orImmediate
    else if op = opAui then .ok addUpperImmediate
    else if op = opRegimm then regimmSelect rt
    else if op = opLw then .ok loadWord
    else if op = opSw then .ok storeWord
    else if op = opLd then .ok loadDouble
    else if op = opSd then .ok storeDouble
    else .error (.decodeFailure op)
  | .fpuRType .. => .ok coprocessorOnly
  | .jType op _ => .error (.controlJType op)

/-- R120: an SOP funct has its ALU control only with shamt = 0b00010; any other shamt is Fatal kind 3. -/
def sopControl (funct : BitVec 6) (shamt : RegIdx) (a : AluControl) : Except FatalInfo AluControl :=
  if shamt = sopShamt then .ok a else .error (.controlShamt funct shamt)

/-- R120, the "use funct field" arm. Its last arm is never taken after R111. -/
def functControl (funct : BitVec 6) (shamt : RegIdx) : Except FatalInfo AluControl :=
  if funct = fnAdd ∨ funct = fnDadd then .ok .addition
  else if funct = fnSub ∨ funct = fnDsub then .ok .subtraction
  else if funct = fnAnd then .ok .and
  else if funct = fnOr then .ok .or
  else if funct = fnSlt then .ok .setOnLessThanSigned
  else if funct = fnSltu then .ok .setOnLessThanUnsigned
  else if funct = fnMul ∨ funct = fnDmul then sopControl funct shamt .multiplicationSigned
  else if funct = fnMulu ∨ funct = fnDmulu then sopControl funct shamt .multiplicationUnsigned
  else if funct = fnDiv ∨ funct = fnDdiv then sopControl funct shamt .divisionSigned
  else if funct = fnDivu ∨ funct = fnDdivu then sopControl funct shamt .divisionUnsigned
  else .error (.controlFunct funct)

/-- R120: the ALU control of a bundle. Only an RType has alu_op UseFunctField; the last arm is never taken on a bundle of
R105. -/
def aluControlOf (c : Ctrl) (v : Variant) : Except FatalInfo AluControl :=
  match c.aluOp with
  | .addition => .ok .addition
  | .subtraction => .ok .subtraction
  | .and => .ok .and
  | .or => .ok .or
  | .leftShift16 => .ok .leftShift16
  | .useFunctField =>
    match v with
    | .rType _ _ _ _ shamt funct => functControl funct shamt
    | _ => .error (.decodeFailure v.opcode)

/-- R122: the full control function. -/
def control (v : Variant) : Except FatalInfo Ctrl :=
  match ctrlPrimary v with
  | .error info => .error info
  | .ok c =>
    match aluControlOf c v with
    | .error info => .error info
    | .ok a => .ok (withAlu c a)

end Sys2Proof.Machine
end

