-- ==== Sys2Proof/Machine/Stages.lean ====
section
/-! DEFINITION. The work of each stage (42_stage_sequencer.md R174-R181), the single-stage driver (R171) and its
repetition (R172). -/

namespace Sys2Proof.Machine

/-! ### Instruction Fetch -/

/-- R174, on a given word: every wire and latch becomes ⊥, the word is latched, and the coprocessor is notified. -/
def latchFetch (word : Word) (s : State) : State :=
  hook (.fetch word) ((clearLatches s).setWires { Wires.bottom with instruction := some word })

/-- R174: the work of IF. A failed fetch latches the word 0. -/
def fetchWork (s : State) : Out := .next (latchFetch (fetchWord s) s)

/-! ### Instruction Decode -/

/-- R176 steps 1 to 3: latch the variant, slice the field wires at their fixed ranges, sign-extend the immediate. -/
def latchFields (v : Variant) (word : Word) (s : State) : State :=
  (s.setInstr (some v)).setWires
    { s.w with
      rs := some (Enc.rs word), rt := some (Enc.rt word), rd := some (Enc.rd word)
      shamt := some (Enc.shamt word), funct := some (Enc.funct word), imm := some (Enc.imm word)
      signExtend := some (sext16 (Enc.imm word)) }

/-- R176 steps 4 and 5: latch the template and read the two source registers at its width. -/
def latchOperands (c : Ctrl) (word : Word) (s : State) : State :=
  (s.setCtrl (some c)).setWires
    { s.w with
      readData1 := some (readReg c.regWidth s (Enc.rs word))
      readData2 := some (readReg c.regWidth s (Enc.rt word)) }

/-- R176 steps 6 and 7: latch the ALU control, and forward the second register value to the coprocessor. -/
def latchAluControl (c : Ctrl) (a : AluControl) (word : Word) (s : State) : State :=
  hook (.decode (readReg c.regWidth s (Enc.rt word))) (s.setCtrl (some (withAlu c a)))

/-- R176: the work of ID. Its three checks are in this order (R323); a Fatal keeps what the earlier steps latched (R322). -/
def decodeWork (s : State) : Out :=
  need s.w.instruction .instruction fun word =>
    match decodeVariant word with
    | .error info => .next (raiseFatal info s)
    | .ok v =>
      match ctrlPrimary v with
      | .error info => .next (raiseFatal info (latchFields v word s))
      | .ok c =>
        match aluControlOf c v with
        | .error info => .next (raiseFatal info (latchOperands c word (latchFields v word s)))
        | .ok a => .next (latchAluControl c a word (latchOperands c word (latchFields v word s)))

/-! ### Execute -/

/-- R177: the work of EX. branch and jump are not read (R110). -/
def executeWork (s : State) : Out :=
  need s.ctrl .ctrl fun c =>
  need c.aluControl .aluControl fun a =>
  need s.w.readData1 .readData1 fun v1 =>
  need (op2 c s.w) (op2Wire c.aluSrc) fun v2 =>
    .next (hook .execute (s.setWires { s.w with aluResult := some (alu a c.regWidth v1 v2) }))

/-! ### Memory -/

/-- R179: the read, when mem_read is set; a failed read gives 0. -/
def loadWork (c : Ctrl) (ea : Dword) (s : State) : State :=
  if c.memRead then s.setWires { s.w with memoryData := some (loadValue c.regWidth ea s) } else s

/-- R179: the write, when mem_write is set; a failed write is ignored. No admitted bundle selects FloatingPointUnit. -/
def storeWork (c : Ctrl) (ea : Dword) (s : State) : Out :=
  if c.memWrite then
    match c.memWriteSrc with
    | .primaryUnit => need s.w.readData2 .readData2 fun v => .next (storeValue c.regWidth ea v s)
    | .floatingPointUnit => .next (storeValue c.regWidth ea s.cop.memWriteData s)
  else .next s

/-- R179: the pre-writeback value. -/
def selectWork (c : Ctrl) (ea : Dword) (s : State) : Out :=
  match c.memToReg with
  | .useAlu => .next (hook .memory (s.setWires { s.w with dataResult := some ea }))
  | .useMemory =>
    need s.w.memoryData .memoryData fun v => .next (hook .memory (s.setWires { s.w with dataResult := some v }))

/-- R179: the work of MEM. A bundle that both reads and writes reads first (D24). -/
def memoryWork (s : State) : Out :=
  need s.ctrl .ctrl fun c =>
  need s.w.aluResult .aluResult fun ea =>
    andThen (storeWork c ea (loadWork c ea s)) (selectWork c ea)

/-! ### WriteBack -/

/-- R181: the value written back, before the width conversion: the coprocessor's, when it claims the destination. -/
def arbitrate (cop : Cop) (dataResult : Dword) : Dword :=
  if cop.dataWrite then cop.data else dataResult

/-- R181: the register write. -/
def registerWrite (s : State) : Out :=
  need s.ctrl .ctrl fun c =>
  need s.w.dataResult .dataResult fun d =>
    if c.regWrite then
      need (dstIndex c.regDst s.w) (dstWire c.regDst) fun dst =>
        let v := narrow c.regWidth (arbitrate s.cop d)
        .next (setGpr dst v (s.setWires { s.w with registerWriteData := some v }))
    else .next s

/-- R180: the work of WB. -/
def writeBackWork (s : State) : Out :=
  need s.w.dataResult .dataResult fun d =>
    andThen (registerWrite (hook (.receiveData d) s)) fun t => .next (hook .writeback (advancePc t))

/-! ### The sequencer -/

/-- R171, `work(stage)`. -/
def work (s : State) : Out :=
  match s.stage with
  | .instructionFetch => fetchWork s
  | .instructionDecode => decodeWork s
  | .execute => executeWork s
  | .memory => memoryWork s
  | .writeBack => writeBackWork s

/-- R171, `execute_stage()`: the current stage's work, then the cyclic successor; no step when the status is Fatal. -/
def executeStage (s : State) : Out :=
  match s.status with
  | .fatal info => .fault (.fatal info)
  | .running => andThen (work s) fun t => .next (advanceStage t)

/-- R172: repeat execute_stage, stopping early once the status is Fatal. -/
def runStages : Nat → State → Out
  | 0, s => .next s
  | n + 1, s =>
    match s.status with
    | .fatal _ => .next s
    | .running => andThen (executeStage s) (runStages n)

/-! ### One whole instruction -/

/-- The five works on an instruction whose variant and bundle are given: what execute_instruction does from IF when it
fetches that instruction's word (R172, R185). Each meaning names its own variant and bundle. The stage ends at IF. -/
def runInstruction (v : Variant) (c : Ctrl) (a : AluControl) (s : State) : Out :=
  let word := v.word
  let decoded := latchAluControl c a word (latchOperands c word (latchFields v word (latchFetch word s)))
  andThen (executeWork decoded) fun s1 =>
  andThen (memoryWork s1) fun s2 =>
  andThen (writeBackWork s2) fun s3 =>
    .next (s3.setStage .instructionFetch)

/-- IF, then ID up to step 4, on a word that has no template: Fatal, with the stage left at InstructionDecode (R322). -/
def fatalAtControl (v : Variant) (info : FatalInfo) (s : State) : Out :=
  .next (raiseFatal info ((latchFields v v.word (latchFetch v.word s)).setStage .instructionDecode))

end Sys2Proof.Machine
end

