-- ==== Sys2Proof/Machine/Coprocessor.lean ====
section
/-! DEFINITION. Coprocessor words and jumps (47_coprocessor_jtype.md R290-R294). -/

namespace Sys2Proof.Machine

open Enc

/-- R291, COP1: no memory or register effect on the primary unit; the hooks see the word, x[ft], and x[fmt] + x[ft]. -/
def execCop1 (fmt ft fs fd : RegIdx) (function : BitVec 6) (s : State) : Out :=
  runInstruction (.fpuRType opCop1 fmt ft fs fd function) coprocessorOnly .addition s

/-- R293, J: it decodes, then raises Fatal kind 5 at ID step 4; no jump is made. -/
def execJ (target : BitVec 26) (s : State) : Out :=
  fatalAtControl (.jType opJ target) (.controlJType opJ) s

/-- R293, JAL: it decodes, then raises Fatal kind 5 at ID step 4; no jump is made and no link register is written. -/
def execJal (target : BitVec 26) (s : State) : Out :=
  fatalAtControl (.jType opJal target) (.controlJType opJal) s

end Sys2Proof.Machine
end

