-- ==== Sys2Proof/Machine/Immediate.lean ====
section
/-! DEFINITION. The immediate-arithmetic instructions (45_immediate.md R250-R255). -/

namespace Sys2Proof.Machine

open Enc

/-- R251, ORI: `x[rt] <- x[rs] OR zext_16(imm)`. -/
def execOri (rs rt : RegIdx) (imm : BitVec 16) (s : State) : Out :=
  runInstruction (.iType opOri rs rt imm) orImmediate .or s

/-- R252, AUI: `x[rt] <- sext_32((x[rs][31:0] + (imm << 16)) mod 2^32)`; LUI when rs = 0. -/
def execAui (rs rt : RegIdx) (imm : BitVec 16) (s : State) : Out :=
  runInstruction (.iType opAui rs rt imm) addUpperImmediate .addition s

/-- R253, DAHI: `x[rs] <- (x[rs] + (sext_16(imm) << 32)) mod 2^64`. -/
def execDahi (rs : RegIdx) (imm : BitVec 16) (s : State) : Out :=
  runInstruction (.iType opRegimm rs rtDahi imm) addHigher .addition s

/-- R254, DATI: `x[rs] <- (x[rs] + (imm << 48)) mod 2^64`. -/
def execDati (rs : RegIdx) (imm : BitVec 16) (s : State) : Out :=
  runInstruction (.iType opRegimm rs rtDati imm) addTop .addition s

end Sys2Proof.Machine
end

