-- ==== Sys2Proof/Machine/Integer.lean ====
section
/-! DEFINITION. The register-register integer instructions (43_integer_rtype.md R210-R218): each is the five stages on its own
variant, template and ALU control. -/

namespace Sys2Proof.Machine

open Enc

/-- R211, ADD: `x[rd] <- sext_32((x[rs][31:0] + x[rt][31:0]) mod 2^32)`. -/
def execAdd (rs rt rd shamt : RegIdx) (s : State) : Out :=
  runInstruction (.rType opSpecial rs rt rd shamt fnAdd) (registerRegister .word) .addition s

/-- R212, SUB: `x[rd] <- sext_32((x[rs][31:0] - x[rt][31:0]) mod 2^32)`. -/
def execSub (rs rt rd shamt : RegIdx) (s : State) : Out :=
  runInstruction (.rType opSpecial rs rt rd shamt fnSub) (registerRegister .word) .subtraction s

/-- R213, AND: `x[rd] <- x[rs] AND x[rt]`. -/
def execAnd (rs rt rd shamt : RegIdx) (s : State) : Out :=
  runInstruction (.rType opSpecial rs rt rd shamt fnAnd) (registerRegister .doubleWord) .and s

/-- R214, OR: `x[rd] <- x[rs] OR x[rt]`. -/
def execOr (rs rt rd shamt : RegIdx) (s : State) : Out :=
  runInstruction (.rType opSpecial rs rt rd shamt fnOr) (registerRegister .doubleWord) .or s

/-- R215, SLT: `x[rd] <- zext(signed(x[rs]) < signed(x[rt]))`. -/
def execSlt (rs rt rd shamt : RegIdx) (s : State) : Out :=
  runInstruction (.rType opSpecial rs rt rd shamt fnSlt) (registerRegister .doubleWord) .setOnLessThanSigned s

/-- R216, SLTU: `x[rd] <- zext(unsigned(x[rs]) < unsigned(x[rt]))`. -/
def execSltu (rs rt rd shamt : RegIdx) (s : State) : Out :=
  runInstruction (.rType opSpecial rs rt rd shamt fnSltu) (registerRegister .doubleWord) .setOnLessThanUnsigned s

/-- R217, DADD: `x[rd] <- (x[rs] + x[rt]) mod 2^64`. -/
def execDadd (rs rt rd shamt : RegIdx) (s : State) : Out :=
  runInstruction (.rType opSpecial rs rt rd shamt fnDadd) (registerRegister .doubleWord) .addition s

/-- R218, DSUB: `x[rd] <- (x[rs] - x[rt]) mod 2^64`. -/
def execDsub (rs rt rd shamt : RegIdx) (s : State) : Out :=
  runInstruction (.rType opSpecial rs rt rd shamt fnDsub) (registerRegister .doubleWord) .subtraction s

end Sys2Proof.Machine
end

