-- ==== Sys2Proof/Machine/LoadStore.lean ====
section
/-! DEFINITION. The loads and stores (46_loadstore.md R270-R275). The address is the ALU's addition at the instruction's width, so a
Word form computes it in 32 bits and sign-extends it (R270). -/

namespace Sys2Proof.Machine

open Enc

/-- R271, LW: the word at ea, sign-extended; 0 when the access fails. -/
def execLw (rs rt : RegIdx) (imm : BitVec 16) (s : State) : Out :=
  runInstruction (.iType opLw rs rt imm) loadWord .addition s

/-- R272, SW: the low word of x[rt] to ea; nothing when the access fails. -/
def execSw (rs rt : RegIdx) (imm : BitVec 16) (s : State) : Out :=
  runInstruction (.iType opSw rs rt imm) storeWord .addition s

/-- R273, LD: the doubleword at ea; 0 when the access fails. -/
def execLd (rs rt : RegIdx) (imm : BitVec 16) (s : State) : Out :=
  runInstruction (.iType opLd rs rt imm) loadDouble .addition s

/-- R274, SD: x[rt] to ea; nothing when the access fails. -/
def execSd (rs rt : RegIdx) (imm : BitVec 16) (s : State) : Out :=
  runInstruction (.iType opSd rs rt imm) storeDouble .addition s

end Sys2Proof.Machine
end

