-- ==== Sys2Proof/Machine/MulDiv.lean ====
section
/-! DEFINITION. The multiply and divide instructions (44_muldiv.md R230-R239): SOP words with shamt 0b00010. There is no HI/LO
register, no high product and no remainder (R230). -/

namespace Sys2Proof.Machine

open Enc

/-- R231, MUL: the low word of the signed product, sign-extended. -/
def execMul (rs rt rd : RegIdx) (s : State) : Out :=
  runInstruction (.rType opSpecial rs rt rd sopShamt fnMul) (registerRegister .word) .multiplicationSigned s

/-- R232, MULU: the low word of the unsigned product, sign-extended. -/
def execMulu (rs rt rd : RegIdx) (s : State) : Out :=
  runInstruction (.rType opSpecial rs rt rd sopShamt fnMulu) (registerRegister .word) .multiplicationUnsigned s

/-- R233, DIV: the signed word quotient rounded toward zero, 0 when the divisor's low word is 0. -/
def execDiv (rs rt rd : RegIdx) (s : State) : Out :=
  runInstruction (.rType opSpecial rs rt rd sopShamt fnDiv) (registerRegister .word) .divisionSigned s

/-- R234, DIVU: the unsigned word quotient, sign-extended, 0 when the divisor's low word is 0. -/
def execDivu (rs rt rd : RegIdx) (s : State) : Out :=
  runInstruction (.rType opSpecial rs rt rd sopShamt fnDivu) (registerRegister .word) .divisionUnsigned s

/-- R235, DMUL: the low doubleword of the signed product. -/
def execDmul (rs rt rd : RegIdx) (s : State) : Out :=
  runInstruction (.rType opSpecial rs rt rd sopShamt fnDmul) (registerRegister .doubleWord) .multiplicationSigned s

/-- R236, DMULU: the low doubleword of the unsigned product. -/
def execDmulu (rs rt rd : RegIdx) (s : State) : Out :=
  runInstruction (.rType opSpecial rs rt rd sopShamt fnDmulu) (registerRegister .doubleWord) .multiplicationUnsigned s

/-- R237, DDIV: the signed quotient rounded toward zero, 0 when the divisor is 0. -/
def execDdiv (rs rt rd : RegIdx) (s : State) : Out :=
  runInstruction (.rType opSpecial rs rt rd sopShamt fnDdiv) (registerRegister .doubleWord) .divisionSigned s

/-- R238, DDIVU: the unsigned quotient, 0 when the divisor is 0. -/
def execDdivu (rs rt rd : RegIdx) (s : State) : Out :=
  runInstruction (.rType opSpecial rs rt rd sopShamt fnDdivu) (registerRegister .doubleWord) .divisionUnsigned s

end Sys2Proof.Machine
end

