-- ==== Sys2Proof/Machine/Dispatch.lean ====
section
/-! DEFINITION. The dispatch: one arm per instruction, each one call of its meaning. -/

namespace Sys2Proof.Machine

def exec (i : Instr) (s : State) : Host.Outcome State Fault Refusal :=
  match i with
  | .add rs rt rd shamt => Sys2Proof.Machine.execAdd rs rt rd shamt s
  | .sub rs rt rd shamt => Sys2Proof.Machine.execSub rs rt rd shamt s
  | .and rs rt rd shamt => Sys2Proof.Machine.execAnd rs rt rd shamt s
  | .or rs rt rd shamt => Sys2Proof.Machine.execOr rs rt rd shamt s
  | .slt rs rt rd shamt => Sys2Proof.Machine.execSlt rs rt rd shamt s
  | .sltu rs rt rd shamt => Sys2Proof.Machine.execSltu rs rt rd shamt s
  | .dadd rs rt rd shamt => Sys2Proof.Machine.execDadd rs rt rd shamt s
  | .dsub rs rt rd shamt => Sys2Proof.Machine.execDsub rs rt rd shamt s
  | .mul rs rt rd => Sys2Proof.Machine.execMul rs rt rd s
  | .mulu rs rt rd => Sys2Proof.Machine.execMulu rs rt rd s
  | .div rs rt rd => Sys2Proof.Machine.execDiv rs rt rd s
  | .divu rs rt rd => Sys2Proof.Machine.execDivu rs rt rd s
  | .dmul rs rt rd => Sys2Proof.Machine.execDmul rs rt rd s
  | .dmulu rs rt rd => Sys2Proof.Machine.execDmulu rs rt rd s
  | .ddiv rs rt rd => Sys2Proof.Machine.execDdiv rs rt rd s
  | .ddivu rs rt rd => Sys2Proof.Machine.execDdivu rs rt rd s
  | .ori rs rt imm => Sys2Proof.Machine.execOri rs rt imm s
  | .aui rs rt imm => Sys2Proof.Machine.execAui rs rt imm s
  | .lw rs rt imm => Sys2Proof.Machine.execLw rs rt imm s
  | .sw rs rt imm => Sys2Proof.Machine.execSw rs rt imm s
  | .ld rs rt imm => Sys2Proof.Machine.execLd rs rt imm s
  | .sd rs rt imm => Sys2Proof.Machine.execSd rs rt imm s
  | .dahi rs imm => Sys2Proof.Machine.execDahi rs imm s
  | .dati rs imm => Sys2Proof.Machine.execDati rs imm s
  | .cop1 fmt ft fs fd function => Sys2Proof.Machine.execCop1 fmt ft fs fd function s
  | .j target => Sys2Proof.Machine.execJ target s
  | .jal target => Sys2Proof.Machine.execJal target s

end Sys2Proof.Machine
end

