-- ==== Sys2Proof/Machine/Launch.lean ====
section
/-! DEFINITION. Reset as a function of the launch parameters (70_reset_and_hazards.md R340; 00_scope.md R7), of which
`State.reset` is the one under the common premises. -/

namespace Sys2Proof.Machine

/-- What the host chooses when it creates a session (R7, R205). -/
structure Launch where
  /-- PC_INIT (D14). -/
  pcInit : Dword
  /-- GPR_INIT (D15); entry 0 is not used. -/
  gprInit : Vector Dword 32
  /-- MEM_INIT (D15) as a list of bytes, 0 elsewhere; cells outside [0, MEM_SIZE) do not exist and are dropped (log 21). -/
  memInit : List Host.Cell
  /-- MEM_SIZE and mem_ok (D11, D12). -/
  cfg : MemConfig
  /-- The coprocessor at its own reset (D25). -/
  cop : Cop
  deriving DecidableEq, Repr

/-- MEM_INIT as a canonical memory on [0, size); a later cell wins over an earlier one of the same address. -/
def initialMemory (size : Nat) (cells : List Host.Cell) : Memory :=
  cells.foldl (fun m p => if p.1 < size then writeByte m p.1 p.2 else m) []

/-- R340: the state after reset. -/
def launch (p : Launch) : State :=
  { x := p.gprInit.set 0 0#64
    pc := p.pcInit
    mem := initialMemory p.cfg.size p.memInit
    stage := .instructionFetch
    w := Wires.bottom
    instr := none
    ctrl := none
    cop := p.cop
    status := .running
    cfg := p.cfg
    calls := []
    replies := [] }

/-- The common launch premises of 95_test_vectors.md section 0, under which `State.reset` stands (log 3-7). -/
def commonLaunch : Launch :=
  { pcInit := 4#64, gprInit := Vector.replicate 32 0#64, memInit := [], cfg := Config.testMemory, cop := .null }

end Sys2Proof.Machine
end

