-- ==== Sys2Proof/Machine/Trad.lean ====
section
/-! DEFINITION. TradCore, the direct interpreter (48_trad_core.md R300-R307): the effects in closed form, without stages,
wires or hooks. -/

namespace Sys2Proof.Machine

/-- R302: the supported words; no other instruction is. -/
def tradSupported : Instr → Bool
  | .add .. => true
  | .sub .. => true
  | .and .. => false
  | .or .. => false
  | .slt .. => false
  | .sltu .. => false
  | .dadd .. => true
  | .dsub .. => true
  | .mul .. => true
  | .mulu .. => true
  | .div .. => true
  | .divu .. => true
  | .dmul .. => true
  | .dmulu .. => true
  | .ddiv .. => true
  | .ddivu .. => true
  | .ori .. => true
  | .aui .. => false
  | .lw .. => true
  | .sw .. => true
  | .ld .. => false
  | .sd .. => false
  | .dahi .. => false
  | .dati .. => false
  | .cop1 .. => false
  | .j .. => false
  | .jal .. => false

/-- R270: the address of a Word access, computed in 32 bits and sign-extended. -/
def tradWordAddress (s : State) (rs : RegIdx) (imm : BitVec 16) : Dword :=
  sext32 (lo32 (gpr s rs) + imm.signExtend 32)

/-- A Word operation on two registers, sign-extended into rd. -/
def tradWord (f : Word → Word → Word) (rs rt rd : RegIdx) (s : State) : State :=
  setGpr rd (sext32 (f (lo32 (gpr s rs)) (lo32 (gpr s rt)))) s

/-- A DoubleWord operation on two registers, into rd. -/
def tradDouble (f : Dword → Dword → Dword) (rs rt rd : RegIdx) (s : State) : State :=
  setGpr rd (f (gpr s rs) (gpr s rt)) s

/-- R301: the register and memory effect of a supported instruction, as its own rule gives it (R211, R212, R217, R218,
R231-R238, R251, R271, R272); none for the others. -/
def tradEffect (i : Instr) (s : State) : Option State :=
  match i with
  | .add rs rt rd _ => some (tradWord (fun a b => a + b) rs rt rd s)
  | .sub rs rt rd _ => some (tradWord (fun a b => a - b) rs rt rd s)
  | .and .. => none
  | .or .. => none
  | .slt .. => none
  | .sltu .. => none
  | .dadd rs rt rd _ => some (tradDouble (fun a b => a + b) rs rt rd s)
  | .dsub rs rt rd _ => some (tradDouble (fun a b => a - b) rs rt rd s)
  | .mul rs rt rd => some (tradWord (fun a b => lo32 (productSigned a b)) rs rt rd s)
  | .mulu rs rt rd => some (tradWord (fun a b => lo32 (productUnsigned a b)) rs rt rd s)
  | .div rs rt rd => some (tradWord quotientSigned rs rt rd s)
  | .divu rs rt rd => some (tradWord quotientUnsigned rs rt rd s)
  | .dmul rs rt rd => some (tradDouble productSigned rs rt rd s)
  | .dmulu rs rt rd => some (tradDouble productUnsigned rs rt rd s)
  | .ddiv rs rt rd => some (tradDouble quotientSigned rs rt rd s)
  | .ddivu rs rt rd => some (tradDouble quotientUnsigned rs rt rd s)
  | .ori rs rt imm => some (setGpr rt (gpr s rs ||| zext16 imm) s)
  | .aui .. => none
  | .lw rs rt imm => some (setGpr rt (sext32 ((memRead4 s (tradWordAddress s rs imm)).getD 0#32)) s)
  | .sw rs rt imm => some ((memWrite4 (tradWordAddress s rs imm) (lo32 (gpr s rt)) s).getD s)
  | .ld .. => none
  | .sd .. => none
  | .dahi .. => none
  | .dati .. => none
  | .cop1 .. => none
  | .j .. => none
  | .jal .. => none

/-- R300: x[0] is re-cleared after every instruction. -/
def clearX0 (s : State) : State := s.setX (s.x.set 0 0#64)

/-- R300, R304: the diagnostic names opcode and funct of the word. -/
def unsupportedWord (word : Word) : TradResult := .unsupported (Enc.opcode word) (Enc.funct word)

/-- R300, on a given word: the next state and the result for the host. Nothing but the wires and latches changes on an
unsupported word (R304). -/
def tradOnWord (word : Word) (s : State) : State × TradResult :=
  match decode word with
  | .error _ => (clearLatches s, unsupportedWord word)
  | .ok i =>
    match tradEffect i (clearLatches s) with
    | none => (clearLatches s, unsupportedWord word)
    | some t => (advancePc (clearX0 t), .executed)

/-- R300, `trad_step`; the status is Running. Mid-instruction it is Refused and changes nothing (R305). -/
def tradStep (s : State) : State × TradResult :=
  match s.stage with
  | .instructionFetch => tradOnWord (fetchWord s) s
  | _ => (s, .refused)

end Sys2Proof.Machine
end

