-- ==== Sys2Proof/Machine/Driver.lean ====
section
/-! DEFINITION. The host operations (42_stage_sequencer.md R172, R200-R206): each is one atomic transition. -/

namespace Sys2Proof.Machine

/-- R172 from IF: fetch, decode, and the whole instruction. A word that decodes to none goes through the stages, which
raise its Fatal in ID. -/
def freshInstruction (s : State) : Out :=
  match decode (fetchWord s) with
  | .ok i => exec i s
  | .error _ => runStages 5 s

/-- R172, `execute_instruction()`: mid-instruction it finishes the pending one and starts no other. -/
def executeInstruction (s : State) : Out :=
  match s.status with
  | .fatal info => .fault (.fatal info)
  | .running =>
    match s.stage with
    | .instructionFetch => freshInstruction s
    | stage => runStages stage.left s

/-- R203: the value a register name denotes. -/
def registerByName (name : RegName) (s : State) : Dword :=
  match name with
  | .gpr n => gpr s n.index
  | .pc => s.pc

/-- R54, from address `a` on: stop at the first failing store, keeping the words already stored (D29). -/
def storeWords : Nat → List Word → State → State × Bool
  | _, [], s => (s, true)
  | a, word :: rest, s =>
    if memOk s.cfg a 4 then storeWords (a + 4) rest (s.setMem (writeBytes s.mem a (wordBytes word)))
    else (s, false)

/-- R54, `load_instructions(words)`: the program goes to byte address 4 on, not 0 (R48). -/
def loadInstructions (words : List Word) (s : State) : State × Bool := storeWords 4 words s

/-- R200: one host operation, whose status is Running. -/
def hostCall (call : HostCall) (s : State) : Out :=
  match call with
  | .executeStage => executeStage s
  | .executeInstruction => executeInstruction s
  | .executeInstructionSelect .datapath => executeInstruction s
  | .executeInstructionSelect .trad => .next ((tradStep s).1.addReply (.trad (tradStep s).2))
  | .getRegisterByEnum name => .next (s.addReply (.value (registerByName name s)))
  | .getMemory => .next (s.addReply (.memory s.mem))
  | .loadInstructions words => .next ((loadInstructions words s).1.addReply (.loaded (loadInstructions words s).2))

/-- One step of the machine: the next call of the host, or execute_instruction, the default entry, when none is listed
(log 1). After Fatal no operation has a step (R206). -/
def drive (s : State) : Out :=
  match s.status with
  | .fatal info => .fault (.fatal info)
  | .running =>
    match s.calls with
    | [] => executeInstruction s
    | call :: rest => hostCall call (s.setCalls rest)

/-- The word of a table row, placed where the next execute_instruction fetches (log 15): the machine is Running at IF with
no call listed, and the four bytes at pc hold the word, where memory admits them. -/
def placeWord (s : State) (word : Word) : State :=
  (((s.setStage .instructionFetch).setStatus .running).setCalls []).setMem
    (if memOk s.cfg s.pc.toNat 4 then writeBytes s.mem s.pc.toNat (wordBytes word) else s.mem)

end Sys2Proof.Machine
end

