-- ==== Sys2Proof/Machine/Step.lean ====
section
/-! DEFINITION. The step of the machine, and where the next instruction is fetched. -/

namespace Sys2Proof.Machine

/-- One host operation (Driver.lean). -/
def step (s : State) : Host.Outcome State Fault Refusal := drive s

/-- `s` with an instruction of the opcode table's numbering stored where the next step fetches it. -/
def State.withFetchWord (s : State) (nbits w : Nat) : State := placeWord s (BitVec.ofNat 32 (w % 2 ^ nbits))

end Sys2Proof.Machine
end

