-- ==== Sys2Proof/Machine/Ports.lean ====
section
/-! DEFINITION. The decoder and the control generator as hardware ports (30_encoding.md R65; 40_control_signals.md R101,
R102). No step passes through a port: the latches hold the enumerations. A port code the generator never produces is a
fault, never a meaning (R101, R325). -/

namespace Sys2Proof.Machine

/-- R65: the decoder's output. `decKind` is none when `decOk` is 0, since the rule gives it no value there (log 18); the
fields are sliced from the fixed ranges whatever the kind. -/
structure DecoderPort where
  decOk : BitVec 1
  decKind : Option (BitVec 2)
  opcode : BitVec 6
  rs : BitVec 5
  rt : BitVec 5
  rd : BitVec 5
  shamt : BitVec 5
  funct : BitVec 6
  imm : BitVec 16
  target : BitVec 26
  deriving DecidableEq, Repr

/-- R65: 00 RType, 01 IType, 10 JType, 11 FpuRType. -/
def variantKind : Variant → BitVec 2
  | .rType .. => 0b00#2
  | .iType .. => 0b01#2
  | .jType .. => 0b10#2
  | .fpuRType .. => 0b11#2

/-- R65: the decoder as a combinational unit. -/
def decoderPort (word : Word) : DecoderPort :=
  { decOk := match decodeVariant word with | .ok _ => 1#1 | .error _ => 0#1
    decKind := match decodeVariant word with | .ok v => some (variantKind v) | .error _ => none
    opcode := Enc.opcode word, rs := Enc.rs word, rt := Enc.rt word, rd := Enc.rd word, shamt := Enc.shamt word,
    funct := Enc.funct word, imm := Enc.imm word, target := Enc.target word }

/-! ### The bit encodings of R101 -/

def aluOpCode : AluOp → BitVec 3
  | .addition => 0b000#3
  | .subtraction => 0b001#3
  | .and => 0b010#3
  | .or => 0b011#3
  | .leftShift16 => 0b100#3
  | .useFunctField => 0b101#3

def aluControlCode : AluControl → BitVec 4
  | .addition => 0b0000#4
  | .subtraction => 0b0001#4
  | .and => 0b0010#4
  | .or => 0b0011#4
  | .setOnLessThanSigned => 0b0100#4
  | .setOnLessThanUnsigned => 0b0101#4
  | .leftShift16 => 0b0110#4
  | .multiplicationSigned => 0b0111#4
  | .multiplicationUnsigned => 0b1000#4
  | .divisionSigned => 0b1001#4
  | .divisionUnsigned => 0b1010#4

def aluSrcCode : AluSrc → BitVec 2
  | .readRegister2 => 0b00#2
  | .signExtendedImmediate => 0b01#2
  | .zeroExtendedImmediate => 0b10#2

def immShiftCode : ImmShift → BitVec 2
  | .shift0 => 0b00#2
  | .shift16 => 0b01#2
  | .shift32 => 0b10#2
  | .shift48 => 0b11#2

def memWriteSrcCode : MemWriteSrc → BitVec 1
  | .primaryUnit => 0#1
  | .floatingPointUnit => 1#1

def memToRegCode : MemToReg → BitVec 1
  | .useAlu => 0#1
  | .useMemory => 1#1

def regDstCode : RegDst → BitVec 2
  | .rs => 0b00#2
  | .rt => 0b01#2
  | .rd => 0b10#2

def regWidthCode : RegWidth → BitVec 1
  | .word => 0#1
  | .doubleWord => 1#1

/-- The 21 bits of the bundle, field by field (R101). -/
structure CtrlPort where
  aluOp : BitVec 3
  aluControl : BitVec 4
  aluSrc : BitVec 2
  immShift : BitVec 2
  branch : BitVec 1
  jump : BitVec 1
  memRead : BitVec 1
  memWrite : BitVec 1
  memWriteSrc : BitVec 1
  memToReg : BitVec 1
  regDst : BitVec 2
  regWidth : BitVec 1
  regWrite : BitVec 1
  deriving DecidableEq, Repr

/-- A complete bundle on the port; none while the ALU control is ⊥ (R101). -/
def ctrlToPort (c : Ctrl) : Option CtrlPort :=
  c.aluControl.map fun a =>
    { aluOp := aluOpCode c.aluOp, aluControl := aluControlCode a, aluSrc := aluSrcCode c.aluSrc,
      immShift := immShiftCode c.immShift, branch := BitVec.ofBool c.branch, jump := BitVec.ofBool c.jump,
      memRead := BitVec.ofBool c.memRead, memWrite := BitVec.ofBool c.memWrite,
      memWriteSrc := memWriteSrcCode c.memWriteSrc, memToReg := memToRegCode c.memToReg, regDst := regDstCode c.regDst,
      regWidth := regWidthCode c.regWidth, regWrite := BitVec.ofBool c.regWrite }

/-- The value of a list whose code is given; a code of none is a fault (R101). -/
def fromCode {α : Type} {n : Nat} (port : Port) (code : α → BitVec n) (values : List α) (bits : BitVec n) :
    Except Fault α :=
  match values.find? (fun a => code a == bits) with
  | some a => .ok a
  | none => .error (.undefinedCode port)

def aluOps : List AluOp := [.addition, .subtraction, .and, .or, .leftShift16, .useFunctField]

def aluControls : List AluControl :=
  [.addition, .subtraction, .and, .or, .setOnLessThanSigned, .setOnLessThanUnsigned, .leftShift16, .multiplicationSigned,
   .multiplicationUnsigned, .divisionSigned, .divisionUnsigned]

def aluSrcs : List AluSrc := [.readRegister2, .signExtendedImmediate, .zeroExtendedImmediate]

def regDsts : List RegDst := [.rs, .rt, .rd]

def immShiftOf (b : BitVec 2) : ImmShift :=
  if b = 0b00#2 then .shift0 else if b = 0b01#2 then .shift16 else if b = 0b10#2 then .shift32 else .shift48

/-- Read a bundle off the port: a code the generator never produces is a fault (R101). -/
def ctrlFromPort (p : CtrlPort) : Except Fault Ctrl :=
  match fromCode .aluOp aluOpCode aluOps p.aluOp, fromCode .aluControl aluControlCode aluControls p.aluControl,
    fromCode .aluSrc aluSrcCode aluSrcs p.aluSrc, fromCode .regDst regDstCode regDsts p.regDst with
  | .ok op, .ok a, .ok src, .ok dst =>
    .ok { aluOp := op, aluControl := some a, aluSrc := src, immShift := immShiftOf p.immShift,
          branch := p.branch == 1#1, jump := p.jump == 1#1, memRead := p.memRead == 1#1, memWrite := p.memWrite == 1#1,
          memWriteSrc := if p.memWriteSrc = 0#1 then .primaryUnit else .floatingPointUnit,
          memToReg := if p.memToReg = 0#1 then .useAlu else .useMemory, regDst := dst,
          regWidth := if p.regWidth = 0#1 then .word else .doubleWord, regWrite := p.regWrite == 1#1 }
  | .error f, _, _, _ => .error f
  | _, .error f, _, _ => .error f
  | _, _, .error f, _ => .error f
  | _, _, _, .error f => .error f

/-- R102: the generator's inputs, as a variant. The fields it has no input for do not reach the bundle. -/
def portVariant (kind : BitVec 2) (opcode : BitVec 6) (rt shamt : RegIdx) (funct : BitVec 6) : Variant :=
  if kind = 0b00#2 then .rType opcode 0 rt 0 shamt funct
  else if kind = 0b01#2 then .iType opcode 0 rt 0
  else if kind = 0b10#2 then .jType opcode 0
  else .fpuRType opcode 0 rt 0 shamt funct

/-- R102: the diagnostic the generator outputs on failure: the four inputs of the lookup that failed. -/
structure GeneratorDiagnostic where
  opcode : BitVec 6
  funct : BitVec 6
  shamt : BitVec 5
  rt : BitVec 5
  deriving DecidableEq, Repr

/-- R102: the generator's outputs. `bundle` is none when `ctrlOk` is 0 and `diagnostic` none when it is 1, since the rule
gives neither a value there (log 18). -/
structure GeneratorPort where
  ctrlOk : BitVec 1
  bundle : Option CtrlPort
  diagnostic : Option GeneratorDiagnostic
  deriving DecidableEq, Repr

/-- R102: the generator as a combinational unit. -/
def generatorPort (kind : BitVec 2) (opcode : BitVec 6) (rt shamt : RegIdx) (funct : BitVec 6) : GeneratorPort :=
  match control (portVariant kind opcode rt shamt funct) with
  | .ok c => { ctrlOk := 1#1, bundle := ctrlToPort c, diagnostic := none }
  | .error _ =>
    { ctrlOk := 0#1, bundle := none, diagnostic := some { opcode := opcode, funct := funct, shamt := shamt, rt := rt } }

/-- R321: the Fatal's diagnostic names these fields of the generator's, each with the value it has there. -/
def diagnosticShows (d : GeneratorDiagnostic) (info : FatalInfo) : Bool :=
  d.opcode == info.opcode &&
  match info with
  | .decodeFailure _ => true
  | .controlFunct funct => d.funct == funct
  | .controlShamt funct shamt => d.funct == funct && d.shamt == shamt
  | .controlRegimm rt => d.rt == rt
  | .controlJType _ => true

end Sys2Proof.Machine
end

