-- ==== Sys2Proof/Safety.lean ====
section
/-! DEFINITION. What statements call a sound state and a safe step: the invariant of the machine, the frames of an
instruction, and the reachable states. -/

namespace Sys2Proof.Machine

/-- R27, R28, R176: what ID has latched for the instruction in flight. The word, the variant, the complete bundle, the
field wires, and the register reads at the bundle's width; no register changes between ID and WB. -/
def decodedOk (s : State) : Bool :=
  match s.w.instruction, s.instr, s.ctrl with
  | some word, some v, some c =>
    decide (decodeVariant word = .ok v) && decide (control v = .ok c) &&
    decide (s.w.rs = some (Enc.rs word)) && decide (s.w.rt = some (Enc.rt word)) && decide (s.w.rd = some (Enc.rd word)) &&
    decide (s.w.imm = some (Enc.imm word)) && decide (s.w.signExtend = some (sext16 (Enc.imm word))) &&
    decide (s.w.readData1 = some (readReg c.regWidth s (Enc.rs word))) &&
    decide (s.w.readData2 = some (readReg c.regWidth s (Enc.rt word)))
  | _, _, _ => false

/-- R27: in each stage, the instruction in flight has completed the stages before it, so the wires they write hold
values. -/
def inFlightOk (s : State) : Bool :=
  match s.stage with
  | .instructionFetch => true
  | .instructionDecode => s.w.instruction.isSome
  | .execute => decodedOk s
  | .memory => decodedOk s && s.w.aluResult.isSome
  | .writeBack => decodedOk s && s.w.aluResult.isSome && s.w.dataResult.isSome

/-- The invariant of the machine: memory is canonical and lies in [0, MEM_SIZE), the stored x[0] is 0, and the wires and
latches fit the stage. -/
abbrev Inv (s : State) : Prop :=
  Memory.wf s.mem ∧ Memory.within s.cfg.size s.mem ∧ s.x[0] = 0#64 ∧ inFlightOk s = true

/-- A safe step answers a next state in which the block still runs: no stop, and no Fatal (R320). -/
def SafeStep (s : State) : Prop := ∃ t, step s = .next t ∧ t.status = .running

/-- What every instruction leaves alone: the session's parameters, the host's pending calls and the replies. -/
abbrev SameSession (s t : State) : Prop := t.cfg = s.cfg ∧ t.calls = s.calls ∧ t.replies = s.replies

/-- Every general register but `dst` reads as before, and `dst` reads `v`, unless it is x[0] (R22). -/
abbrev WritesGpr (s t : State) (dst : RegIdx) (v : Dword) : Prop :=
  ∀ r : RegIdx, gpr t r = if r = dst ∧ r ≠ 0#5 then v else gpr s r

abbrev SameGprs (s t : State) : Prop := ∀ r : RegIdx, gpr t r = gpr s r

/-- Every byte of memory reads as before. -/
abbrev SameMemory (s t : State) : Prop := ∀ a : Nat, readByte t.mem a = readByte s.mem a

/-- Every byte outside [ea, ea + n) reads as before. -/
abbrev SameOutside (s t : State) (ea n : Nat) : Prop :=
  ∀ a : Nat, a < ea ∨ ea + n ≤ a → readByte t.mem a = readByte s.mem a

/-- How an instruction that completes leaves the sequencer (R172, R180): at IF, Running as before, pc advanced by 4. -/
abbrev Completes (s t : State) : Prop :=
  t.stage = .instructionFetch ∧ t.status = s.status ∧ t.pc = s.pc + 4#64 ∧ SameSession s t

/-- An instruction that writes one register and nothing else completes, with `v` in `dst`. -/
def Retires (i : Instr) (s : State) (dst : RegIdx) (v : Dword) : Prop :=
  ∃ t, exec i s = .next t ∧ Completes s t ∧ WritesGpr s t dst v ∧ SameMemory s t ∧ t.cop = s.cop

/-! ### What the spec says of words, by class; the values are those of the one table (R74) -/

/-- R76, R321: the diagnostic of an illegal word, by class; none for a word of the admitted subset (R70). -/
def illegalInfo (word : Word) : Option FatalInfo :=
  let op := Enc.opcode word
  let funct := Enc.funct word
  if op = Enc.opSpecial then
    if funct ∈ Enc.plainFuncts then none
    else if funct ∈ Enc.sopFuncts then
      if Enc.shamt word = Enc.sopShamt then none else some (.controlShamt funct (Enc.shamt word))
    else some (.controlFunct funct)
  else if op = Enc.opRegimm then
    if Enc.rt word = Enc.rtDahi ∨ Enc.rt word = Enc.rtDati then none else some (.controlRegimm (Enc.rt word))
  else if op = Enc.opJ ∨ op = Enc.opJal then some (.controlJType op)
  else if op ∈ Enc.plainOpcodes then none
  else some (.decodeFailure op)

/-- R302: the words TradCore supports. -/
def tradSupportedWord (word : Word) : Prop :=
  (Enc.opcode word = Enc.opSpecial ∧ Enc.funct word ∈ [Enc.fnAdd, Enc.fnSub, Enc.fnDadd, Enc.fnDsub]) ∨
  (Enc.opcode word = Enc.opSpecial ∧ Enc.funct word ∈ Enc.sopFuncts ∧ Enc.shamt word = Enc.sopShamt) ∨
  Enc.opcode word ∈ [Enc.opOri, Enc.opLw, Enc.opSw]

/-- The encoding line of an R-type rule: the word's fields at the ranges of R61, and its decoding. -/
abbrev EncodesR (i : Instr) (op : BitVec 6) (rs rt rd shamt : RegIdx) (funct : BitVec 6) : Prop :=
  encode i = (op ++ rs ++ rt ++ rd ++ shamt ++ funct).cast rfl ∧ decode (encode i) = .ok i

/-- The encoding line of an I-type rule. -/
abbrev EncodesI (i : Instr) (op : BitVec 6) (rs rt : RegIdx) (imm : BitVec 16) : Prop :=
  encode i = (op ++ rs ++ rt ++ imm).cast rfl ∧ decode (encode i) = .ok i

/-- The signals an instruction's rule names: the register width and the ALU control of its one bundle (R122). -/
abbrev Signals (i : Instr) (width : RegWidth) (a : AluControl) : Prop :=
  ∃ c, control i.variant = .ok c ∧ c.regWidth = width ∧ c.aluControl = some a

/-- The operands line of an R-type rule: `op rd, rs, rt` (R78). -/
abbrev WrittenRrr (op : RrrOp) (make : RegIdx → RegIdx → RegIdx → Instr) : Prop :=
  ∀ rd rs rt : AsmReg, (Asm.rrr op rd rs rt).instr = make rs.index rt.index rd.index

/-- J and JAL, which decode and are never executed (R290). -/
def isJump (i : Instr) : Prop := ∃ op target, i.variant = .jType op target

/-- R66: the register an instruction writes, through the field RegDst names. -/
def destination : Instr → Option RegIdx
  | .add _ _ rd _ => some rd
  | .sub _ _ rd _ => some rd
  | .and _ _ rd _ => some rd
  | .or _ _ rd _ => some rd
  | .slt _ _ rd _ => some rd
  | .sltu _ _ rd _ => some rd
  | .dadd _ _ rd _ => some rd
  | .dsub _ _ rd _ => some rd
  | .mul _ _ rd => some rd
  | .mulu _ _ rd => some rd
  | .div _ _ rd => some rd
  | .divu _ _ rd => some rd
  | .dmul _ _ rd => some rd
  | .dmulu _ _ rd => some rd
  | .ddiv _ _ rd => some rd
  | .ddivu _ _ rd => some rd
  | .ori _ rt _ => some rt
  | .aui _ rt _ => some rt
  | .lw _ rt _ => some rt
  | .sw _ _ _ => none
  | .ld _ rt _ => some rt
  | .sd _ _ _ => none
  | .dahi rs _ => some rs
  | .dati rs _ => some rs
  | .cop1 .. => none
  | .j _ => none
  | .jal _ => none

/-- R270: the effective address of a Word access, computed in 32 bits and sign-extended. -/
def wordAddress (s : State) (rs : RegIdx) (imm : BitVec 16) : Dword := sext32 (lo32 (gpr s rs) + lo32 (sext16 imm))

/-- R270: the effective address of a DoubleWord access. -/
def doubleAddress (s : State) (rs : RegIdx) (imm : BitVec 16) : Dword := gpr s rs + sext16 imm

/-- R45, R270: the address and the number of bytes an instruction stores to; only SW and SD store. -/
def storeTarget (i : Instr) (s : State) : Option (Dword × Nat) :=
  match i with
  | .add .. => none
  | .sub .. => none
  | .and .. => none
  | .or .. => none
  | .slt .. => none
  | .sltu .. => none
  | .dadd .. => none
  | .dsub .. => none
  | .mul .. => none
  | .mulu .. => none
  | .div .. => none
  | .divu .. => none
  | .dmul .. => none
  | .dmulu .. => none
  | .ddiv .. => none
  | .ddivu .. => none
  | .ori .. => none
  | .aui .. => none
  | .lw .. => none
  | .sw rs _ imm => some (wordAddress s rs imm, 4)
  | .ld .. => none
  | .sd rs _ imm => some (doubleAddress s rs imm, 8)
  | .dahi .. => none
  | .dati .. => none
  | .cop1 .. => none
  | .j .. => none
  | .jal .. => none

/-- The stored bytes of an instruction are the only ones it may change. -/
def KeepsMemory (i : Instr) (s t : State) : Prop :=
  match storeTarget i s with
  | none => SameMemory s t
  | some (ea, n) => SameOutside s t ea.toNat n

/-- What a TradCore step leaves when it refuses a word as unsupported (R304): the diagnostic for the host, and no change
but the wires and latches, which R300 clears first. -/
abbrev TradUnsupported (s : State) (word : Word) : Prop :=
  ∃ t, tradStep s = (t, .unsupported (word.extractLsb' 26 6) (word.extractLsb' 0 6)) ∧ t.x = s.x ∧ t.pc = s.pc ∧
    t.mem = s.mem ∧ t.stage = s.stage ∧ t.cop = s.cop ∧ t.status = s.status ∧ SameSession s t

/-- The states a run can reach from a launch, whatever calls the host lists between steps (R205). -/
inductive Reachable (p : Launch) : State → Prop where
  | start : Reachable p (launch p)
  | asks (s : State) (cs : List HostCall) : Reachable p s → Reachable p (s.setCalls cs)
  | steps (s t : State) : Reachable p s → step s = .next t → Reachable p t

end Sys2Proof.Machine
end

