-- ==== Sys2Proof/WellFormed.lean ====
section
/-! DEFINITION. What is well formed. A variant must carry an opcode of its own format (30_encoding.md R62, R63). An
instruction is well formed when its variant is; its fields have the exact widths of the format, so every instruction is
(Laws/PerInstr.lean). An assembler form must name real registers and immediates in the ranges of R78. -/

namespace Sys2Proof

open Enc

/-- R62: the tag is determined by the opcode; RType requires opcode 0, and the others the opcodes of R63. -/
def Variant.wf : Variant → Bool
  | .rType op .. => op == opSpecial
  | .iType op .. => isITypeOpcode op
  | .jType op _ => op == opJ || op == opJal
  | .fpuRType op .. => op == opCop1

def Instr.wf (i : Instr) : Bool := i.variant.wf

/-- R23, R78: a register is one of the 32. -/
def AsmReg.wf : AsmReg → Bool
  | .named _ => true
  | .numbered n => n < 32

/-- R78: ORI takes 0..65535. -/
def wfUnsigned16 (imm : Int) : Bool := 0 ≤ imm && imm ≤ 65535

/-- R78: a 16-bit immediate in its signed or its unsigned spelling. R78 states this for AUI; the model reads LUI, DAHI and
DATI in the same way (log 20). -/
def wfEither16 (imm : Int) : Bool := -32768 ≤ imm && imm ≤ 65535

/-- R78: an offset is -32768..32767. -/
def wfSigned16 (imm : Int) : Bool := -32768 ≤ imm && imm ≤ 32767

def Asm.wf : Asm → Bool
  | .rrr _ rd rs rt => rd.wf && rs.wf && rt.wf
  | .ori rt rs imm => rt.wf && rs.wf && wfUnsigned16 imm
  | .aui rt rs imm => rt.wf && rs.wf && wfEither16 imm
  | .lui rt imm => rt.wf && wfEither16 imm
  | .dahi rs imm => rs.wf && wfEither16 imm
  | .dati rs imm => rs.wf && wfEither16 imm
  | .mem _ rt offset base => rt.wf && wfSigned16 offset && base.wf

end Sys2Proof
end

