-- ==== Sys2Proof/Certificates/Slice0/Obligations.lean ====
section
/-! DEFINITION. The statements for the provers. Each docstring names the rule of spec/ it formalises. -/

open Sys2Proof Sys2Proof.Machine

/-! ### Encoding and decoding -/

/-- R61-R63, R70: decoding an encoded well-formed instruction gives it back, from the word and from its bytes in
memory. The numerals are those of log 9, the byte order that of log 8. -/
def Obligations.DecodeOfEncode : Prop :=
  ∀ i : Instr, i.wf = true →
    decode (encode i) = .ok i ∧ decodeBytes (wordBytes (encode i)) = some (.ok i)

/-- R61-R63: a word that decodes to an instruction is that instruction's one encoding, so no bit of it is dropped. -/
def Obligations.EncodeOfDecode : Prop :=
  ∀ (word : Word) (i : Instr), decode word = .ok i → encode i = word

/-- R70-R73: the opcode rows do not overlap, and a word decodes to an instruction exactly when it lies in that
instruction's row. The numerals are those of log 9. -/
def Obligations.RowsPartitionTheWords : Prop :=
  ∀ word : Word,
    (∀ p ∈ rows, ∀ q ∈ rows, word &&& p.mask = p.pattern → word &&& q.mask = q.pattern → p = q) ∧
    (∀ i, decode word = .ok i → ∃ p ∈ rows, p.mnemonic = i.mnemonic ∧ word &&& p.mask = p.pattern) ∧
    (∀ p ∈ rows, word &&& p.mask = p.pattern → ∃ i, decode word = .ok i ∧ i.mnemonic = p.mnemonic)

/-- One word of each family, written out from the encodings the spec lists (log 9), decodes to its instruction. -/
def Obligations.SampleWordsDecode : Prop :=
  decode 0x01294820#32 = .ok (.add 9 9 9 0) ∧ decode 0x00C5389E#32 = .ok (.ddiv 6 5 7) ∧
  decode 0x34103039#32 = .ok (.ori 0 16 12345) ∧ decode 0x05065679#32 = .ok (.dahi 8 0x5679) ∧
  decode 0xAD090004#32 = .ok (.sw 8 9 4) ∧ decode 0x46020800#32 = .ok (.cop1 16 2 1 0 0) ∧
  decode 0x08000001#32 = .ok (.j 1) ∧ decode 0x00000000#32 = .error (.controlFunct 0)

/-- R78, R79: what the immediate of an assembler form denotes survives its encoding in 16 bits, whichever spelling is
used, and `lui rt, imm` is `aui rt, $zero, imm` (log 20). -/
def Obligations.AssemblerImmediates : Prop :=
  (∀ rt rs imm, (Asm.ori rt rs imm).wf = true → ∃ f, (Asm.ori rt rs imm).instr = .ori rs.index rt.index f ∧
    zext16 f = BitVec.ofInt 64 imm) ∧
  (∀ rt rs imm, (Asm.aui rt rs imm).wf = true → ∃ f, (Asm.aui rt rs imm).instr = .aui rs.index rt.index f ∧
    (sext16 f = BitVec.ofInt 64 imm ∨ zext16 f = BitVec.ofInt 64 imm)) ∧
  (∀ op rt offset base, (Asm.mem op rt offset base).wf = true →
    ∃ f, (Asm.mem op rt offset base).instr = op.instr rt.index base.index f ∧ sext16 f = BitVec.ofInt 64 offset) ∧
  (∀ rt imm, (Asm.lui rt imm).instr = (Asm.aui rt (.named .zero) imm).instr)

/-! ### The control generator -/

/-- R104, R111, R120, R121: the bundle of each template, all thirteen fields; for the R-type words, the width and the
ALU control of each listed funct, the SOP ones with shamt 0b00010 (the numerals are those of log 9). -/
def Obligations.BundleOfEachTemplate : Prop :=
  (∀ op rs rt rd shamt fn c, Machine.control (.rType op rs rt rd shamt fn) = .ok c → ∃ a width,
    widthPolicy fn = .ok width ∧ functControl fn shamt = .ok a ∧ c =
    { aluOp := .useFunctField, aluControl := some a, aluSrc := .readRegister2, immShift := .shift0, branch := false,
      jump := false, memRead := false, memWrite := false, memWriteSrc := .primaryUnit, memToReg := .useAlu, regDst := .rd,
      regWidth := width, regWrite := true }) ∧
  (∀ fn width a, (fn, width, a) ∈
      [(0x20#6, RegWidth.word, AluControl.addition), (0x22#6, .word, .subtraction), (0x24#6, .doubleWord, .and),
       (0x25#6, .doubleWord, .or), (0x2A#6, .doubleWord, .setOnLessThanSigned),
       (0x2B#6, .doubleWord, .setOnLessThanUnsigned), (0x2C#6, .doubleWord, .addition),
       (0x2E#6, .doubleWord, .subtraction)] →
    widthPolicy fn = .ok width ∧ ∀ shamt, functControl fn shamt = .ok a) ∧
  (∀ fn width a, (fn, width, a) ∈
      [(0x18#6, RegWidth.word, AluControl.multiplicationSigned), (0x19#6, .word, .multiplicationUnsigned),
       (0x1A#6, .word, .divisionSigned), (0x1B#6, .word, .divisionUnsigned),
       (0x1C#6, .doubleWord, .multiplicationSigned), (0x1D#6, .doubleWord, .multiplicationUnsigned),
       (0x1E#6, .doubleWord, .divisionSigned), (0x1F#6, .doubleWord, .divisionUnsigned)] →
    widthPolicy fn = .ok width ∧ ∀ shamt, functControl fn shamt =
      if shamt = 0b00010#5 then .ok a else .error (.controlShamt fn shamt)) ∧
  (∀ rs rt imm, Machine.control (Instr.variant (.ori rs rt imm)) = .ok
    { aluOp := .or, aluControl := some .or, aluSrc := .zeroExtendedImmediate, immShift := .shift0, branch := false,
      jump := false, memRead := false, memWrite := false, memWriteSrc := .primaryUnit, memToReg := .useAlu, regDst := .rt,
      regWidth := .doubleWord, regWrite := true }) ∧
  (∀ rs rt imm, Machine.control (Instr.variant (.aui rs rt imm)) = .ok
    { aluOp := .addition, aluControl := some .addition, aluSrc := .signExtendedImmediate, immShift := .shift16,
      branch := false, jump := false, memRead := false, memWrite := false, memWriteSrc := .primaryUnit,
      memToReg := .useAlu, regDst := .rt, regWidth := .word, regWrite := true }) ∧
  (∀ rs imm, Machine.control (Instr.variant (.dahi rs imm)) = .ok
    { aluOp := .addition, aluControl := some .addition, aluSrc := .signExtendedImmediate, immShift := .shift32,
      branch := false, jump := false, memRead := false, memWrite := false, memWriteSrc := .primaryUnit,
      memToReg := .useAlu, regDst := .rs, regWidth := .doubleWord, regWrite := true }) ∧
  (∀ rs imm, Machine.control (Instr.variant (.dati rs imm)) = .ok
    { aluOp := .addition, aluControl := some .addition, aluSrc := .signExtendedImmediate, immShift := .shift48,
      branch := false, jump := false, memRead := false, memWrite := false, memWriteSrc := .primaryUnit,
      memToReg := .useAlu, regDst := .rs, regWidth := .doubleWord, regWrite := true }) ∧
  (∀ rs rt imm width i, (i, width) = (Instr.lw rs rt imm, RegWidth.word) ∨ (i, width) = (.ld rs rt imm, .doubleWord) →
    Machine.control (Instr.variant i) = .ok
    { aluOp := .addition, aluControl := some .addition, aluSrc := .signExtendedImmediate, immShift := .shift0,
      branch := false, jump := false, memRead := true, memWrite := false, memWriteSrc := .primaryUnit,
      memToReg := .useMemory, regDst := .rt, regWidth := width, regWrite := true }) ∧
  (∀ rs rt imm width i, (i, width) = (Instr.sw rs rt imm, RegWidth.word) ∨ (i, width) = (.sd rs rt imm, .doubleWord) →
    Machine.control (Instr.variant i) = .ok
    { aluOp := .addition, aluControl := some .addition, aluSrc := .signExtendedImmediate, immShift := .shift0,
      branch := false, jump := false, memRead := false, memWrite := true, memWriteSrc := .primaryUnit,
      memToReg := .useAlu, regDst := .rt, regWidth := width, regWrite := false }) ∧
  (∀ fmt ft fs fd fn, Machine.control (Instr.variant (.cop1 fmt ft fs fd fn)) = .ok
    { aluOp := .addition, aluControl := some .addition, aluSrc := .readRegister2, immShift := .shift0, branch := false,
      jump := false, memRead := false, memWrite := false, memWriteSrc := .primaryUnit, memToReg := .useAlu, regDst := .rt,
      regWidth := .doubleWord, regWrite := false })

/-- R122: the generator is the primary lookup with the ALU control derived from it. It returns a bundle for each
admitted word, and raises for every other decodable word. -/
def Obligations.GeneratorAdmitsExactlyTheSubset : Prop :=
  (∀ v c, Machine.control v = .ok c ↔
    ∃ template a, ctrlPrimary v = .ok template ∧ aluControlOf template v = .ok a ∧
      c = { template with aluControl := some a }) ∧
  ∀ (word : Word) (v : Variant), decodeVariant word = .ok v →
    (illegalInfo word = none → ∃ c, Machine.control v = .ok c ∧ c.aluControl.isSome = true) ∧
    (∀ info, illegalInfo word = some info → Machine.control v = .error info)

/-- R110, D27: branch and jump are 0 in every bundle, and neither has a meaning: with any values of the two in the
latch, every stage does the same work. -/
def Obligations.BranchAndJumpHaveNoMeaning : Prop :=
  (∀ v c, Machine.control v = .ok c → c.branch = false ∧ c.jump = false) ∧
  (∀ (s : State) (c : Ctrl) (b j : Bool), s.status = .running → s.ctrl = some c →
    (s.stage = .execute ∨ s.stage = .memory ∨ s.stage = .writeBack) →
    executeStage (s.setCtrl (some { c with branch := b, jump := j })) =
      andThen (executeStage s) fun t => .next (t.setCtrl (some { c with branch := b, jump := j })))

/-! ### The ALU -/

/-- R142-R149: the ALU's addition, subtraction, bitwise and shift operations, as arithmetic on the unsigned readings of
the truncated operands; a Word result is the sign extension of its low 32 bits. -/
def Obligations.AluArithmetic : Prop :=
  ∀ a b : Dword,
    (alu .addition .doubleWord a b).toNat = (a.toNat + b.toNat) % 2 ^ 64 ∧
    (alu .subtraction .doubleWord a b).toNat = (2 ^ 64 + a.toNat - b.toNat) % 2 ^ 64 ∧
    (alu .leftShift16 .doubleWord a b).toNat = (b.toNat * 2 ^ 16) % 2 ^ 64 ∧
    alu .addition .word a b = sext32 (BitVec.ofNat 32 (a.toNat % 2 ^ 32 + b.toNat % 2 ^ 32)) ∧
    alu .subtraction .word a b = sext32 (BitVec.ofNat 32 (2 ^ 32 + a.toNat % 2 ^ 32 - b.toNat % 2 ^ 32)) ∧
    alu .leftShift16 .word a b = sext32 (BitVec.ofNat 32 (b.toNat % 2 ^ 32 * 2 ^ 16)) ∧
    alu .and .doubleWord a b = a &&& b ∧ alu .or .doubleWord a b = a ||| b ∧
    alu .and .word a b = sext32 (lo32 a &&& lo32 b) ∧ alu .or .word a b = sext32 (lo32 a ||| lo32 b)

/-- R146: set-less-than yields 0 or 1 at both widths. -/
def Obligations.SetLessThan : Prop :=
  ∀ a b : Dword,
    alu .setOnLessThanSigned .doubleWord a b = (if a.toInt < b.toInt then 1#64 else 0#64) ∧
    alu .setOnLessThanUnsigned .doubleWord a b = (if a.toNat < b.toNat then 1#64 else 0#64) ∧
    alu .setOnLessThanSigned .word a b = (if (lo32 a).toInt < (lo32 b).toInt then 1#64 else 0#64) ∧
    alu .setOnLessThanUnsigned .word a b = (if (lo32 a).toNat < (lo32 b).toNat then 1#64 else 0#64)

/-- R150, R151: a product is the low bits of the exact one, and signedness does not change them. -/
def Obligations.MultiplicationIgnoresSignedness : Prop :=
  ∀ a b : Dword,
    alu .multiplicationSigned .doubleWord a b = BitVec.ofInt 64 (a.toInt * b.toInt) ∧
    alu .multiplicationUnsigned .doubleWord a b = BitVec.ofNat 64 (a.toNat * b.toNat) ∧
    alu .multiplicationSigned .word a b = sext32 (BitVec.ofInt 32 ((lo32 a).toInt * (lo32 b).toInt)) ∧
    alu .multiplicationUnsigned .word a b = sext32 (BitVec.ofNat 32 ((lo32 a).toNat * (lo32 b).toNat)) ∧
    (∀ width, alu .multiplicationSigned width a b = alu .multiplicationUnsigned width a b)

/-- R152: division by a truncated divisor of 0 gives 0; the signed quotient is rounded toward zero, and the one overflow
wraps (D17, the spec's decision); the unsigned quotient is rounded down. -/
def Obligations.DivisionTruncates : Prop :=
  ∀ a b : Dword,
    (alu .divisionSigned .doubleWord a b).toInt =
      (if b = 0#64 then 0 else if a.toInt = -2 ^ 63 ∧ b.toInt = -1 then -2 ^ 63 else Int.tdiv a.toInt b.toInt) ∧
    (alu .divisionUnsigned .doubleWord a b).toNat = (if b = 0#64 then 0 else a.toNat / b.toNat) ∧
    (alu .divisionSigned .word a b).toInt =
      (if lo32 b = 0#32 then 0 else if (lo32 a).toInt = -2 ^ 31 ∧ (lo32 b).toInt = -1 then -2 ^ 31
        else Int.tdiv (lo32 a).toInt (lo32 b).toInt) ∧
    (∃ q : Word, alu .divisionUnsigned .word a b = sext32 q ∧
      q.toNat = if lo32 b = 0#32 then 0 else (lo32 a).toNat / (lo32 b).toNat)

/-- R142, R143, R182: a Word operation reads the low 32 bits of its operands alone and returns a sign extension, so the
conversion at WB changes no Word ALU result; for LW, whose memory data is the zero-extended word, it is the one sign
extension. -/
def Obligations.WordOperations : Prop :=
  (∀ (ctl : AluControl) (a b a' b' : Dword), lo32 a = lo32 a' → lo32 b = lo32 b' →
    alu ctl .word a b = alu ctl .word a' b' ∧ alu ctl .word a b = sext32 (lo32 (alu ctl .word a b)) ∧
    narrow .word (alu ctl .word a b) = alu ctl .word a b) ∧
  (∀ (s : State) (ea : Dword), memOk s.cfg ea.toNat 4 = true →
    loadValue .word ea s = zext32 (readWord s.mem ea.toNat) ∧
    narrow .word (loadValue .word ea s) = sext32 (readWord s.mem ea.toNat))

/-! ### The stages -/

/-- R174: IF makes every wire and latch ⊥, latches the word at pc (0 if the fetch fails), notifies the coprocessor, and
writes no register, pc or memory. -/
def Obligations.InstructionFetch : Prop :=
  ∀ s : State, s.status = .running → s.stage = .instructionFetch →
    ∃ t, executeStage s = .next t ∧
      t.w = { Wires.bottom with
        instruction := some (if memOk s.cfg s.pc.toNat 4 = true then readWord s.mem s.pc.toNat else 0#32) } ∧
      t.instr = none ∧ t.ctrl = none ∧ t.cop = s.cop.see (.fetch (fetchWord s)) ∧
      t.stage = .instructionDecode ∧ t.status = .running ∧ t.x = s.x ∧ t.pc = s.pc ∧ t.mem = s.mem ∧ SameSession s t

/-- R176, R320-R323: in ID, an admitted word latches its variant, the sliced fields, the sign-extended immediate, the
bundle and the two register reads at the bundle's width, and hands the second read to the coprocessor. An illegal word
raises its Fatal, a next state (log 2), and the stage stays. Either way no register, pc or memory changes. -/
def Obligations.InstructionDecode : Prop :=
  ∀ (s : State) (word : Word), s.status = .running → s.stage = .instructionDecode → s.w.instruction = some word →
    ∃ t, executeStage s = .next t ∧ t.x = s.x ∧ t.pc = s.pc ∧ t.mem = s.mem ∧ SameSession s t ∧
      match illegalInfo word with
      | some info => t.status = .fatal info ∧ t.stage = .instructionDecode ∧ t.cop = s.cop
      | none =>
        ∃ v c, decodeVariant word = .ok v ∧ Machine.control v = .ok c ∧ t.status = .running ∧ t.stage = .execute ∧
          t.instr = some v ∧ t.ctrl = some c ∧
          t.cop = s.cop.see (.decode (readReg c.regWidth s (word.extractLsb' 16 5))) ∧
          t.w = { s.w with
            rs := some (word.extractLsb' 21 5), rt := some (word.extractLsb' 16 5), rd := some (word.extractLsb' 11 5)
            shamt := some (word.extractLsb' 6 5), funct := some (word.extractLsb' 0 6)
            imm := some (word.extractLsb' 0 16), signExtend := some (sext16 (word.extractLsb' 0 16))
            readData1 := some (readReg c.regWidth s (word.extractLsb' 21 5))
            readData2 := some (readReg c.regWidth s (word.extractLsb' 16 5)) }

/-- R177: EX latches the ALU's result of the first register read and operand 2, and writes no register, pc or memory. -/
def Obligations.Execute : Prop :=
  ∀ (s : State) (c : Ctrl) (a : AluControl) (v1 v2 : Dword), s.status = .running → s.stage = .execute →
    s.ctrl = some c → c.aluControl = some a → s.w.readData1 = some v1 → op2 c s.w = some v2 →
    ∃ t, executeStage s = .next t ∧ t.w = { s.w with aluResult := some (alu a c.regWidth v1 v2) } ∧
      t.cop = s.cop.see .execute ∧ t.stage = .memory ∧ t.status = .running ∧ t.x = s.x ∧ t.pc = s.pc ∧ t.mem = s.mem ∧
      t.instr = s.instr ∧ t.ctrl = s.ctrl ∧ SameSession s t

/-- R179: MEM reads, then writes, as the two enables say, at the width of the bundle and the address of the ALU result;
a failed read gives 0 and a failed write is ignored; then it selects the pre-writeback value. Any bundle may stand in
the latch, those no instruction has included. -/
def Obligations.MemoryAccess : Prop :=
  ∀ (s : State) (c : Ctrl) (ea v2 : Dword), s.status = .running → s.stage = .memory → s.ctrl = some c →
    s.w.aluResult = some ea → s.w.readData2 = some v2 → (c.memToReg = .useMemory → c.memRead = true) →
    ∃ t, executeStage s = .next t ∧ t.stage = .writeBack ∧ t.status = .running ∧ t.x = s.x ∧ t.pc = s.pc ∧
      t.instr = s.instr ∧ t.ctrl = s.ctrl ∧ t.cop = s.cop.see .memory ∧ SameSession s t ∧
      (let loaded := if memOk s.cfg ea.toNat c.regWidth.bytes = true then
          (match c.regWidth with
           | .word => zext32 (readWord s.mem ea.toNat)
           | .doubleWord => readDword s.mem ea.toNat) else 0#64
       let data := match c.memWriteSrc with
         | .primaryUnit => v2
         | .floatingPointUnit => s.cop.memWriteData
       t.w = { s.w with
         memoryData := if c.memRead = true then some loaded else s.w.memoryData
         dataResult := some (match c.memToReg with | .useMemory => loaded | .useAlu => ea) } ∧
       t.mem = if c.memWrite = true ∧ memOk s.cfg ea.toNat c.regWidth.bytes = true then
           writeBytes s.mem ea.toNat (match c.regWidth with | .word => wordBytes (lo32 data) | .doubleWord => dwordBytes data)
         else s.mem)

/-- R180, R181: WB hands the pre-writeback value to the coprocessor, lets it claim the destination, writes at most the
one register RegDst names (none for index 0, or when reg_write is 0), narrows a Word value, and advances pc by 4. -/
def Obligations.WriteBack : Prop :=
  ∀ (s : State) (c : Ctrl) (d : Dword) (dst : RegIdx), s.status = .running → s.stage = .writeBack → s.ctrl = some c →
    s.w.dataResult = some d → dstIndex c.regDst s.w = some dst →
    ∃ t, executeStage s = .next t ∧ t.stage = .instructionFetch ∧ t.status = .running ∧ t.pc = s.pc + 4#64 ∧
      t.mem = s.mem ∧ t.cop = (s.cop.see (.receiveData d)).see .writeback ∧ SameSession s t ∧
      (let claimed := s.cop.see (.receiveData d)
       let v := if claimed.dataWrite = true then claimed.data else d
       let v' := match c.regWidth with | .word => sext32 (lo32 v) | .doubleWord => v
       (c.regWrite = true → WritesGpr s t dst v' ∧ t.w = { s.w with registerWriteData := some v' }) ∧
       (c.regWrite = false → SameGprs s t ∧ t.w = s.w))

/-- R171: a stage's work is followed by the cyclic successor; on Fatal the stage keeps its value; from Fatal there is no
step. -/
def Obligations.StageAdvances : Prop :=
  ∀ s : State,
    (∀ t, executeStage s = .next t → s.status = .running ∧
      ((t.status = .running ∧ t.stage = s.stage.succ) ∨ (∃ info, t.status = .fatal info ∧ t.stage = s.stage))) ∧
    (∀ info, s.status = .fatal info → executeStage s = .fault (.fatal info))

/-- R184: between two execute_stage calls, IF, ID and EX have changed no register, pc or memory; MEM has changed memory
at most; WB has written one register at most, and pc. -/
def Obligations.VisibleStateByStage : Prop :=
  ∀ s t : State, executeStage s = .next t →
    (s.stage = .instructionFetch ∨ s.stage = .instructionDecode ∨ s.stage = .execute →
      t.x = s.x ∧ t.pc = s.pc ∧ t.mem = s.mem) ∧
    (s.stage = .memory → t.x = s.x ∧ t.pc = s.pc ∧ ((∃ c, s.ctrl = some c ∧ c.memWrite = true) ∨ t.mem = s.mem)) ∧
    (s.stage = .writeBack → t.mem = s.mem ∧ t.pc = s.pc + 4#64 ∧ ∃ dst v, WritesGpr s t dst v)

/-! ### Whole instructions -/

/-- A STEP RUNS THE DECODED INSTRUCTION: with the block Running at IF, and the next call an execute_instruction (R172,
or R201 with DatapathCore; the default when none is listed, log 1), bytes at pc that decode to a well-formed instruction
run exactly `exec` of it. The step adds nothing around it: the pc advance is WB's (R180). -/
def Obligations.StepRunsTheDecodedInstruction : Prop :=
  ∀ (s : State) (i : Instr), s.status = .running → s.stage = .instructionFetch → i.wf = true →
    memOk s.cfg s.pc.toNat 4 = true →
    decodeBytes [readByte s.mem s.pc.toNat, readByte s.mem (s.pc.toNat + 1), readByte s.mem (s.pc.toNat + 2),
      readByte s.mem (s.pc.toNat + 3)] = some (.ok i) →
    (s.calls = [] → step s = exec i s) ∧
    (∀ rest, s.calls = .executeInstruction :: rest ∨ s.calls = .executeInstructionSelect .datapath :: rest →
      step s = exec i (s.setCalls rest))

/-- R183: from IF, five execute_stage calls (fewer if Fatal stops them) and one execute_instruction give the same
outcome, in every field. -/
def Obligations.SingleStepEquivalence : Prop :=
  ∀ s : State, s.status = .running → s.stage = .instructionFetch → runStages 5 s = executeInstruction s

/-- R172, R173: execute_instruction called in the middle of an instruction finishes that one and starts no other: after
any number of stages of a fresh instruction it ends where the uninterrupted call ends. -/
def Obligations.PendingInstructionIsFinished : Prop :=
  ∀ (s t : State) (k : Nat), s.status = .running → s.stage = .instructionFetch → 0 < k → k < 5 →
    runStages k s = .next t →
    (t.status = .running → t.stage ≠ .instructionFetch ∧ executeInstruction t = executeInstruction s) ∧
    (t.status ≠ .running → executeInstruction s = .next t)

/-- R54, R171, R172, R200-R203: what a step does for each call of the host, all seven forms of the six operations of
R200, and for none listed (log 1, 19); the strategy is an argument and is not stored. -/
def Obligations.HostOperations : Prop :=
  ∀ (s : State) (rest : List HostCall), s.status = .running →
    (s.calls = .executeStage :: rest → step s = executeStage (s.setCalls rest)) ∧
    (s.calls = .executeInstruction :: rest → step s = executeInstruction (s.setCalls rest)) ∧
    (s.calls = .executeInstructionSelect .datapath :: rest → step s = executeInstruction (s.setCalls rest)) ∧
    (s.calls = .executeInstructionSelect .trad :: rest →
      ∃ t result, tradStep (s.setCalls rest) = (t, result) ∧ step s = .next (t.addReply (.trad result))) ∧
    (∀ name, s.calls = .getRegisterByEnum name :: rest →
      step s = .next ((s.setCalls rest).addReply (.value (registerByName name s)))) ∧
    (s.calls = .getMemory :: rest → step s = .next ((s.setCalls rest).addReply (.memory s.mem))) ∧
    (∀ words, s.calls = .loadInstructions words :: rest →
      ∃ t loaded, loadInstructions words (s.setCalls rest) = (t, loaded) ∧ step s = .next (t.addReply (.loaded loaded))) ∧
    (s.calls = [] → step s = executeInstruction s)

/-- R210, R230, R250, R270, R291: every instruction but J and JAL completes from every state (log 14), whatever the
coprocessor: pc advances by 4, the run status and the session stay, no register but the destination changes, and no
byte of memory but those it stores to. -/
def Obligations.EveryInstructionCompletes : Prop :=
  ∀ (i : Instr) (s : State), ¬ isJump i →
    ∃ t, exec i s = .next t ∧ Completes s t ∧ (∀ r, destination i ≠ some r → gpr t r = gpr s r) ∧ KeepsMemory i s t ∧
      (s.cop = .null → t.cop = .null)

/-- R211, R212: the words (log 9), the written form (log 20), the signals and the results of ADD and SUB, which
complete from every state (log 14). -/
def Obligations.AddAndSub : Prop :=
  ∀ (rs rt rd shamt : RegIdx) (s : State), s.cop = .null →
    (WrittenRrr .add (fun a b d => .add a b d 0) ∧ EncodesR (.add rs rt rd shamt) 0x00#6 rs rt rd shamt 0x20#6 ∧
      Signals (.add rs rt rd shamt) .word .addition ∧
      Retires (.add rs rt rd shamt) s rd (sext32 (lo32 (gpr s rs) + lo32 (gpr s rt)))) ∧
    (WrittenRrr .sub (fun a b d => .sub a b d 0) ∧ EncodesR (.sub rs rt rd shamt) 0x00#6 rs rt rd shamt 0x22#6 ∧
      Signals (.sub rs rt rd shamt) .word .subtraction ∧
      Retires (.sub rs rt rd shamt) s rd (sext32 (lo32 (gpr s rs) - lo32 (gpr s rt))))

/-- R213-R216: the words (log 9), the written forms (log 20), the signals and the results of AND, OR, SLT and SLTU,
from every state (log 14). That they are 64 bits wide is the spec's decision D6. -/
def Obligations.LogicAndCompare : Prop :=
  ∀ (rs rt rd shamt : RegIdx) (s : State), s.cop = .null →
    (WrittenRrr .and (fun a b d => .and a b d 0) ∧ EncodesR (.and rs rt rd shamt) 0x00#6 rs rt rd shamt 0x24#6 ∧
      Signals (.and rs rt rd shamt) .doubleWord .and ∧
      Retires (.and rs rt rd shamt) s rd (gpr s rs &&& gpr s rt)) ∧
    (WrittenRrr .or (fun a b d => .or a b d 0) ∧ EncodesR (.or rs rt rd shamt) 0x00#6 rs rt rd shamt 0x25#6 ∧
      Signals (.or rs rt rd shamt) .doubleWord .or ∧
      Retires (.or rs rt rd shamt) s rd (gpr s rs ||| gpr s rt)) ∧
    (WrittenRrr .slt (fun a b d => .slt a b d 0) ∧ EncodesR (.slt rs rt rd shamt) 0x00#6 rs rt rd shamt 0x2A#6 ∧
      Signals (.slt rs rt rd shamt) .doubleWord .setOnLessThanSigned ∧
      Retires (.slt rs rt rd shamt) s rd (if (gpr s rs).toInt < (gpr s rt).toInt then 1#64 else 0#64)) ∧
    (WrittenRrr .sltu (fun a b d => .sltu a b d 0) ∧ EncodesR (.sltu rs rt rd shamt) 0x00#6 rs rt rd shamt 0x2B#6 ∧
      Signals (.sltu rs rt rd shamt) .doubleWord .setOnLessThanUnsigned ∧
      Retires (.sltu rs rt rd shamt) s rd (if (gpr s rs).toNat < (gpr s rt).toNat then 1#64 else 0#64))

/-- R217, R218: the words (log 9), the written form (log 20), the signals and the results of DADD and DSUB, at 64 bits
with no truncation, from every state (log 14). -/
def Obligations.DaddAndDsub : Prop :=
  ∀ (rs rt rd shamt : RegIdx) (s : State), s.cop = .null →
    (WrittenRrr .dadd (fun a b d => .dadd a b d 0) ∧ EncodesR (.dadd rs rt rd shamt) 0x00#6 rs rt rd shamt 0x2C#6 ∧
      Signals (.dadd rs rt rd shamt) .doubleWord .addition ∧
      Retires (.dadd rs rt rd shamt) s rd (gpr s rs + gpr s rt)) ∧
    (WrittenRrr .dsub (fun a b d => .dsub a b d 0) ∧ EncodesR (.dsub rs rt rd shamt) 0x00#6 rs rt rd shamt 0x2E#6 ∧
      Signals (.dsub rs rt rd shamt) .doubleWord .subtraction ∧
      Retires (.dsub rs rt rd shamt) s rd (gpr s rs - gpr s rt))

/-- R231, R232: the words (log 9), the written form (log 20), the signals and the results of MUL and MULU, from every
state (log 14). That the two are equal for every input is the inference of R151. -/
def Obligations.MulAndMulu : Prop :=
  ∀ (rs rt rd : RegIdx) (s : State), s.cop = .null →
    (WrittenRrr .mul .mul ∧ EncodesR (.mul rs rt rd) 0x00#6 rs rt rd 0b00010#5 0x18#6 ∧
      Signals (.mul rs rt rd) .word .multiplicationSigned ∧
      Retires (.mul rs rt rd) s rd (sext32 (BitVec.ofInt 32 ((lo32 (gpr s rs)).toInt * (lo32 (gpr s rt)).toInt)))) ∧
    (WrittenRrr .mulu .mulu ∧ EncodesR (.mulu rs rt rd) 0x00#6 rs rt rd 0b00010#5 0x19#6 ∧
      Signals (.mulu rs rt rd) .word .multiplicationUnsigned ∧
      Retires (.mulu rs rt rd) s rd (sext32 (BitVec.ofNat 32 ((lo32 (gpr s rs)).toNat * (lo32 (gpr s rt)).toNat)))) ∧
    BitVec.ofInt 32 ((lo32 (gpr s rs)).toInt * (lo32 (gpr s rt)).toInt) =
      BitVec.ofNat 32 ((lo32 (gpr s rs)).toNat * (lo32 (gpr s rt)).toNat)

/-- R233, R234: the words (log 9), the written form (log 20), the signals and the results of DIV and DIVU, from every
state (log 14); the zero test is on the low word. The quotient of -2^31 by -1 is the spec's decision D17 (log 12). -/
def Obligations.DivAndDivu : Prop :=
  ∀ (rs rt rd : RegIdx) (s : State), s.cop = .null →
    (WrittenRrr .div .div ∧ EncodesR (.div rs rt rd) 0x00#6 rs rt rd 0b00010#5 0x1A#6 ∧
      Signals (.div rs rt rd) .word .divisionSigned ∧
      Retires (.div rs rt rd) s rd (if lo32 (gpr s rt) = 0#32 then 0#64
        else sext32 (BitVec.ofInt 32 (Int.tdiv (lo32 (gpr s rs)).toInt (lo32 (gpr s rt)).toInt)))) ∧
    (WrittenRrr .divu .divu ∧ EncodesR (.divu rs rt rd) 0x00#6 rs rt rd 0b00010#5 0x1B#6 ∧
      Signals (.divu rs rt rd) .word .divisionUnsigned ∧
      Retires (.divu rs rt rd) s rd (if lo32 (gpr s rt) = 0#32 then 0#64
        else sext32 (BitVec.ofNat 32 ((lo32 (gpr s rs)).toNat / (lo32 (gpr s rt)).toNat))))

/-- R235, R236: the words (log 9), the written form (log 20), the signals and the results of DMUL and DMULU, from
every state (log 14). That the two are equal for every input is the inference of R151. -/
def Obligations.DmulAndDmulu : Prop :=
  ∀ (rs rt rd : RegIdx) (s : State), s.cop = .null →
    (WrittenRrr .dmul .dmul ∧ EncodesR (.dmul rs rt rd) 0x00#6 rs rt rd 0b00010#5 0x1C#6 ∧
      Signals (.dmul rs rt rd) .doubleWord .multiplicationSigned ∧
      Retires (.dmul rs rt rd) s rd (BitVec.ofInt 64 ((gpr s rs).toInt * (gpr s rt).toInt))) ∧
    (WrittenRrr .dmulu .dmulu ∧ EncodesR (.dmulu rs rt rd) 0x00#6 rs rt rd 0b00010#5 0x1D#6 ∧
      Signals (.dmulu rs rt rd) .doubleWord .multiplicationUnsigned ∧
      Retires (.dmulu rs rt rd) s rd (BitVec.ofNat 64 ((gpr s rs).toNat * (gpr s rt).toNat))) ∧
    BitVec.ofInt 64 ((gpr s rs).toInt * (gpr s rt).toInt) = BitVec.ofNat 64 ((gpr s rs).toNat * (gpr s rt).toNat)

/-- R237, R238: the words (log 9), the written form (log 20), the signals and the results of DDIV and DDIVU, from
every state (log 14). The quotient of -2^63 by -1 is the spec's decision D17 (log 12). -/
def Obligations.DdivAndDdivu : Prop :=
  ∀ (rs rt rd : RegIdx) (s : State), s.cop = .null →
    (WrittenRrr .ddiv .ddiv ∧ EncodesR (.ddiv rs rt rd) 0x00#6 rs rt rd 0b00010#5 0x1E#6 ∧
      Signals (.ddiv rs rt rd) .doubleWord .divisionSigned ∧
      Retires (.ddiv rs rt rd) s rd (if gpr s rt = 0#64 then 0#64
        else BitVec.ofInt 64 (Int.tdiv (gpr s rs).toInt (gpr s rt).toInt))) ∧
    (WrittenRrr .ddivu .ddivu ∧ EncodesR (.ddivu rs rt rd) 0x00#6 rs rt rd 0b00010#5 0x1F#6 ∧
      Signals (.ddivu rs rt rd) .doubleWord .divisionUnsigned ∧
      Retires (.ddivu rs rt rd) s rd (if gpr s rt = 0#64 then 0#64
        else BitVec.ofNat 64 ((gpr s rs).toNat / (gpr s rt).toNat)))

/-- R251, R252: the words (log 9), the written forms (log 20), the signals and the results of ORI and AUI, and LUI as
AUI on $zero, from every state (log 14). ORI's width is the spec's decision D6, and AUI's use of Addition its D5. -/
def Obligations.OriAndAui : Prop :=
  ∀ (rs rt : RegIdx) (imm : BitVec 16) (s : State), s.cop = .null →
    ((∀ (t a : AsmReg) (n : Int), (Asm.ori t a n).instr = .ori a.index t.index (BitVec.ofInt 16 n)) ∧
      EncodesI (.ori rs rt imm) 0x0D#6 rs rt imm ∧
      Signals (.ori rs rt imm) .doubleWord .or ∧
      Retires (.ori rs rt imm) s rt (gpr s rs ||| imm.setWidth 64)) ∧
    ((∀ (t a : AsmReg) (n : Int), (Asm.aui t a n).instr = .aui a.index t.index (BitVec.ofInt 16 n)) ∧
      (∀ (t : AsmReg) (n : Int), (Asm.lui t n).instr = .aui 0#5 t.index (BitVec.ofInt 16 n)) ∧
      EncodesI (.aui rs rt imm) 0x0F#6 rs rt imm ∧ Signals (.aui rs rt imm) .word .addition ∧
      Retires (.aui rs rt imm) s rt (sext32 (lo32 (gpr s rs) + (imm.setWidth 32 <<< 16))))

/-- R253, R254: the words (log 9), the written forms (log 20), the signals and the results of DAHI and DATI, whose low
bits never change, from every state (log 14). -/
def Obligations.DahiAndDati : Prop :=
  ∀ (rs : RegIdx) (imm : BitVec 16) (s : State), s.cop = .null →
    ((∀ (a : AsmReg) (n : Int), (Asm.dahi a n).instr = .dahi a.index (BitVec.ofInt 16 n)) ∧
      EncodesI (.dahi rs imm) 0x01#6 rs 0b00110#5 imm ∧ Signals (.dahi rs imm) .doubleWord .addition ∧
      Retires (.dahi rs imm) s rs (gpr s rs + (sext16 imm <<< 32)) ∧
      lo32 (gpr s rs + (sext16 imm <<< 32)) = lo32 (gpr s rs)) ∧
    ((∀ (a : AsmReg) (n : Int), (Asm.dati a n).instr = .dati a.index (BitVec.ofInt 16 n)) ∧
      EncodesI (.dati rs imm) 0x01#6 rs 0b11110#5 imm ∧ Signals (.dati rs imm) .doubleWord .addition ∧
      Retires (.dati rs imm) s rs (gpr s rs + (imm.setWidth 64 <<< 48)) ∧
      (gpr s rs + (imm.setWidth 64 <<< 48)).setWidth 48 = (gpr s rs).setWidth 48)

/-- R271, R273: the words (log 9), the written form (log 20), the signals and the results of LW and LD, from every
state (log 14): the bytes at the effective address, or 0 when the access fails. The Word address is the inference of
R270. The byte order of a read is the spec's decision D10 (log 8). -/
def Obligations.Loads : Prop :=
  ∀ (rs rt : RegIdx) (imm : BitVec 16) (s : State), s.cop = .null →
    ((∀ (t b : AsmReg) (n : Int), (Asm.mem .lw t n b).instr = .lw b.index t.index (BitVec.ofInt 16 n)) ∧
      EncodesI (.lw rs rt imm) 0x23#6 rs rt imm ∧ Signals (.lw rs rt imm) .word .addition ∧
      Retires (.lw rs rt imm) s rt (if memOk s.cfg (wordAddress s rs imm).toNat 4 = true then
        sext32 (readWord s.mem (wordAddress s rs imm).toNat) else 0#64)) ∧
    ((∀ (t b : AsmReg) (n : Int), (Asm.mem .ld t n b).instr = .ld b.index t.index (BitVec.ofInt 16 n)) ∧
      EncodesI (.ld rs rt imm) 0x37#6 rs rt imm ∧ Signals (.ld rs rt imm) .doubleWord .addition ∧
      Retires (.ld rs rt imm) s rt (if memOk s.cfg (doubleAddress s rs imm).toNat 8 = true then
        readDword s.mem (doubleAddress s rs imm).toNat else 0#64))

/-- R272, D36: SW, whose word is log 9's and written form log 20's, completes from every state (log 14), writes no
register, and stores the low word of x[rt], most significant byte lowest (D10, log 8); nothing when the access fails
(D13). The address is the inference of R270. -/
def Obligations.StoreWordForm : Prop :=
  ∀ (rs rt : RegIdx) (imm : BitVec 16) (s : State), Memory.wf s.mem →
    (∀ (t b : AsmReg) (n : Int), (Asm.mem .sw t n b).instr = .sw b.index t.index (BitVec.ofInt 16 n)) ∧
    EncodesI (.sw rs rt imm) 0x2B#6 rs rt imm ∧ Signals (.sw rs rt imm) .word .addition ∧
    ∃ t, exec (.sw rs rt imm) s = .next t ∧ Completes s t ∧ SameGprs s t ∧
      (let ea := (wordAddress s rs imm).toNat
       if memOk s.cfg ea 4 = true then
         (∀ k < 4, readByte t.mem (ea + k) = (gpr s rt).extractLsb' (24 - 8 * k) 8) ∧ SameOutside s t ea 4
       else SameMemory s t)

/-- R274, D13: SD, whose word is log 9's and written form log 20's, completes from every state (log 14), writes no
register, and stores x[rt], most significant byte lowest (D10, log 8); nothing when the access fails. -/
def Obligations.StoreDoubleForm : Prop :=
  ∀ (rs rt : RegIdx) (imm : BitVec 16) (s : State), Memory.wf s.mem →
    (∀ (t b : AsmReg) (n : Int), (Asm.mem .sd t n b).instr = .sd b.index t.index (BitVec.ofInt 16 n)) ∧
    EncodesI (.sd rs rt imm) 0x3F#6 rs rt imm ∧ Signals (.sd rs rt imm) .doubleWord .addition ∧
    ∃ t, exec (.sd rs rt imm) s = .next t ∧ Completes s t ∧ SameGprs s t ∧
      (let ea := (doubleAddress s rs imm).toNat
       if memOk s.cfg ea 8 = true then
         (∀ k < 8, readByte t.mem (ea + k) = (gpr s rt).extractLsb' (56 - 8 * k) 8) ∧ SameOutside s t ea 8
       else SameMemory s t)

/-- R291: every word of opcode 0x11 (log 9) is a COP1 word, with the CoprocessorOnly bundle. It completes from every
state (log 14) under any coprocessor, changes no register and no byte, and shows its word, x[ft] and the sum x[fmt] +
x[ft] (the inference of R80) to the hooks, in stage order (log 7). Under TradCore it is unsupported (log 19). -/
def Obligations.Cop1PassesThrough : Prop :=
  ∀ (fmt ft fs fd : RegIdx) (function : BitVec 6) (s : State),
    (encode (.cop1 fmt ft fs fd function) = (0x11#6 ++ fmt ++ ft ++ fs ++ fd ++ function).cast rfl ∧
      decode (encode (.cop1 fmt ft fs fd function)) = .ok (.cop1 fmt ft fs fd function)) ∧
    (∀ word : Word, word.extractLsb' 26 6 = 0x11#6 → ∃ a b c d f, decode word = .ok (.cop1 a b c d f)) ∧
    (∃ c, Machine.control (Instr.variant (.cop1 fmt ft fs fd function)) = .ok c ∧ c.aluControl = some .addition ∧
      c.aluSrc = .readRegister2 ∧ c.regWidth = .doubleWord ∧ c.memRead = false ∧ c.memWrite = false ∧
      c.regWrite = false) ∧
    (∃ t, exec (.cop1 fmt ft fs fd function) s = .next t ∧ Completes s t ∧ SameGprs s t ∧ SameMemory s t ∧
      t.cop = (((((s.cop.see (.fetch (encode (.cop1 fmt ft fs fd function)))).see (.decode (gpr s ft))).see
        .execute).see .memory).see (.receiveData (gpr s fmt + gpr s ft))).see .writeback) ∧
    (s.stage = .instructionFetch → fetchWord s = encode (.cop1 fmt ft fs fd function) → TradUnsupported s (fetchWord s))

/-- R293, D27: J and JAL (opcodes by log 9) always raise Fatal kind 5 in ID, a next state (log 2), from every state
(log 14): no jump is made, no register, memory or pc changes, and the target is not read. Under TradCore they are
unsupported (log 19). -/
def Obligations.JumpsRaiseFatal : Prop :=
  ∀ (target : BitVec 26) (s : State) (i : Instr) (op : BitVec 6),
    (i, op) = (.j target, 0x02#6) ∨ (i, op) = (.jal target, 0x03#6) →
    (encode i = (op ++ target).cast rfl ∧ decode (encode i) = .ok i) ∧
    (∃ t, exec i s = .next t ∧ t.status = .fatal (.controlJType op) ∧ t.stage = .instructionDecode ∧ t.pc = s.pc ∧
      SameGprs s t ∧ SameMemory s t ∧ SameSession s t ∧ t.cop = s.cop.see (.fetch (encode i))) ∧
    (s.stage = .instructionFetch → fetchWord s = encode i → TradUnsupported s (fetchWord s))

/-! ### The coprocessor -/

/-- R181, R195, R197: an attached coprocessor sees the six state hooks of an instruction in stage order, with the
word, the second register read and the pre-writeback value; its claim can replace the value of the one destination
register, and nothing else of the instruction depends on it (log 7, 14). -/
def Obligations.CoprocessorArbitration : Prop :=
  ∀ (i : Instr) (s : State) (seen : List CopEvent), ¬ isJump i → s.cop = .attached seen →
    ∃ t u c d, exec i s = .next t ∧ exec i (s.setCop .null) = .next u ∧ Machine.control i.variant = .ok c ∧
      t.pc = u.pc ∧ t.mem = u.mem ∧ t.status = u.status ∧ t.stage = u.stage ∧ u.cop = .null ∧
      (∀ r, destination i ≠ some r → gpr t r = gpr u r) ∧
      (let word := encode i
       let claimed : List CopEvent := [.receiveData d, .memory, .execute,
         .decode (readReg c.regWidth s (word.extractLsb' 16 5)), .fetch word] ++ seen
       t.cop = .attached (.writeback :: claimed) ∧
       ∀ dst, destination i = some dst → dst ≠ 0#5 →
         gpr u dst = narrow c.regWidth d ∧
         gpr t dst = narrow c.regWidth (if Config.copDataWrite claimed = true then Config.copData claimed else d))

/-- R196, D25: the null coprocessor has one state, which every hook leaves; it claims nothing, and its data is 0. -/
def Obligations.NullCoprocessor : Prop :=
  (∀ e : CopEvent, Cop.see e .null = .null) ∧ Cop.dataWrite .null = false ∧ Cop.data .null = 0#64 ∧
  Cop.memWriteData .null = 0#64 ∧
  (∀ (s t : State), s.cop = .null → step s = .next t → t.cop = .null)

/-! ### Registers and pc -/

/-- R22: x[0] reads 0 in every state, a write of index 0 is a no-op, and x[1] to x[31] hold what is written. -/
def Obligations.ZeroRegister : Prop :=
  (∀ s : State, gpr s 0#5 = 0#64) ∧ (∀ (v : Dword) (s : State), setGpr 0#5 v s = s) ∧
  (∀ (i r : RegIdx) (v : Dword) (s : State), i ≠ 0#5 → gpr (setGpr i v s) r = if r = i then v else gpr s r)

/-- R24, R25, R66: whatever the host calls, one step writes at most one general register, and pc stays or advances by 4,
so pc mod 4 never changes; no alignment of pc is checked, and a fetch succeeds as mem_ok(pc, 4) decides. -/
def Obligations.StepFrame : Prop :=
  ∀ s t : State, step s = .next t →
    (∃ dst v, WritesGpr s t dst v) ∧ (t.pc = s.pc ∨ t.pc = s.pc + 4#64) ∧ t.pc.toNat % 4 = s.pc.toNat % 4 ∧
    memRead4 s s.pc = (if memOk s.cfg s.pc.toNat 4 = true then some (readWord s.mem s.pc.toNat) else none)

/-! ### Memory -/

/-- R42, R44, R50: a store writes its bytes, most significant lowest (D10, log 8), and no other byte. A word read at
the address of a word store returns the word stored; after a doubleword store, word reads of its halves return them
and a doubleword read the whole, where mem_ok holds for those reads. -/
def Obligations.StoresReadBack : Prop :=
  (∀ (s t : State) (a : Dword) (v : Word), Memory.wf s.mem → memWrite4 a v s = some t →
    (∀ k < 4, readByte t.mem (a.toNat + k) = v.extractLsb' (24 - 8 * k) 8) ∧ memRead4 t a = some v ∧
    Memory.wf t.mem ∧ SameOutside s t a.toNat 4) ∧
  (∀ (s t : State) (a v : Dword), Memory.wf s.mem → s.cfg.size ≤ 2 ^ 64 → memWrite8 a v s = some t →
    (∀ k < 8, readByte t.mem (a.toNat + k) = v.extractLsb' (56 - 8 * k) 8) ∧ memRead8 t a = some v ∧
    (memOk s.cfg a.toNat 4 = true → memRead4 t a = some (v.extractLsb' 32 32)) ∧
    (memOk s.cfg (a.toNat + 4) 4 = true → memRead4 t (a + 4#64) = some (v.extractLsb' 0 32)) ∧
    Memory.wf t.mem ∧ SameOutside s t a.toNat 8)

/-- R43, R47, D13: mem_ok is false past MEM_SIZE, computed without wrap-around; a failed fetch gives the word 0, a
failed load 0, and a failed store changes nothing at all. -/
def Obligations.FailedAccesses : Prop :=
  ∀ (s : State) (a v : Dword),
    (∀ n, s.cfg.size < a.toNat + n → memOk s.cfg a.toNat n = false) ∧
    (memOk s.cfg s.pc.toNat 4 = false → fetchWord s = 0#32) ∧
    (∀ width : RegWidth, memOk s.cfg a.toNat width.bytes = false →
      loadValue width a s = 0#64 ∧ storeValue width a v s = s)

/-- R53, R352: the fetch after a store reads memory as SW or SD left it. A store to the next instruction's address is what
is fetched next, SD's high word at that address and its low word at the one after it; a store to the storing
instruction's own address changes memory there, not the instruction. The byte order is the decision D10 (log 8). -/
def Obligations.StoresAreFetched : Prop :=
  ∀ (s : State) (rs rt : RegIdx) (imm : BitVec 16), Memory.wf s.mem → s.status = .running →
    s.stage = .instructionFetch → s.calls = [] →
    (fetchWord s = encode (.sw rs rt imm) →
      ∃ t, step s = .next t ∧ t.status = .running ∧ t.pc = s.pc + 4#64 ∧
        (memOk s.cfg (s.pc + 4#64).toNat 4 = true → fetchWord t = readWord t.mem (s.pc + 4#64).toNat) ∧
        (wordAddress s rs imm = s.pc + 4#64 → memOk s.cfg (s.pc + 4#64).toNat 4 = true →
          fetchWord t = lo32 (gpr s rt)) ∧
        (wordAddress s rs imm = s.pc → memOk s.cfg s.pc.toNat 4 = true →
          readWord t.mem s.pc.toNat = lo32 (gpr s rt))) ∧
    (fetchWord s = encode (.sd rs rt imm) →
      ∃ t, step s = .next t ∧ t.status = .running ∧ t.pc = s.pc + 4#64 ∧
        (memOk s.cfg (s.pc + 4#64).toNat 4 = true → fetchWord t = readWord t.mem (s.pc + 4#64).toNat) ∧
        (doubleAddress s rs imm = s.pc + 4#64 → memOk s.cfg (s.pc + 4#64).toNat 8 = true →
          readWord t.mem ((s.pc + 4#64).toNat + 4) = lo32 (gpr s rt) ∧
          (memOk s.cfg (s.pc + 4#64).toNat 4 = true → fetchWord t = (gpr s rt).extractLsb' 32 32)) ∧
        (doubleAddress s rs imm = s.pc → memOk s.cfg s.pc.toNat 8 = true →
          readWord t.mem s.pc.toNat = (gpr s rt).extractLsb' 32 32 ∧
          readWord t.mem (s.pc.toNat + 4) = lo32 (gpr s rt) ∧
          (s.cfg.size ≤ 2 ^ 64 → memOk s.cfg (s.pc + 4#64).toNat 4 = true → fetchWord t = lo32 (gpr s rt))))

/-! ### Fatal -/

/-- R76, R321-R323: an illegal word raises the Fatal of its class, in ID, precisely: pc, registers and memory are as
before it, w.instruction is the word, and the coprocessor has seen the fetch alone. The other wires and latches hold what
ID wrote before the failing step, each with its value: nothing for kind 1; the variant and the sliced fields for kinds 2,
4 and 5; for kind 3 the template besides, its ALU control not yet derived (log 17), and the two register reads at its
width. Every other word runs on. -/
def Obligations.IllegalWordsRaiseFatal : Prop :=
  ∀ s : State, s.status = .running → s.stage = .instructionFetch →
    (∀ info, illegalInfo (fetchWord s) = some info →
      ∃ t, executeInstruction s = .next t ∧ t.status = .fatal info ∧ t.stage = .instructionDecode ∧ t.pc = s.pc ∧
        t.x = s.x ∧ t.mem = s.mem ∧ SameSession s t ∧ t.cop = s.cop.see (.fetch (fetchWord s)) ∧
        (let word := fetchWord s
         let fetched := { Wires.bottom with instruction := some word }
         let sliced := { fetched with
           rs := some (word.extractLsb' 21 5), rt := some (word.extractLsb' 16 5), rd := some (word.extractLsb' 11 5)
           shamt := some (word.extractLsb' 6 5), funct := some (word.extractLsb' 0 6)
           imm := some (word.extractLsb' 0 16), signExtend := some (sext16 (word.extractLsb' 0 16)) }
         (info.kind = 1 → t.w = fetched ∧ t.instr = none ∧ t.ctrl = none) ∧
         (info.kind ≠ 1 → ∃ v, decodeVariant word = .ok v ∧ t.instr = some v ∧
           (info.kind ≠ 3 → t.w = sliced ∧ t.ctrl = none) ∧
           (info.kind = 3 → ∃ width, widthPolicy (word.extractLsb' 0 6) = .ok width ∧
             ctrlPrimary v = .ok (registerRegister width) ∧ t.ctrl = some (registerRegister width) ∧
             (registerRegister width).aluControl = none ∧
             t.w = { sliced with
               readData1 := some (readReg width s (word.extractLsb' 21 5))
               readData2 := some (readReg width s (word.extractLsb' 16 5)) })))) ∧
    (illegalInfo (fetchWord s) = none → ∃ t, executeInstruction s = .next t ∧ Completes s t)

/-- R34, R206, R320, R322, R343: a step takes the status to Fatal only in ID, from Running, and never in a TradCore
step, an accessor or the loader. From Fatal no host operation has a step, so nothing returns the status to Running:
every step there answers the fault of log 2, the accessors and the loader included (log 16). -/
def Obligations.FatalIsFinal : Prop :=
  (∀ (s : State) (info : FatalInfo) (calls : List HostCall), s.status = .fatal info →
    step (s.setCalls calls) = .fault (.fatal info)) ∧
  (∀ (s t : State) (info : FatalInfo), step s = .next t → t.status = .fatal info →
    s.status = .running ∧ t.stage = .instructionDecode ∧
    (s.calls = [] ∨ ∃ rest, s.calls = .executeStage :: rest ∨ s.calls = .executeInstruction :: rest ∨
      s.calls = .executeInstructionSelect .datapath :: rest))

/-! ### TradCore -/

/-- R301-R303: for every supported word, one TradCore step and one execute_instruction from the same state at IF give
the same registers, pc and memory; TradCore leaves wires and latches ⊥, calls no hook, and never raises Fatal. The
pipeline's side is R185's, under the null coprocessor (log 13). -/
def Obligations.TradCoreAgreesWithThePipeline : Prop :=
  ∀ s : State, s.status = .running → s.stage = .instructionFetch → tradSupportedWord (fetchWord s) →
    ∃ t, tradStep s = (t, .executed) ∧ t.w = Wires.bottom ∧ t.instr = none ∧ t.ctrl = none ∧ t.cop = s.cop ∧
      t.stage = .instructionFetch ∧ t.status = .running ∧ SameSession s t ∧
      (s.cop = .null → ∃ u, executeInstruction s = .next u ∧ SameGprs u t ∧ t.pc = u.pc ∧ t.mem = u.mem)

/-- R302, R304, R305: on a word outside the supported subset TradCore answers Unsupported, naming opcode and funct
(log 19), and leaves x, pc, mem, stage, cop and status as they are. Selected mid-instruction it refuses, and changes
no state of the block; the host gets the refusal. -/
def Obligations.TradCoreRefusals : Prop :=
  (∀ s : State, s.stage = .instructionFetch → ¬ tradSupportedWord (fetchWord s) → TradUnsupported s (fetchWord s)) ∧
  (∀ (s : State) (rest : List HostCall), s.status = .running → s.stage ≠ .instructionFetch →
    tradStep s = (s, .refused) ∧
    (s.calls = .executeInstructionSelect .trad :: rest → step s = .next ((s.setCalls rest).addReply (.trad .refused))))

/-! ### The host -/

/-- R54, D29: the loader stores the words from byte address 4 on, in order, up to the first failing store, keeps the
words before it, and reports whether it failed; it changes nothing but memory. -/
def Obligations.Loader : Prop :=
  ∀ (s : State) (words : List Word), Memory.wf s.mem →
    ∃ (k : Nat) (m : Memory), k ≤ words.length ∧ loadInstructions words s = (s.setMem m, decide (k = words.length)) ∧
      (∀ i < k, memOk s.cfg (4 + 4 * i) 4 = true) ∧ (k < words.length → memOk s.cfg (4 + 4 * k) 4 = false) ∧
      (∀ i < k, some (readWord m (4 + 4 * i)) = words[i]?) ∧
      (∀ a, a < 4 ∨ 4 + 4 * k ≤ a → readByte m a = readByte s.mem a)

/-- R23, R55, R203: an accessor returns what it names (log 1, 19) and changes nothing else; each of the 32 registers
has its o32 name, and pc is a name too (log 20). -/
def Obligations.Accessors : Prop :=
  (∀ (s : State) (rest : List HostCall) (name : GprName), s.status = .running →
    (s.calls = .getRegisterByEnum (.gpr name) :: rest →
      step s = .next ((s.setCalls rest).addReply (.value (gpr s name.index)))) ∧
    (s.calls = .getRegisterByEnum .pc :: rest → step s = .next ((s.setCalls rest).addReply (.value s.pc))) ∧
    (s.calls = .getMemory :: rest → step s = .next ((s.setCalls rest).addReply (.memory s.mem)))) ∧
  [GprName.zero, .at, .v0, .v1, .a0, .a1, .a2, .a3, .t0, .t1, .t2, .t3, .t4, .t5, .t6, .t7, .s0, .s1, .s2, .s3, .s4, .s5,
    .s6, .s7, .t8, .t9, .k0, .k1, .gp, .sp, .fp, .ra].map (fun n => n.index.toNat) = List.range 32 ∧
  GprName.s8.index = GprName.fp.index

/-! ### Reset -/

/-- R340: the state after reset, for every choice of the launch parameters: what the rule gives, and each parameter
where the rule leaves it open; a byte of memory is the last one the launch lists for its address. -/
def Obligations.ResetState : Prop :=
  ∀ p : Launch,
    (launch p).stage = .instructionFetch ∧ (launch p).w = Wires.bottom ∧ (launch p).instr = none ∧
    (launch p).ctrl = none ∧ (launch p).status = .running ∧ (launch p).x[0] = 0#64 ∧
    (∀ r : RegIdx, r ≠ 0#5 → gpr (launch p) r = p.gprInit[r.toNat]) ∧ (launch p).pc = p.pcInit ∧
    (launch p).cop = p.cop ∧ (launch p).cfg = p.cfg ∧
    (∀ a < p.cfg.size, readByte (launch p).mem a =
      ((p.memInit.reverse.find? (fun cell => cell.1 == a)).map (·.2)).getD unlistedByte)

/-- The model's own choices (log 3 to 7): State.reset is the launch under the common premises of the test vectors, with
PC_INIT 4, registers and memory 0, MEM_SIZE 0x1000 and the null coprocessor. -/
def Obligations.ResetChoices : Prop :=
  State.reset = launch commonLaunch ∧ State.reset.pc = 4#64 ∧ (∀ r, gpr State.reset r = 0#64) ∧
  (∀ a, readByte State.reset.mem a = 0#8) ∧ State.reset.cop = .null ∧
  (∀ a n, memOk State.reset.cfg a n = decide (a + n ≤ 0x1000))

/-! ### Invariants of the machine -/

/-- R27-R29, R325: the invariant holds after reset, for every choice of the launch parameters and so for State.reset. -/
def Obligations.LaunchMeetsTheInvariant : Prop :=
  (∀ p : Launch, Inv (launch p)) ∧ Inv State.reset

/-- R27-R29, R40: every step keeps the invariant: memory canonical and inside [0, MEM_SIZE), the stored x[0] 0, and the
wires and latches those of the one instruction in flight. -/
def Obligations.StepKeepsTheInvariant : Prop :=
  ∀ s t : State, Inv s → step s = .next t → Inv t

/-- R29, R325: under the invariant no rule reads a wire before it is written: while the block is Running, every host
operation answers a next state. -/
def Obligations.RunningAlwaysSteps : Prop :=
  ∀ (s : State) (calls : List HostCall), Inv s → s.status = .running → ∃ t, step (s.setCalls calls) = .next t

/-- R34, R206, R325: from every launch, whatever the host calls (log 1), the one way a run stops is Fatal (log 2); no
model fault and no refusal is reachable. -/
def Obligations.OnlyFatalStopsARun : Prop :=
  ∀ (p : Launch) (s : State), Reachable p s →
    Inv s ∧ ((s.status = .running ∧ ∃ t, step s = .next t) ∨
      (∃ info, s.status = .fatal info ∧ step s = .fault (.fatal info)))

/-! ### Ports -/

/-- R101, D8 (the spec's own bit encodings): a complete bundle survives the 21-bit port, and a code the generator never
produces is a fault. -/
def Obligations.BundlePort : Prop :=
  (∀ c : Ctrl, c.aluControl.isSome = true → ∃ p, ctrlToPort c = some p ∧ ctrlFromPort p = .ok c) ∧
  (∀ p : CtrlPort,
    (p.aluOp.toNat ≥ 6 ∨ p.aluControl.toNat ≥ 11 ∨ p.aluSrc.toNat = 3 ∨ p.regDst.toNat = 3) ↔
      ∃ port, ctrlFromPort p = .error (.undefinedCode port)) ∧
  aluOps.map (fun a => (aluOpCode a).toNat) = List.range 6 ∧
  aluControls.map (fun a => (aluControlCode a).toNat) = List.range 11 ∧
  aluSrcs.map (fun a => (aluSrcCode a).toNat) = List.range 3 ∧
  [ImmShift.shift0, .shift16, .shift32, .shift48].map (fun a => (immShiftCode a).toNat) = List.range 4 ∧
  [MemWriteSrc.primaryUnit, .floatingPointUnit].map (fun a => (memWriteSrcCode a).toNat) = List.range 2 ∧
  [MemToReg.useAlu, .useMemory].map (fun a => (memToRegCode a).toNat) = List.range 2 ∧
  regDsts.map (fun a => (regDstCode a).toNat) = List.range 3 ∧
  [RegWidth.word, .doubleWord].map (fun a => (regWidthCode a).toNat) = List.range 2

/-- R65, R102: the decoder's and the generator's ports carry what the sequencer latches. dec_ok says whether the word
decodes; dec_kind is its kind, and none when dec_ok is 0 (log 18); every field is sliced from its fixed range, whatever
the kind. The generator, given only the decoder's outputs it has inputs for, answers on every decodable word ctrl_ok 1
and the word's bundle, or ctrl_ok 0 and the diagnostic of all four fields, which shows what the word's Fatal names. -/
def Obligations.DecoderAndGeneratorPorts : Prop :=
  ∀ word : Word,
    (let d := decoderPort word
     d.opcode = word.extractLsb' 26 6 ∧ d.rs = word.extractLsb' 21 5 ∧ d.rt = word.extractLsb' 16 5 ∧
     d.rd = word.extractLsb' 11 5 ∧ d.shamt = word.extractLsb' 6 5 ∧ d.funct = word.extractLsb' 0 6 ∧
     d.imm = word.extractLsb' 0 16 ∧ d.target = word.extractLsb' 0 26) ∧
    ((decoderPort word).decOk = 1#1 ↔ ∃ v, decodeVariant word = .ok v) ∧
    ((decoderPort word).decOk = 0#1 ↔ (decoderPort word).decKind = none) ∧
    (∀ v, decodeVariant word = .ok v →
      (decoderPort word).decKind = some (variantKind v) ∧
      (let g := generatorPort (variantKind v) (decoderPort word).opcode (decoderPort word).rt (decoderPort word).shamt
        (decoderPort word).funct
       match Machine.control v with
       | .ok c => g.ctrlOk = 1#1 ∧ g.bundle = ctrlToPort c ∧ g.bundle.isSome = true ∧ g.diagnostic = none
       | .error info => g.ctrlOk = 0#1 ∧ g.bundle = none ∧
         (let d : GeneratorDiagnostic := { opcode := word.extractLsb' 26 6, funct := word.extractLsb' 0 6,
                                           shamt := word.extractLsb' 6 5, rt := word.extractLsb' 16 5 }
          g.diagnostic = some d ∧ diagnosticShows d info = true)))
end

