-- ==== Sys2Proof/Laws/Decode.lean ====
section
/-! SUPPORT. The fields of a variant's word (30_encoding.md R61): each reads back what was put in, and a word is the word
of its fields. -/

namespace Sys2Proof

@[simp] theorem opcode_word_rType (op : BitVec 6) (rs rt rd shamt : RegIdx) (funct : BitVec 6) :
    Enc.opcode (Variant.word (.rType op rs rt rd shamt funct)) = op := by
  apply BitVec.eq_of_getLsbD_eq
  intro i hi
  simp only [Enc.opcode, Variant.word, BitVec.getLsbD_extractLsb', BitVec.getLsbD_cast, BitVec.getLsbD_append]
  rw [decide_eq_true hi, Bool.true_and]
  repeat' split
  all_goals first | omega | (congr 1; omega)

@[simp] theorem rs_word_rType (op : BitVec 6) (rs rt rd shamt : RegIdx) (funct : BitVec 6) :
    Enc.rs (Variant.word (.rType op rs rt rd shamt funct)) = rs := by
  apply BitVec.eq_of_getLsbD_eq
  intro i hi
  simp only [Enc.rs, Variant.word, BitVec.getLsbD_extractLsb', BitVec.getLsbD_cast, BitVec.getLsbD_append]
  rw [decide_eq_true hi, Bool.true_and]
  repeat' split
  all_goals first | omega | (congr 1; omega)

@[simp] theorem rt_word_rType (op : BitVec 6) (rs rt rd shamt : RegIdx) (funct : BitVec 6) :
    Enc.rt (Variant.word (.rType op rs rt rd shamt funct)) = rt := by
  apply BitVec.eq_of_getLsbD_eq
  intro i hi
  simp only [Enc.rt, Variant.word, BitVec.getLsbD_extractLsb', BitVec.getLsbD_cast, BitVec.getLsbD_append]
  rw [decide_eq_true hi, Bool.true_and]
  repeat' split
  all_goals first | omega | (congr 1; omega)

@[simp] theorem rd_word_rType (op : BitVec 6) (rs rt rd shamt : RegIdx) (funct : BitVec 6) :
    Enc.rd (Variant.word (.rType op rs rt rd shamt funct)) = rd := by
  apply BitVec.eq_of_getLsbD_eq
  intro i hi
  simp only [Enc.rd, Variant.word, BitVec.getLsbD_extractLsb', BitVec.getLsbD_cast, BitVec.getLsbD_append]
  rw [decide_eq_true hi, Bool.true_and]
  repeat' split
  all_goals first | omega | (congr 1; omega)

@[simp] theorem shamt_word_rType (op : BitVec 6) (rs rt rd shamt : RegIdx) (funct : BitVec 6) :
    Enc.shamt (Variant.word (.rType op rs rt rd shamt funct)) = shamt := by
  apply BitVec.eq_of_getLsbD_eq
  intro i hi
  simp only [Enc.shamt, Variant.word, BitVec.getLsbD_extractLsb', BitVec.getLsbD_cast, BitVec.getLsbD_append]
  rw [decide_eq_true hi, Bool.true_and]
  repeat' split
  all_goals first | omega | (congr 1; omega)

@[simp] theorem funct_word_rType (op : BitVec 6) (rs rt rd shamt : RegIdx) (funct : BitVec 6) :
    Enc.funct (Variant.word (.rType op rs rt rd shamt funct)) = funct := by
  apply BitVec.eq_of_getLsbD_eq
  intro i hi
  simp only [Enc.funct, Variant.word, BitVec.getLsbD_extractLsb', BitVec.getLsbD_cast, BitVec.getLsbD_append]
  rw [decide_eq_true hi, Bool.true_and]
  repeat' split
  all_goals first | omega | (congr 1; omega)

@[simp] theorem opcode_word_iType (op : BitVec 6) (rs rt : RegIdx) (imm : BitVec 16) :
    Enc.opcode (Variant.word (.iType op rs rt imm)) = op := by
  apply BitVec.eq_of_getLsbD_eq
  intro i hi
  simp only [Enc.opcode, Variant.word, BitVec.getLsbD_extractLsb', BitVec.getLsbD_cast, BitVec.getLsbD_append]
  rw [decide_eq_true hi, Bool.true_and]
  repeat' split
  all_goals first | omega | (congr 1; omega)

@[simp] theorem rs_word_iType (op : BitVec 6) (rs rt : RegIdx) (imm : BitVec 16) :
    Enc.rs (Variant.word (.iType op rs rt imm)) = rs := by
  apply BitVec.eq_of_getLsbD_eq
  intro i hi
  simp only [Enc.rs, Variant.word, BitVec.getLsbD_extractLsb', BitVec.getLsbD_cast, BitVec.getLsbD_append]
  rw [decide_eq_true hi, Bool.true_and]
  repeat' split
  all_goals first | omega | (congr 1; omega)

@[simp] theorem rt_word_iType (op : BitVec 6) (rs rt : RegIdx) (imm : BitVec 16) :
    Enc.rt (Variant.word (.iType op rs rt imm)) = rt := by
  apply BitVec.eq_of_getLsbD_eq
  intro i hi
  simp only [Enc.rt, Variant.word, BitVec.getLsbD_extractLsb', BitVec.getLsbD_cast, BitVec.getLsbD_append]
  rw [decide_eq_true hi, Bool.true_and]
  repeat' split
  all_goals first | omega | (congr 1; omega)

@[simp] theorem imm_word_iType (op : BitVec 6) (rs rt : RegIdx) (imm : BitVec 16) :
    Enc.imm (Variant.word (.iType op rs rt imm)) = imm := by
  apply BitVec.eq_of_getLsbD_eq
  intro i hi
  simp only [Enc.imm, Variant.word, BitVec.getLsbD_extractLsb', BitVec.getLsbD_cast, BitVec.getLsbD_append]
  rw [decide_eq_true hi, Bool.true_and]
  repeat' split
  all_goals first | omega | (congr 1; omega)

@[simp] theorem opcode_word_jType (op : BitVec 6) (target : BitVec 26) :
    Enc.opcode (Variant.word (.jType op target)) = op := by
  apply BitVec.eq_of_getLsbD_eq
  intro i hi
  simp only [Enc.opcode, Variant.word, BitVec.getLsbD_extractLsb', BitVec.getLsbD_cast, BitVec.getLsbD_append]
  rw [decide_eq_true hi, Bool.true_and]
  repeat' split
  all_goals first | omega | (congr 1; omega)

@[simp] theorem target_word_jType (op : BitVec 6) (target : BitVec 26) :
    Enc.target (Variant.word (.jType op target)) = target := by
  apply BitVec.eq_of_getLsbD_eq
  intro i hi
  simp only [Enc.target, Variant.word, BitVec.getLsbD_extractLsb', BitVec.getLsbD_cast, BitVec.getLsbD_append]
  rw [decide_eq_true hi, Bool.true_and]
  repeat' split
  all_goals first | omega | (congr 1; omega)

@[simp] theorem opcode_word_fpuRType (op : BitVec 6) (fmt ft fs fd : RegIdx) (function : BitVec 6) :
    Enc.opcode (Variant.word (.fpuRType op fmt ft fs fd function)) = op := by
  apply BitVec.eq_of_getLsbD_eq
  intro i hi
  simp only [Enc.opcode, Variant.word, BitVec.getLsbD_extractLsb', BitVec.getLsbD_cast, BitVec.getLsbD_append]
  rw [decide_eq_true hi, Bool.true_and]
  repeat' split
  all_goals first | omega | (congr 1; omega)

@[simp] theorem rs_word_fpuRType (op : BitVec 6) (fmt ft fs fd : RegIdx) (function : BitVec 6) :
    Enc.rs (Variant.word (.fpuRType op fmt ft fs fd function)) = fmt := by
  apply BitVec.eq_of_getLsbD_eq
  intro i hi
  simp only [Enc.rs, Variant.word, BitVec.getLsbD_extractLsb', BitVec.getLsbD_cast, BitVec.getLsbD_append]
  rw [decide_eq_true hi, Bool.true_and]
  repeat' split
  all_goals first | omega | (congr 1; omega)

@[simp] theorem rt_word_fpuRType (op : BitVec 6) (fmt ft fs fd : RegIdx) (function : BitVec 6) :
    Enc.rt (Variant.word (.fpuRType op fmt ft fs fd function)) = ft := by
  apply BitVec.eq_of_getLsbD_eq
  intro i hi
  simp only [Enc.rt, Variant.word, BitVec.getLsbD_extractLsb', BitVec.getLsbD_cast, BitVec.getLsbD_append]
  rw [decide_eq_true hi, Bool.true_and]
  repeat' split
  all_goals first | omega | (congr 1; omega)

@[simp] theorem rd_word_fpuRType (op : BitVec 6) (fmt ft fs fd : RegIdx) (function : BitVec 6) :
    Enc.rd (Variant.word (.fpuRType op fmt ft fs fd function)) = fs := by
  apply BitVec.eq_of_getLsbD_eq
  intro i hi
  simp only [Enc.rd, Variant.word, BitVec.getLsbD_extractLsb', BitVec.getLsbD_cast, BitVec.getLsbD_append]
  rw [decide_eq_true hi, Bool.true_and]
  repeat' split
  all_goals first | omega | (congr 1; omega)

@[simp] theorem shamt_word_fpuRType (op : BitVec 6) (fmt ft fs fd : RegIdx) (function : BitVec 6) :
    Enc.shamt (Variant.word (.fpuRType op fmt ft fs fd function)) = fd := by
  apply BitVec.eq_of_getLsbD_eq
  intro i hi
  simp only [Enc.shamt, Variant.word, BitVec.getLsbD_extractLsb', BitVec.getLsbD_cast, BitVec.getLsbD_append]
  rw [decide_eq_true hi, Bool.true_and]
  repeat' split
  all_goals first | omega | (congr 1; omega)

@[simp] theorem funct_word_fpuRType (op : BitVec 6) (fmt ft fs fd : RegIdx) (function : BitVec 6) :
    Enc.funct (Variant.word (.fpuRType op fmt ft fs fd function)) = function := by
  apply BitVec.eq_of_getLsbD_eq
  intro i hi
  simp only [Enc.funct, Variant.word, BitVec.getLsbD_extractLsb', BitVec.getLsbD_cast, BitVec.getLsbD_append]
  rw [decide_eq_true hi, Bool.true_and]
  repeat' split
  all_goals first | omega | (congr 1; omega)

theorem word_rType_fields (w : Word) : Variant.word (.rType (Enc.opcode w) (Enc.rs w) (Enc.rt w) (Enc.rd w) (Enc.shamt w) (Enc.funct w)) = w := by
  apply BitVec.eq_of_getLsbD_eq
  intro i hi
  simp only [Variant.word, Enc.opcode, Enc.rs, Enc.rt, Enc.rd, Enc.shamt, Enc.funct,
    BitVec.getLsbD_extractLsb', BitVec.getLsbD_cast, BitVec.getLsbD_append]
  repeat' split
  all_goals (rw [decide_eq_true (by omega), Bool.true_and]; congr 1; omega)

theorem word_iType_fields (w : Word) : Variant.word (.iType (Enc.opcode w) (Enc.rs w) (Enc.rt w) (Enc.imm w)) = w := by
  apply BitVec.eq_of_getLsbD_eq
  intro i hi
  simp only [Variant.word, Enc.opcode, Enc.rs, Enc.rt, Enc.imm,
    BitVec.getLsbD_extractLsb', BitVec.getLsbD_cast, BitVec.getLsbD_append]
  repeat' split
  all_goals (rw [decide_eq_true (by omega), Bool.true_and]; congr 1; omega)

theorem word_jType_fields (w : Word) : Variant.word (.jType (Enc.opcode w) (Enc.target w)) = w := by
  apply BitVec.eq_of_getLsbD_eq
  intro i hi
  simp only [Variant.word, Enc.opcode, Enc.target,
    BitVec.getLsbD_extractLsb', BitVec.getLsbD_cast, BitVec.getLsbD_append]
  repeat' split
  all_goals (rw [decide_eq_true (by omega), Bool.true_and]; congr 1; omega)

theorem word_fpuRType_fields (w : Word) : Variant.word (.fpuRType (Enc.opcode w) (Enc.rs w) (Enc.rt w) (Enc.rd w) (Enc.shamt w) (Enc.funct w)) = w := by
  apply BitVec.eq_of_getLsbD_eq
  intro i hi
  simp only [Variant.word, Enc.opcode, Enc.rs, Enc.rt, Enc.rd, Enc.shamt, Enc.funct,
    BitVec.getLsbD_extractLsb', BitVec.getLsbD_cast, BitVec.getLsbD_append]
  repeat' split
  all_goals (rw [decide_eq_true (by omega), Bool.true_and]; congr 1; omega)

end Sys2Proof
end

