-- ==== Sys2Proof/Laws/Select.lean ====
section
/-! SUPPORT. What each level of the decoder answers: a word's variant is the word, and the instruction selected has the
variant's fields. -/

namespace Sys2Proof

/-- An encoded instruction decodes to its own variant (R63). -/
theorem decodeVariant_encode (i : Instr) : decodeVariant (encode i) = .ok i.variant := by
  cases i <;> simp [encode, Instr.variant, decodeVariant, isITypeOpcode, Enc.opSpecial, Enc.opRegimm, Enc.opJ,
      Enc.opJal, Enc.opOri, Enc.opAui,
    Enc.opCop1, Enc.opLw, Enc.opSw, Enc.opLd, Enc.opSd]

/-- A decoded variant spells its word: no bit is dropped (R61). -/
theorem decodeVariant_word {w : Word} {v : Variant} (h : decodeVariant w = .ok v) : v.word = w := by
  unfold decodeVariant at h
  split_ifs at h <;> cases h
  · exact word_rType_fields w
  · exact word_iType_fields w
  · exact word_jType_fields w
  · exact word_fpuRType_fields w

/-- An SOP word is selected with shamt 0b00010 alone (R72). -/
theorem selectSop_ok {shamt : RegIdx} {fn : BitVec 6} {x i : Instr} (h : selectSop shamt fn x = .ok i) : shamt =
    Enc.sopShamt ∧ i = x := by
  unfold selectSop at h
  split at h
  · next hs => cases h; exact ⟨hs, rfl⟩
  · cases h

/-- The instruction a funct selects has the word's fields (R72). -/
theorem selectSpecial_ok {rs rt rd shamt : RegIdx} {fn : BitVec 6} {i : Instr} (h : selectSpecial rs rt rd shamt fn =
    .ok i) :
    i.variant = .rType Enc.opSpecial rs rt rd shamt fn := by
  unfold selectSpecial at h
  by_cases hs : fn = Enc.fnAdd
  · rw [if_pos hs] at h; cases h; rw [hs]; rfl
  rw [if_neg hs] at h; clear hs
  by_cases hs : fn = Enc.fnSub
  · rw [if_pos hs] at h; cases h; rw [hs]; rfl
  rw [if_neg hs] at h; clear hs
  by_cases hs : fn = Enc.fnAnd
  · rw [if_pos hs] at h; cases h; rw [hs]; rfl
  rw [if_neg hs] at h; clear hs
  by_cases hs : fn = Enc.fnOr
  · rw [if_pos hs] at h; cases h; rw [hs]; rfl
  rw [if_neg hs] at h; clear hs
  by_cases hs : fn = Enc.fnSlt
  · rw [if_pos hs] at h; cases h; rw [hs]; rfl
  rw [if_neg hs] at h; clear hs
  by_cases hs : fn = Enc.fnSltu
  · rw [if_pos hs] at h; cases h; rw [hs]; rfl
  rw [if_neg hs] at h; clear hs
  by_cases hs : fn = Enc.fnDadd
  · rw [if_pos hs] at h; cases h; rw [hs]; rfl
  rw [if_neg hs] at h; clear hs
  by_cases hs : fn = Enc.fnDsub
  · rw [if_pos hs] at h; cases h; rw [hs]; rfl
  rw [if_neg hs] at h; clear hs
  by_cases hs : fn = Enc.fnMul
  · rw [if_pos hs] at h; obtain ⟨h1, rfl⟩ := selectSop_ok h; rw [hs, h1]; rfl
  rw [if_neg hs] at h; clear hs
  by_cases hs : fn = Enc.fnMulu
  · rw [if_pos hs] at h; obtain ⟨h1, rfl⟩ := selectSop_ok h; rw [hs, h1]; rfl
  rw [if_neg hs] at h; clear hs
  by_cases hs : fn = Enc.fnDiv
  · rw [if_pos hs] at h; obtain ⟨h1, rfl⟩ := selectSop_ok h; rw [hs, h1]; rfl
  rw [if_neg hs] at h; clear hs
  by_cases hs : fn = Enc.fnDivu
  · rw [if_pos hs] at h; obtain ⟨h1, rfl⟩ := selectSop_ok h; rw [hs, h1]; rfl
  rw [if_neg hs] at h; clear hs
  by_cases hs : fn = Enc.fnDmul
  · rw [if_pos hs] at h; obtain ⟨h1, rfl⟩ := selectSop_ok h; rw [hs, h1]; rfl
  rw [if_neg hs] at h; clear hs
  by_cases hs : fn = Enc.fnDmulu
  · rw [if_pos hs] at h; obtain ⟨h1, rfl⟩ := selectSop_ok h; rw [hs, h1]; rfl
  rw [if_neg hs] at h; clear hs
  by_cases hs : fn = Enc.fnDdiv
  · rw [if_pos hs] at h; obtain ⟨h1, rfl⟩ := selectSop_ok h; rw [hs, h1]; rfl
  rw [if_neg hs] at h; clear hs
  by_cases hs : fn = Enc.fnDdivu
  · rw [if_pos hs] at h; obtain ⟨h1, rfl⟩ := selectSop_ok h; rw [hs, h1]; rfl
  rw [if_neg hs] at h; clear hs
  cases h

/-- The instruction an I-type opcode selects has the word's fields (R71, R73). -/
theorem selectIType_ok {op : BitVec 6} {rs rt : RegIdx} {imm : BitVec 16} {i : Instr} (h : selectIType op rs rt imm =
    .ok i) :
    i.variant = .iType op rs rt imm := by
  unfold selectIType at h
  split at h
  · next hs =>
    unfold selectRegimm at h
    iterate 2 (split at h; · next h2 => (cases h; rw [hs, h2]; rfl))
    cases h
  iterate 6 (split at h; · next hs => (cases h; rw [hs]; rfl))
  cases h

/-- The instruction a J-type opcode selects has the word's target (R71). -/
theorem selectJType_ok {op : BitVec 6} {target : BitVec 26} {i : Instr} (h : selectJType op target = .ok i) :
    i.variant = .jType op target := by
  unfold selectJType at h
  iterate 2 (split at h; · next hs => (cases h; rw [hs]; rfl))
  cases h

end Sys2Proof
end

