-- ==== Sys2Proof/Laws/State.lean ====
section
/-! SUPPORT. What each one-field update of State leaves in each field. -/

namespace Sys2Proof.Machine

@[simp] theorem State.setX_x (s : State) (x : Vector Dword 32) : (s.setX x).x = x := rfl
@[simp] theorem State.setX_pc (s : State) (x : Vector Dword 32) : (s.setX x).pc = s.pc := rfl
@[simp] theorem State.setX_mem (s : State) (x : Vector Dword 32) : (s.setX x).mem = s.mem := rfl
@[simp] theorem State.setX_stage (s : State) (x : Vector Dword 32) : (s.setX x).stage = s.stage := rfl
@[simp] theorem State.setX_w (s : State) (x : Vector Dword 32) : (s.setX x).w = s.w := rfl
@[simp] theorem State.setX_instr (s : State) (x : Vector Dword 32) : (s.setX x).instr = s.instr := rfl
@[simp] theorem State.setX_ctrl (s : State) (x : Vector Dword 32) : (s.setX x).ctrl = s.ctrl := rfl
@[simp] theorem State.setX_cop (s : State) (x : Vector Dword 32) : (s.setX x).cop = s.cop := rfl
@[simp] theorem State.setX_status (s : State) (x : Vector Dword 32) : (s.setX x).status = s.status := rfl
@[simp] theorem State.setX_cfg (s : State) (x : Vector Dword 32) : (s.setX x).cfg = s.cfg := rfl
@[simp] theorem State.setX_calls (s : State) (x : Vector Dword 32) : (s.setX x).calls = s.calls := rfl
@[simp] theorem State.setX_replies (s : State) (x : Vector Dword 32) : (s.setX x).replies = s.replies := rfl

@[simp] theorem State.setPc_x (s : State) (pc : Dword) : (s.setPc pc).x = s.x := rfl
@[simp] theorem State.setPc_pc (s : State) (pc : Dword) : (s.setPc pc).pc = pc := rfl
@[simp] theorem State.setPc_mem (s : State) (pc : Dword) : (s.setPc pc).mem = s.mem := rfl
@[simp] theorem State.setPc_stage (s : State) (pc : Dword) : (s.setPc pc).stage = s.stage := rfl
@[simp] theorem State.setPc_w (s : State) (pc : Dword) : (s.setPc pc).w = s.w := rfl
@[simp] theorem State.setPc_instr (s : State) (pc : Dword) : (s.setPc pc).instr = s.instr := rfl
@[simp] theorem State.setPc_ctrl (s : State) (pc : Dword) : (s.setPc pc).ctrl = s.ctrl := rfl
@[simp] theorem State.setPc_cop (s : State) (pc : Dword) : (s.setPc pc).cop = s.cop := rfl
@[simp] theorem State.setPc_status (s : State) (pc : Dword) : (s.setPc pc).status = s.status := rfl
@[simp] theorem State.setPc_cfg (s : State) (pc : Dword) : (s.setPc pc).cfg = s.cfg := rfl
@[simp] theorem State.setPc_calls (s : State) (pc : Dword) : (s.setPc pc).calls = s.calls := rfl
@[simp] theorem State.setPc_replies (s : State) (pc : Dword) : (s.setPc pc).replies = s.replies := rfl

@[simp] theorem State.setMem_x (s : State) (m : Memory) : (s.setMem m).x = s.x := rfl
@[simp] theorem State.setMem_pc (s : State) (m : Memory) : (s.setMem m).pc = s.pc := rfl
@[simp] theorem State.setMem_mem (s : State) (m : Memory) : (s.setMem m).mem = m := rfl
@[simp] theorem State.setMem_stage (s : State) (m : Memory) : (s.setMem m).stage = s.stage := rfl
@[simp] theorem State.setMem_w (s : State) (m : Memory) : (s.setMem m).w = s.w := rfl
@[simp] theorem State.setMem_instr (s : State) (m : Memory) : (s.setMem m).instr = s.instr := rfl
@[simp] theorem State.setMem_ctrl (s : State) (m : Memory) : (s.setMem m).ctrl = s.ctrl := rfl
@[simp] theorem State.setMem_cop (s : State) (m : Memory) : (s.setMem m).cop = s.cop := rfl
@[simp] theorem State.setMem_status (s : State) (m : Memory) : (s.setMem m).status = s.status := rfl
@[simp] theorem State.setMem_cfg (s : State) (m : Memory) : (s.setMem m).cfg = s.cfg := rfl
@[simp] theorem State.setMem_calls (s : State) (m : Memory) : (s.setMem m).calls = s.calls := rfl
@[simp] theorem State.setMem_replies (s : State) (m : Memory) : (s.setMem m).replies = s.replies := rfl

@[simp] theorem State.setStage_x (s : State) (st : Stage) : (s.setStage st).x = s.x := rfl
@[simp] theorem State.setStage_pc (s : State) (st : Stage) : (s.setStage st).pc = s.pc := rfl
@[simp] theorem State.setStage_mem (s : State) (st : Stage) : (s.setStage st).mem = s.mem := rfl
@[simp] theorem State.setStage_stage (s : State) (st : Stage) : (s.setStage st).stage = st := rfl
@[simp] theorem State.setStage_w (s : State) (st : Stage) : (s.setStage st).w = s.w := rfl
@[simp] theorem State.setStage_instr (s : State) (st : Stage) : (s.setStage st).instr = s.instr := rfl
@[simp] theorem State.setStage_ctrl (s : State) (st : Stage) : (s.setStage st).ctrl = s.ctrl := rfl
@[simp] theorem State.setStage_cop (s : State) (st : Stage) : (s.setStage st).cop = s.cop := rfl
@[simp] theorem State.setStage_status (s : State) (st : Stage) : (s.setStage st).status = s.status := rfl
@[simp] theorem State.setStage_cfg (s : State) (st : Stage) : (s.setStage st).cfg = s.cfg := rfl
@[simp] theorem State.setStage_calls (s : State) (st : Stage) : (s.setStage st).calls = s.calls := rfl
@[simp] theorem State.setStage_replies (s : State) (st : Stage) : (s.setStage st).replies = s.replies := rfl

@[simp] theorem State.setWires_x (s : State) (w : Wires) : (s.setWires w).x = s.x := rfl
@[simp] theorem State.setWires_pc (s : State) (w : Wires) : (s.setWires w).pc = s.pc := rfl
@[simp] theorem State.setWires_mem (s : State) (w : Wires) : (s.setWires w).mem = s.mem := rfl
@[simp] theorem State.setWires_stage (s : State) (w : Wires) : (s.setWires w).stage = s.stage := rfl
@[simp] theorem State.setWires_w (s : State) (w : Wires) : (s.setWires w).w = w := rfl
@[simp] theorem State.setWires_instr (s : State) (w : Wires) : (s.setWires w).instr = s.instr := rfl
@[simp] theorem State.setWires_ctrl (s : State) (w : Wires) : (s.setWires w).ctrl = s.ctrl := rfl
@[simp] theorem State.setWires_cop (s : State) (w : Wires) : (s.setWires w).cop = s.cop := rfl
@[simp] theorem State.setWires_status (s : State) (w : Wires) : (s.setWires w).status = s.status := rfl
@[simp] theorem State.setWires_cfg (s : State) (w : Wires) : (s.setWires w).cfg = s.cfg := rfl
@[simp] theorem State.setWires_calls (s : State) (w : Wires) : (s.setWires w).calls = s.calls := rfl
@[simp] theorem State.setWires_replies (s : State) (w : Wires) : (s.setWires w).replies = s.replies := rfl

@[simp] theorem State.setInstr_x (s : State) (v : Option Variant) : (s.setInstr v).x = s.x := rfl
@[simp] theorem State.setInstr_pc (s : State) (v : Option Variant) : (s.setInstr v).pc = s.pc := rfl
@[simp] theorem State.setInstr_mem (s : State) (v : Option Variant) : (s.setInstr v).mem = s.mem := rfl
@[simp] theorem State.setInstr_stage (s : State) (v : Option Variant) : (s.setInstr v).stage = s.stage := rfl
@[simp] theorem State.setInstr_w (s : State) (v : Option Variant) : (s.setInstr v).w = s.w := rfl
@[simp] theorem State.setInstr_instr (s : State) (v : Option Variant) : (s.setInstr v).instr = v := rfl
@[simp] theorem State.setInstr_ctrl (s : State) (v : Option Variant) : (s.setInstr v).ctrl = s.ctrl := rfl
@[simp] theorem State.setInstr_cop (s : State) (v : Option Variant) : (s.setInstr v).cop = s.cop := rfl
@[simp] theorem State.setInstr_status (s : State) (v : Option Variant) : (s.setInstr v).status = s.status := rfl
@[simp] theorem State.setInstr_cfg (s : State) (v : Option Variant) : (s.setInstr v).cfg = s.cfg := rfl
@[simp] theorem State.setInstr_calls (s : State) (v : Option Variant) : (s.setInstr v).calls = s.calls := rfl
@[simp] theorem State.setInstr_replies (s : State) (v : Option Variant) : (s.setInstr v).replies = s.replies := rfl

@[simp] theorem State.setCtrl_x (s : State) (c : Option Ctrl) : (s.setCtrl c).x = s.x := rfl
@[simp] theorem State.setCtrl_pc (s : State) (c : Option Ctrl) : (s.setCtrl c).pc = s.pc := rfl
@[simp] theorem State.setCtrl_mem (s : State) (c : Option Ctrl) : (s.setCtrl c).mem = s.mem := rfl
@[simp] theorem State.setCtrl_stage (s : State) (c : Option Ctrl) : (s.setCtrl c).stage = s.stage := rfl
@[simp] theorem State.setCtrl_w (s : State) (c : Option Ctrl) : (s.setCtrl c).w = s.w := rfl
@[simp] theorem State.setCtrl_instr (s : State) (c : Option Ctrl) : (s.setCtrl c).instr = s.instr := rfl
@[simp] theorem State.setCtrl_ctrl (s : State) (c : Option Ctrl) : (s.setCtrl c).ctrl = c := rfl
@[simp] theorem State.setCtrl_cop (s : State) (c : Option Ctrl) : (s.setCtrl c).cop = s.cop := rfl
@[simp] theorem State.setCtrl_status (s : State) (c : Option Ctrl) : (s.setCtrl c).status = s.status := rfl
@[simp] theorem State.setCtrl_cfg (s : State) (c : Option Ctrl) : (s.setCtrl c).cfg = s.cfg := rfl
@[simp] theorem State.setCtrl_calls (s : State) (c : Option Ctrl) : (s.setCtrl c).calls = s.calls := rfl
@[simp] theorem State.setCtrl_replies (s : State) (c : Option Ctrl) : (s.setCtrl c).replies = s.replies := rfl

@[simp] theorem State.setCop_x (s : State) (c : Cop) : (s.setCop c).x = s.x := rfl
@[simp] theorem State.setCop_pc (s : State) (c : Cop) : (s.setCop c).pc = s.pc := rfl
@[simp] theorem State.setCop_mem (s : State) (c : Cop) : (s.setCop c).mem = s.mem := rfl
@[simp] theorem State.setCop_stage (s : State) (c : Cop) : (s.setCop c).stage = s.stage := rfl
@[simp] theorem State.setCop_w (s : State) (c : Cop) : (s.setCop c).w = s.w := rfl
@[simp] theorem State.setCop_instr (s : State) (c : Cop) : (s.setCop c).instr = s.instr := rfl
@[simp] theorem State.setCop_ctrl (s : State) (c : Cop) : (s.setCop c).ctrl = s.ctrl := rfl
@[simp] theorem State.setCop_cop (s : State) (c : Cop) : (s.setCop c).cop = c := rfl
@[simp] theorem State.setCop_status (s : State) (c : Cop) : (s.setCop c).status = s.status := rfl
@[simp] theorem State.setCop_cfg (s : State) (c : Cop) : (s.setCop c).cfg = s.cfg := rfl
@[simp] theorem State.setCop_calls (s : State) (c : Cop) : (s.setCop c).calls = s.calls := rfl
@[simp] theorem State.setCop_replies (s : State) (c : Cop) : (s.setCop c).replies = s.replies := rfl

@[simp] theorem State.setStatus_x (s : State) (st : Status) : (s.setStatus st).x = s.x := rfl
@[simp] theorem State.setStatus_pc (s : State) (st : Status) : (s.setStatus st).pc = s.pc := rfl
@[simp] theorem State.setStatus_mem (s : State) (st : Status) : (s.setStatus st).mem = s.mem := rfl
@[simp] theorem State.setStatus_stage (s : State) (st : Status) : (s.setStatus st).stage = s.stage := rfl
@[simp] theorem State.setStatus_w (s : State) (st : Status) : (s.setStatus st).w = s.w := rfl
@[simp] theorem State.setStatus_instr (s : State) (st : Status) : (s.setStatus st).instr = s.instr := rfl
@[simp] theorem State.setStatus_ctrl (s : State) (st : Status) : (s.setStatus st).ctrl = s.ctrl := rfl
@[simp] theorem State.setStatus_cop (s : State) (st : Status) : (s.setStatus st).cop = s.cop := rfl
@[simp] theorem State.setStatus_status (s : State) (st : Status) : (s.setStatus st).status = st := rfl
@[simp] theorem State.setStatus_cfg (s : State) (st : Status) : (s.setStatus st).cfg = s.cfg := rfl
@[simp] theorem State.setStatus_calls (s : State) (st : Status) : (s.setStatus st).calls = s.calls := rfl
@[simp] theorem State.setStatus_replies (s : State) (st : Status) : (s.setStatus st).replies = s.replies := rfl

@[simp] theorem State.setCalls_x (s : State) (cs : List HostCall) : (s.setCalls cs).x = s.x := rfl
@[simp] theorem State.setCalls_pc (s : State) (cs : List HostCall) : (s.setCalls cs).pc = s.pc := rfl
@[simp] theorem State.setCalls_mem (s : State) (cs : List HostCall) : (s.setCalls cs).mem = s.mem := rfl
@[simp] theorem State.setCalls_stage (s : State) (cs : List HostCall) : (s.setCalls cs).stage = s.stage := rfl
@[simp] theorem State.setCalls_w (s : State) (cs : List HostCall) : (s.setCalls cs).w = s.w := rfl
@[simp] theorem State.setCalls_instr (s : State) (cs : List HostCall) : (s.setCalls cs).instr = s.instr := rfl
@[simp] theorem State.setCalls_ctrl (s : State) (cs : List HostCall) : (s.setCalls cs).ctrl = s.ctrl := rfl
@[simp] theorem State.setCalls_cop (s : State) (cs : List HostCall) : (s.setCalls cs).cop = s.cop := rfl
@[simp] theorem State.setCalls_status (s : State) (cs : List HostCall) : (s.setCalls cs).status = s.status := rfl
@[simp] theorem State.setCalls_cfg (s : State) (cs : List HostCall) : (s.setCalls cs).cfg = s.cfg := rfl
@[simp] theorem State.setCalls_calls (s : State) (cs : List HostCall) : (s.setCalls cs).calls = cs := rfl
@[simp] theorem State.setCalls_replies (s : State) (cs : List HostCall) : (s.setCalls cs).replies = s.replies := rfl

@[simp] theorem State.addReply_x (s : State) (r : Reply) : (s.addReply r).x = s.x := rfl
@[simp] theorem State.addReply_pc (s : State) (r : Reply) : (s.addReply r).pc = s.pc := rfl
@[simp] theorem State.addReply_mem (s : State) (r : Reply) : (s.addReply r).mem = s.mem := rfl
@[simp] theorem State.addReply_stage (s : State) (r : Reply) : (s.addReply r).stage = s.stage := rfl
@[simp] theorem State.addReply_w (s : State) (r : Reply) : (s.addReply r).w = s.w := rfl
@[simp] theorem State.addReply_instr (s : State) (r : Reply) : (s.addReply r).instr = s.instr := rfl
@[simp] theorem State.addReply_ctrl (s : State) (r : Reply) : (s.addReply r).ctrl = s.ctrl := rfl
@[simp] theorem State.addReply_cop (s : State) (r : Reply) : (s.addReply r).cop = s.cop := rfl
@[simp] theorem State.addReply_status (s : State) (r : Reply) : (s.addReply r).status = s.status := rfl
@[simp] theorem State.addReply_cfg (s : State) (r : Reply) : (s.addReply r).cfg = s.cfg := rfl
@[simp] theorem State.addReply_calls (s : State) (r : Reply) : (s.addReply r).calls = s.calls := rfl
@[simp] theorem State.addReply_replies (s : State) (r : Reply) : (s.addReply r).replies = r :: s.replies := rfl

end Sys2Proof.Machine
end

