-- ==== Sys2Proof/Laws/Ops.lean ====
section
/-! SUPPORT. What each shared operation over registers, memory and the coprocessor does. -/

namespace Sys2Proof.Machine

/-! ### Outcomes -/

@[simp] theorem andThen_next (s : State) (f : State → Out) : andThen (.next s) f = f s := rfl

@[simp] theorem andThen_fault (r : Fault) (f : State → Out) : andThen (.fault r) f = .fault r := rfl

@[simp] theorem andThen_refused (r : Refusal) (f : State → Out) : andThen (.refused r) f = .refused r := rfl

theorem andThen_eq_next {o : Out} {f : State → Out} {t : State} (h : andThen o f = .next t) :
    ∃ u, o = .next u ∧ f u = .next t := by
  cases o with
  | next u => exact ⟨u, rfl, h⟩
  | fault r => simp at h
  | refused r => simp at h

theorem andThen_assoc (o : Out) (f g : State → Out) :
    andThen (andThen o f) g = andThen o (fun s => andThen (f s) g) := by
  cases o <;> rfl

@[simp] theorem need_some {α : Type} (a : α) (wire : Wire) (k : α → Out) : need (some a) wire k = k a := rfl

@[simp] theorem need_none {α : Type} (wire : Wire) (k : α → Out) : need none wire k = .fault (.unwritten wire) := rfl

theorem need_eq_next {α : Type} {v : Option α} {wire : Wire} {k : α → Out} {t : State} (h : need v wire k = .next t) :
    ∃ a, v = some a ∧ k a = .next t := by
  cases v with
  | none => simp at h
  | some a => exact ⟨a, rfl, h⟩

/-! ### General registers -/

@[simp] theorem gpr_zero (s : State) : gpr s 0#5 = 0#64 := by simp [gpr]

/-- A read depends on the register file alone. -/
theorem gpr_of_x_eq {s t : State} (h : t.x = s.x) (r : RegIdx) : gpr t r = gpr s r := by simp [gpr, h]

@[simp] theorem gpr_setPc (s : State) (v : Dword) (r : RegIdx) : gpr (s.setPc v) r = gpr s r := rfl
@[simp] theorem gpr_setMem (s : State) (m : Memory) (r : RegIdx) : gpr (s.setMem m) r = gpr s r := rfl
@[simp] theorem gpr_setStage (s : State) (st : Stage) (r : RegIdx) : gpr (s.setStage st) r = gpr s r := rfl
@[simp] theorem gpr_setWires (s : State) (w : Wires) (r : RegIdx) : gpr (s.setWires w) r = gpr s r := rfl
@[simp] theorem gpr_setInstr (s : State) (v : Option Variant) (r : RegIdx) : gpr (s.setInstr v) r = gpr s r := rfl
@[simp] theorem gpr_setCtrl (s : State) (c : Option Ctrl) (r : RegIdx) : gpr (s.setCtrl c) r = gpr s r := rfl
@[simp] theorem gpr_setCop (s : State) (c : Cop) (r : RegIdx) : gpr (s.setCop c) r = gpr s r := rfl
@[simp] theorem gpr_setStatus (s : State) (st : Status) (r : RegIdx) : gpr (s.setStatus st) r = gpr s r := rfl
@[simp] theorem gpr_setCalls (s : State) (cs : List HostCall) (r : RegIdx) : gpr (s.setCalls cs) r = gpr s r := rfl
@[simp] theorem gpr_addReply (s : State) (p : Reply) (r : RegIdx) : gpr (s.addReply p) r = gpr s r := rfl

/-- R10, R22: what a register write does to every read. -/
theorem gpr_setGpr (s : State) (d : RegIdx) (v : Dword) (r : RegIdx) :
    gpr (setGpr d v s) r = if r = d ∧ r ≠ 0#5 then v else gpr s r := by
  unfold setGpr gpr
  by_cases hd : d = 0#5
  · subst hd; by_cases hr : r = 0#5 <;> simp [hr]
  by_cases hr : r = 0#5
  · simp [hr]
  by_cases hrd : r = d
  · subst hrd; simp [hr]
  · have : d.toNat ≠ r.toNat := fun h => hrd (BitVec.eq_of_toNat_eq h.symm)
    simp [hd, hr, hrd, Vector.getElem_set_ne, this]

/-- A register write touches the register file alone. -/
theorem setGpr_eq_setX (d : RegIdx) (v : Dword) (s : State) : ∃ x, setGpr d v s = s.setX x := by
  unfold setGpr
  split
  · exact ⟨s.x, rfl⟩
  · exact ⟨_, rfl⟩

@[simp] theorem setGpr_pc (d : RegIdx) (v : Dword) (s : State) : (setGpr d v s).pc = s.pc := by
  unfold setGpr; split <;> rfl
@[simp] theorem setGpr_mem (d : RegIdx) (v : Dword) (s : State) : (setGpr d v s).mem = s.mem := by
  unfold setGpr; split <;> rfl
@[simp] theorem setGpr_stage (d : RegIdx) (v : Dword) (s : State) : (setGpr d v s).stage = s.stage := by
  unfold setGpr; split <;> rfl
@[simp] theorem setGpr_w (d : RegIdx) (v : Dword) (s : State) : (setGpr d v s).w = s.w := by
  unfold setGpr; split <;> rfl
@[simp] theorem setGpr_instr (d : RegIdx) (v : Dword) (s : State) : (setGpr d v s).instr = s.instr := by
  unfold setGpr; split <;> rfl
@[simp] theorem setGpr_ctrl (d : RegIdx) (v : Dword) (s : State) : (setGpr d v s).ctrl = s.ctrl := by
  unfold setGpr; split <;> rfl
@[simp] theorem setGpr_cop (d : RegIdx) (v : Dword) (s : State) : (setGpr d v s).cop = s.cop := by
  unfold setGpr; split <;> rfl
@[simp] theorem setGpr_status (d : RegIdx) (v : Dword) (s : State) : (setGpr d v s).status = s.status := by
  unfold setGpr; split <;> rfl
@[simp] theorem setGpr_cfg (d : RegIdx) (v : Dword) (s : State) : (setGpr d v s).cfg = s.cfg := by
  unfold setGpr; split <;> rfl
@[simp] theorem setGpr_calls (d : RegIdx) (v : Dword) (s : State) : (setGpr d v s).calls = s.calls := by
  unfold setGpr; split <;> rfl
@[simp] theorem setGpr_replies (d : RegIdx) (v : Dword) (s : State) : (setGpr d v s).replies = s.replies := by
  unfold setGpr; split <;> rfl

/-- The stored x[0] is never written by a register write (R22). -/
theorem setGpr_x_zero (d : RegIdx) (v : Dword) (s : State) : (setGpr d v s).x[0] = s.x[0] := by
  unfold setGpr
  split
  · rfl
  · rename_i h
    have : d.toNat ≠ 0 := fun e => h (BitVec.eq_of_toNat_eq e)
    simp [Vector.getElem_set_ne, this]

/-! ### Memory bytes -/

/-- A byte write leaves every other address as it reads. -/
theorem readByte_writeByte_ne {m : Memory} {a b : Nat} {v : Byte} (h : b ≠ a) :
    readByte (writeByte m a v) b = readByte m b := by
  induction m with
  | nil => unfold writeByte; split <;> simp [readByte, h.symm]
  | cons p m ih =>
    obtain ⟨k, c⟩ := p
    simp only [writeByte]
    split
    · split <;> simp [readByte, h.symm]
    · split
      · rename_i hk; subst hk; split <;> simp [readByte, h.symm]
      · simp only [readByte, ih]

/-- Below the least listed address, memory reads as unlisted. -/
theorem readByte_of_lt {m : Memory} {a : Nat} (h : ∀ p ∈ m, a < p.1) : readByte m a = unlistedByte := by
  induction m with
  | nil => rfl
  | cons p m ih =>
    obtain ⟨k, c⟩ := p
    have hk : a < k := h (k, c) (by simp)
    have : ¬ k = a := by omega
    simp only [readByte, this, if_false]
    exact ih fun q hq => h q (by simp [hq])

/-- A byte written reads back, in canonical memory. -/
theorem readByte_writeByte_self {m : Memory} (hm : m.Pairwise (fun p q => p.1 < q.1)) (a : Nat) (v : Byte) :
    readByte (writeByte m a v) a = v := by
  induction m with
  | nil => unfold writeByte; split <;> simp_all [readByte]
  | cons p m ih =>
    obtain ⟨k, c⟩ := p
    rw [List.pairwise_cons] at hm
    simp only [writeByte]
    split
    · rename_i hk
      split
      · rename_i hv; subst hv
        refine readByte_of_lt ?_
        intro q hq
        rcases List.mem_cons.1 hq with rfl | hq
        · exact hk
        · exact lt_trans hk (hm.1 q hq)
      · simp [readByte]
    · split
      · rename_i hk; subst hk
        split
        · rename_i hv; subst hv; exact readByte_of_lt hm.1
        · simp [readByte]
      · rename_i hk
        have : ¬ k = a := fun e => hk e.symm
        simp only [readByte, this, if_false]
        exact ih hm.2

theorem mem_writeByte {m : Memory} {a : Nat} {v : Byte} {p : Host.Cell} (h : p ∈ writeByte m a v) :
    p ∈ m ∨ (p = (a, v) ∧ v ≠ unlistedByte) := by
  induction m with
  | nil => unfold writeByte at h; split at h <;> simp_all
  | cons q m ih =>
    obtain ⟨k, c⟩ := q
    simp only [writeByte] at h
    split at h
    · split at h
      · exact .inl h
      · rcases List.mem_cons.1 h with h | h
        · exact .inr ⟨h, ‹_›⟩
        · exact .inl h
    · split at h
      · split at h
        · exact .inl (List.mem_cons_of_mem _ h)
        · rcases List.mem_cons.1 h with h | h
          · exact .inr ⟨h, ‹_›⟩
          · exact .inl (List.mem_cons_of_mem _ h)
      · rcases List.mem_cons.1 h with h | h
        · exact .inl (h ▸ List.mem_cons_self ..)
        · rcases ih h with h | h
          · exact .inl (List.mem_cons_of_mem _ h)
          · exact .inr h

/-- A byte write keeps the canonical form. -/
theorem writeByte_wf {m : Memory} (hm : Memory.wf m) (a : Nat) (v : Byte) : Memory.wf (writeByte m a v) := by
  refine ⟨?_, ?_⟩
  · obtain ⟨hp, -⟩ := hm
    induction m with
    | nil => unfold writeByte; split <;> simp
    | cons q m ih =>
      obtain ⟨k, c⟩ := q
      have hp' := List.pairwise_cons.1 hp
      simp only [writeByte]
      split
      · rename_i hk
        split
        · exact hp
        · refine List.pairwise_cons.2 ⟨?_, hp⟩
          intro r hr
          rcases List.mem_cons.1 hr with rfl | hr
          · exact hk
          · exact lt_trans hk (hp'.1 r hr)
      · split
        · rename_i hk; subst hk
          split
          · exact hp'.2
          · exact List.pairwise_cons.2 ⟨hp'.1, hp'.2⟩
        · rename_i h1 h2
          refine List.pairwise_cons.2 ⟨?_, ih hp'.2⟩
          intro r hr
          rcases mem_writeByte hr with hr | ⟨rfl, -⟩
          · exact hp'.1 r hr
          · show k < a; omega
  · intro p hp
    rcases mem_writeByte hp with hp | ⟨rfl, hv⟩
    · exact hm.2 p hp
    · exact hv

/-- A byte write in range keeps memory in range. -/
theorem writeByte_within {size : Nat} {m : Memory} (hm : Memory.within size m) {a : Nat} (ha : a < size) (v : Byte) :
    Memory.within size (writeByte m a v) := by
  intro p hp
  rcases mem_writeByte hp with hp | ⟨rfl, -⟩
  · exact hm p hp
  · exact ha

theorem writeBytes_wf {bs : List Byte} : ∀ {m : Memory}, Memory.wf m → ∀ a, Memory.wf (writeBytes m a bs) := by
  induction bs with
  | nil => intro m hm a; exact hm
  | cons b bs ih => intro m hm a; exact ih (writeByte_wf hm a b) (a + 1)

theorem writeBytes_within {size : Nat} {bs : List Byte} :
    ∀ {m : Memory}, Memory.within size m → ∀ {a}, a + bs.length ≤ size → Memory.within size (writeBytes m a bs) := by
  induction bs with
  | nil => intro m hm a _; exact hm
  | cons b bs ih =>
    intro m hm a ha
    rw [List.length_cons] at ha
    exact ih (writeByte_within hm (by omega) b) (by omega)

/-- A store of bytes leaves every address outside them as it reads. -/
theorem readByte_writeBytes_outside {bs : List Byte} :
    ∀ {m : Memory} {a b : Nat}, (b < a ∨ a + bs.length ≤ b) → readByte (writeBytes m a bs) b = readByte m b := by
  induction bs with
  | nil => intros; rfl
  | cons c bs ih =>
    intro m a b h
    rw [List.length_cons] at h
    simp only [writeBytes]
    rw [ih (by omega), readByte_writeByte_ne (by omega)]

/-- Every byte of a store reads back, in canonical memory. -/
theorem readByte_writeBytes {bs : List Byte} :
    ∀ {m : Memory}, Memory.wf m → ∀ (a : Nat) {k : Nat} (hk : k < bs.length),
      readByte (writeBytes m a bs) (a + k) = bs[k] := by
  induction bs with
  | nil => intro m _ a k hk; simp at hk
  | cons c bs ih =>
    intro m hm a k hk
    simp only [writeBytes]
    cases k with
    | zero => rw [readByte_writeBytes_outside (by omega)]; simp [readByte_writeByte_self hm.1]
    | succ k =>
      rw [List.length_cons] at hk
      rw [show a + (k + 1) = (a + 1) + k by omega, ih (writeByte_wf hm a c) (a + 1) (by omega)]
      simp

/-! ### Accesses -/

@[simp] theorem wordBytes_length (v : Word) : (wordBytes v).length = 4 := rfl
@[simp] theorem dwordBytes_length (v : Dword) : (dwordBytes v).length = 8 := rfl

/-- An admitted access lies in memory (R43). -/
theorem memOk_range {cfg : MemConfig} {a n : Nat} (h : memOk cfg a n = true) : a + n ≤ cfg.size := by
  simp only [memOk, Bool.and_eq_true, decide_eq_true_eq] at h
  exact h.1.1

/-- The bytes of a word, put together again (R42). -/
theorem wordOfBytes_bytes (v : Word) :
    wordOfBytes (v.extractLsb' 24 8) (v.extractLsb' 16 8) (v.extractLsb' 8 8) (v.extractLsb' 0 8) = v := by
  apply BitVec.eq_of_getLsbD_eq
  intro i hi
  simp only [wordOfBytes, BitVec.getLsbD_cast, BitVec.getLsbD_append, BitVec.getLsbD_extractLsb']
  repeat' split
  all_goals (rw [decide_eq_true (by omega), Bool.true_and]; congr 1; omega)

/-- The bytes of a doubleword, put together again (R42). -/
theorem dwordOfBytes_bytes (v : Dword) :
    dwordOfBytes (v.extractLsb' 56 8) (v.extractLsb' 48 8) (v.extractLsb' 40 8) (v.extractLsb' 32 8)
      (v.extractLsb' 24 8) (v.extractLsb' 16 8) (v.extractLsb' 8 8) (v.extractLsb' 0 8) = v := by
  apply BitVec.eq_of_getLsbD_eq
  intro i hi
  simp only [dwordOfBytes, BitVec.getLsbD_cast, BitVec.getLsbD_append, BitVec.getLsbD_extractLsb']
  repeat' split
  all_goals (rw [decide_eq_true (by omega), Bool.true_and]; congr 1; omega)

/-- R42: a word read at the address of a word store gives the word stored. -/
theorem readWord_writeBytes {m : Memory} (hm : Memory.wf m) (a : Nat) (v : Word) :
    readWord (writeBytes m a (wordBytes v)) a = v := by
  have h : ∀ k (hk : k < (wordBytes v).length), readByte (writeBytes m a (wordBytes v)) (a + k) = (wordBytes v)[k] :=
    fun k hk => readByte_writeBytes hm a hk
  have h0 := h 0 (by simp); have h1 := h 1 (by simp); have h2 := h 2 (by simp); have h3 := h 3 (by simp)
  simp only [Nat.add_zero] at h0
  rw [readWord, h0, h1, h2, h3]
  exact wordOfBytes_bytes v

/-- R42: a doubleword read at the address of a doubleword store gives the doubleword stored. -/
theorem readDword_writeBytes {m : Memory} (hm : Memory.wf m) (a : Nat) (v : Dword) :
    readDword (writeBytes m a (dwordBytes v)) a = v := by
  have h : ∀ k (hk : k < (dwordBytes v).length), readByte (writeBytes m a (dwordBytes v)) (a + k) = (dwordBytes v)[k] :=
    fun k hk => readByte_writeBytes hm a hk
  have h0 := h 0 (by simp); have h1 := h 1 (by simp); have h2 := h 2 (by simp); have h3 := h 3 (by simp)
  have h4 := h 4 (by simp); have h5 := h 5 (by simp); have h6 := h 6 (by simp); have h7 := h 7 (by simp)
  simp only [Nat.add_zero] at h0
  rw [readDword, h0, h1, h2, h3, h4, h5, h6, h7]
  exact dwordOfBytes_bytes v

/-- A store of either width is a change of memory alone, in range, or nothing (R47). -/
theorem storeValue_cases (width : RegWidth) (a v : Dword) (s : State) :
    (memOk s.cfg a.toNat width.bytes = false ∧ storeValue width a v s = s) ∨
    (memOk s.cfg a.toNat width.bytes = true ∧ ∃ bs : List Byte, bs.length = width.bytes ∧
      bs = (match width with | .word => wordBytes (v.setWidth 32) | .doubleWord => dwordBytes v) ∧
      storeValue width a v s = s.setMem (writeBytes s.mem a.toNat bs)) := by
  cases width
  · cases h : memOk s.cfg a.toNat 4
    · exact .inl ⟨h, by simp [storeValue, memWrite4, h]⟩
    · exact .inr ⟨h, _, rfl, rfl, by simp [storeValue, memWrite4, h]⟩
  · cases h : memOk s.cfg a.toNat 8
    · exact .inl ⟨h, by simp [storeValue, memWrite8, h]⟩
    · exact .inr ⟨h, _, rfl, rfl, by simp [storeValue, memWrite8, h]⟩

/-- A store changes memory alone. -/
theorem storeValue_eq_setMem (width : RegWidth) (a v : Dword) (s : State) :
    ∃ m, storeValue width a v s = s.setMem m ∧ (Memory.wf s.mem → Memory.wf m) ∧
      (Memory.within s.cfg.size s.mem → Memory.within s.cfg.size m) := by
  rcases storeValue_cases width a v s with ⟨-, h⟩ | ⟨hok, bs, hlen, -, h⟩
  · exact ⟨s.mem, h, id, id⟩
  · refine ⟨_, h, fun hm => writeBytes_wf hm _, fun hw => writeBytes_within hw ?_⟩
    rw [hlen]; exact memOk_range hok

/-! ### The coprocessor -/

@[simp] theorem Cop.see_null (e : CopEvent) : Cop.see e .null = .null := rfl
@[simp] theorem Cop.dataWrite_null : Cop.dataWrite .null = false := rfl

@[simp] theorem hook_x (e : CopEvent) (s : State) : (hook e s).x = s.x := rfl
@[simp] theorem hook_pc (e : CopEvent) (s : State) : (hook e s).pc = s.pc := rfl
@[simp] theorem hook_mem (e : CopEvent) (s : State) : (hook e s).mem = s.mem := rfl
@[simp] theorem hook_stage (e : CopEvent) (s : State) : (hook e s).stage = s.stage := rfl
@[simp] theorem hook_w (e : CopEvent) (s : State) : (hook e s).w = s.w := rfl
@[simp] theorem hook_instr (e : CopEvent) (s : State) : (hook e s).instr = s.instr := rfl
@[simp] theorem hook_ctrl (e : CopEvent) (s : State) : (hook e s).ctrl = s.ctrl := rfl
@[simp] theorem hook_cop (e : CopEvent) (s : State) : (hook e s).cop = s.cop.see e := rfl
@[simp] theorem hook_status (e : CopEvent) (s : State) : (hook e s).status = s.status := rfl
@[simp] theorem hook_cfg (e : CopEvent) (s : State) : (hook e s).cfg = s.cfg := rfl
@[simp] theorem hook_calls (e : CopEvent) (s : State) : (hook e s).calls = s.calls := rfl
@[simp] theorem hook_replies (e : CopEvent) (s : State) : (hook e s).replies = s.replies := rfl
@[simp] theorem gpr_hook (e : CopEvent) (s : State) (r : RegIdx) : gpr (hook e s) r = gpr s r := rfl

/-! ### Launch -/

theorem initialMemory_wf (size : Nat) (cells : List Host.Cell) :
    Memory.wf (initialMemory size cells) ∧ Memory.within size (initialMemory size cells) := by
  unfold initialMemory
  suffices h : ∀ m : Memory, Memory.wf m ∧ Memory.within size m →
      Memory.wf (cells.foldl (fun m p => if p.1 < size then writeByte m p.1 p.2 else m) m) ∧
      Memory.within size (cells.foldl (fun m p => if p.1 < size then writeByte m p.1 p.2 else m) m) from
    h [] ⟨⟨List.Pairwise.nil, by simp⟩, by simp⟩
  induction cells with
  | nil => intro m hm; exact hm
  | cons p cells ih =>
    intro m hm
    rw [List.foldl_cons]
    refine ih _ ?_
    show _ ∧ _
    split
    · exact ⟨writeByte_wf hm.1 _ _, writeByte_within hm.2 ‹_› _⟩
    · exact hm

/-- The memory of State.reset has the canonical form. -/
theorem reset_mem_wf : Memory.wf State.reset.mem := by decide

/-- State.reset is the launch under the common premises. -/
theorem launch_common : launch commonLaunch = State.reset := by decide

end Sys2Proof.Machine
end

