-- ==== Sys2Proof/Laws/Stages.lean ====
section
/-! SUPPORT. What each stage's work can do, and what a whole instruction does. -/

namespace Sys2Proof.Machine

@[simp] theorem withAlu_aluControl (c : Ctrl) (a : AluControl) : (withAlu c a).aluControl = some a := rfl
@[simp] theorem withAlu_aluSrc (c : Ctrl) (a : AluControl) : (withAlu c a).aluSrc = c.aluSrc := rfl
@[simp] theorem withAlu_immShift (c : Ctrl) (a : AluControl) : (withAlu c a).immShift = c.immShift := rfl
@[simp] theorem withAlu_memRead (c : Ctrl) (a : AluControl) : (withAlu c a).memRead = c.memRead := rfl
@[simp] theorem withAlu_memWrite (c : Ctrl) (a : AluControl) : (withAlu c a).memWrite = c.memWrite := rfl
@[simp] theorem withAlu_memWriteSrc (c : Ctrl) (a : AluControl) : (withAlu c a).memWriteSrc = c.memWriteSrc := rfl
@[simp] theorem withAlu_memToReg (c : Ctrl) (a : AluControl) : (withAlu c a).memToReg = c.memToReg := rfl
@[simp] theorem withAlu_regDst (c : Ctrl) (a : AluControl) : (withAlu c a).regDst = c.regDst := rfl
@[simp] theorem withAlu_regWidth (c : Ctrl) (a : AluControl) : (withAlu c a).regWidth = c.regWidth := rfl
@[simp] theorem withAlu_regWrite (c : Ctrl) (a : AluControl) : (withAlu c a).regWrite = c.regWrite := rfl

/-! ### Reads that depend on few fields -/

theorem readReg_of_x_eq {s t : State} (h : t.x = s.x) (width : RegWidth) (r : RegIdx) :
    readReg width t r = readReg width s r := by
  cases width <;> simp [readReg, gpr_of_x_eq h]

theorem loadValue_of_mem_eq {s t : State} (hm : t.mem = s.mem) (hc : t.cfg = s.cfg) (width : RegWidth) (a : Dword) :
    loadValue width a t = loadValue width a s := by
  cases width <;> simp [loadValue, memRead4, memRead8, hm, hc]

theorem storeValue_mem_of_mem_eq {s t : State} (hm : t.mem = s.mem) (hc : t.cfg = s.cfg) (width : RegWidth)
    (a v : Dword) : (storeValue width a v t).mem = (storeValue width a v s).mem := by
  cases width
  · simp only [storeValue, memWrite4, hm, hc]; split <;> simp [hm]
  · simp only [storeValue, memWrite8, hm, hc]; split <;> simp [hm]

/-- A store is a change of memory alone. -/
theorem storeValue_eq (width : RegWidth) (a v : Dword) (s : State) :
    storeValue width a v s = s.setMem (storeValue width a v s).mem := by
  obtain ⟨m, h, -⟩ := storeValue_eq_setMem width a v s
  rw [h]; rfl

/-! ### IF and ID -/

@[simp] theorem latchFetch_x (word : Word) (s : State) : (latchFetch word s).x = s.x := rfl
@[simp] theorem latchFetch_pc (word : Word) (s : State) : (latchFetch word s).pc = s.pc := rfl
@[simp] theorem latchFetch_mem (word : Word) (s : State) : (latchFetch word s).mem = s.mem := rfl
@[simp] theorem latchFetch_stage (word : Word) (s : State) : (latchFetch word s).stage = s.stage := rfl
@[simp] theorem latchFetch_w (word : Word) (s : State) :
    (latchFetch word s).w = { Wires.bottom with instruction := some word } := rfl
@[simp] theorem latchFetch_cop (word : Word) (s : State) : (latchFetch word s).cop = s.cop.see (.fetch word) := rfl
@[simp] theorem latchFetch_status (word : Word) (s : State) : (latchFetch word s).status = s.status := rfl
@[simp] theorem latchFetch_cfg (word : Word) (s : State) : (latchFetch word s).cfg = s.cfg := rfl
@[simp] theorem latchFetch_calls (word : Word) (s : State) : (latchFetch word s).calls = s.calls := rfl
@[simp] theorem latchFetch_replies (word : Word) (s : State) : (latchFetch word s).replies = s.replies := rfl

@[simp] theorem readReg_latchFetch (word : Word) (s : State) (width : RegWidth) (r : RegIdx) :
    readReg width (latchFetch word s) r = readReg width s r := readReg_of_x_eq rfl width r

@[simp] theorem latchFields_x (v : Variant) (word : Word) (s : State) : (latchFields v word s).x = s.x := rfl
@[simp] theorem latchFields_pc (v : Variant) (word : Word) (s : State) : (latchFields v word s).pc = s.pc := rfl
@[simp] theorem latchFields_mem (v : Variant) (word : Word) (s : State) : (latchFields v word s).mem = s.mem := rfl
@[simp] theorem latchFields_stage (v : Variant) (word : Word) (s : State) : (latchFields v word s).stage = s.stage := rfl
@[simp] theorem latchFields_status (v : Variant) (word : Word) (s : State) : (latchFields v word s).status = s.status := rfl
@[simp] theorem latchFields_cfg (v : Variant) (word : Word) (s : State) : (latchFields v word s).cfg = s.cfg := rfl
@[simp] theorem latchFields_calls (v : Variant) (word : Word) (s : State) : (latchFields v word s).calls = s.calls := rfl
@[simp] theorem latchFields_replies (v : Variant) (word : Word) (s : State) : (latchFields v word s).replies = s.replies := rfl
@[simp] theorem latchFields_cop (v : Variant) (word : Word) (s : State) :
    (latchFields v word s).cop = s.cop := rfl
@[simp] theorem latchFields_ctrl (v : Variant) (word : Word) (s : State) :
    (latchFields v word s).ctrl = s.ctrl := rfl
@[simp] theorem latchFields_instr (v : Variant) (word : Word) (s : State) :
    (latchFields v word s).instr = some v := rfl
@[simp] theorem readReg_latchFields (v : Variant) (word : Word) (s : State) (width : RegWidth) (r : RegIdx) :
    readReg width (latchFields v word s) r = readReg width s r := readReg_of_x_eq rfl width r

@[simp] theorem latchOperands_x (c : Ctrl) (word : Word) (s : State) : (latchOperands c word s).x = s.x := rfl
@[simp] theorem latchOperands_pc (c : Ctrl) (word : Word) (s : State) : (latchOperands c word s).pc = s.pc := rfl
@[simp] theorem latchOperands_mem (c : Ctrl) (word : Word) (s : State) : (latchOperands c word s).mem = s.mem := rfl
@[simp] theorem latchOperands_stage (c : Ctrl) (word : Word) (s : State) : (latchOperands c word s).stage = s.stage := rfl
@[simp] theorem latchOperands_status (c : Ctrl) (word : Word) (s : State) : (latchOperands c word s).status = s.status := rfl
@[simp] theorem latchOperands_cfg (c : Ctrl) (word : Word) (s : State) : (latchOperands c word s).cfg = s.cfg := rfl
@[simp] theorem latchOperands_calls (c : Ctrl) (word : Word) (s : State) : (latchOperands c word s).calls = s.calls := rfl
@[simp] theorem latchOperands_replies (c : Ctrl) (word : Word) (s : State) : (latchOperands c word s).replies = s.replies := rfl
@[simp] theorem latchOperands_cop (c : Ctrl) (word : Word) (s : State) :
    (latchOperands c word s).cop = s.cop := rfl
@[simp] theorem latchOperands_ctrl (c : Ctrl) (word : Word) (s : State) :
    (latchOperands c word s).ctrl = some c := rfl
@[simp] theorem latchOperands_instr (c : Ctrl) (word : Word) (s : State) :
    (latchOperands c word s).instr = s.instr := rfl
@[simp] theorem readReg_latchOperands (c : Ctrl) (word : Word) (s : State) (width : RegWidth) (r : RegIdx) :
    readReg width (latchOperands c word s) r = readReg width s r := readReg_of_x_eq rfl width r

@[simp] theorem latchAluControl_x (c : Ctrl) (a : AluControl) (word : Word) (s : State) : (latchAluControl c a word s).x = s.x := rfl
@[simp] theorem latchAluControl_pc (c : Ctrl) (a : AluControl) (word : Word) (s : State) : (latchAluControl c a word s).pc = s.pc := rfl
@[simp] theorem latchAluControl_mem (c : Ctrl) (a : AluControl) (word : Word) (s : State) : (latchAluControl c a word s).mem = s.mem := rfl
@[simp] theorem latchAluControl_stage (c : Ctrl) (a : AluControl) (word : Word) (s : State) : (latchAluControl c a word s).stage = s.stage := rfl
@[simp] theorem latchAluControl_status (c : Ctrl) (a : AluControl) (word : Word) (s : State) : (latchAluControl c a word s).status = s.status := rfl
@[simp] theorem latchAluControl_cfg (c : Ctrl) (a : AluControl) (word : Word) (s : State) : (latchAluControl c a word s).cfg = s.cfg := rfl
@[simp] theorem latchAluControl_calls (c : Ctrl) (a : AluControl) (word : Word) (s : State) : (latchAluControl c a word s).calls = s.calls := rfl
@[simp] theorem latchAluControl_replies (c : Ctrl) (a : AluControl) (word : Word) (s : State) : (latchAluControl c a word s).replies = s.replies := rfl
@[simp] theorem latchAluControl_cop (c : Ctrl) (a : AluControl) (word : Word) (s : State) :
    (latchAluControl c a word s).cop = s.cop.see (.decode (readReg c.regWidth s (Enc.rt word))) := rfl
@[simp] theorem latchAluControl_ctrl (c : Ctrl) (a : AluControl) (word : Word) (s : State) :
    (latchAluControl c a word s).ctrl = some (withAlu c a) := rfl
@[simp] theorem latchAluControl_instr (c : Ctrl) (a : AluControl) (word : Word) (s : State) :
    (latchAluControl c a word s).instr = s.instr := rfl
@[simp] theorem latchAluControl_w (c : Ctrl) (a : AluControl) (word : Word) (s : State) :
    (latchAluControl c a word s).w = s.w := rfl
@[simp] theorem readReg_latchAluControl (c : Ctrl) (a : AluControl) (word : Word) (s : State) (width : RegWidth) (r : RegIdx) :
    readReg width (latchAluControl c a word s) r = readReg width s r := readReg_of_x_eq rfl width r

/-- What the work of ID can do: latch a decoded instruction, or raise Fatal; it writes no register, pc or memory (R176). -/
theorem decodeWork_cases (s : State) (word : Word) (h : s.w.instruction = some word) :
    (∃ v c a, decodeVariant word = .ok v ∧ ctrlPrimary v = .ok c ∧ aluControlOf c v = .ok a ∧
      decodeWork s = .next (latchAluControl c a word (latchOperands c word (latchFields v word s)))) ∨
    (∃ info t, decodeWork s = .next (raiseFatal info t) ∧
      ((decodeVariant word = .error info ∧ t = s) ∨
       (∃ v, decodeVariant word = .ok v ∧ ctrlPrimary v = .error info ∧ t = latchFields v word s) ∨
       (∃ v c, decodeVariant word = .ok v ∧ ctrlPrimary v = .ok c ∧ aluControlOf c v = .error info ∧
         t = latchOperands c word (latchFields v word s)))) := by
  unfold decodeWork
  rw [h, need_some]
  cases hv : decodeVariant word with
  | error info => exact .inr ⟨info, s, rfl, .inl ⟨rfl, rfl⟩⟩
  | ok v =>
    dsimp only
    cases hc : ctrlPrimary v with
    | error info => exact .inr ⟨info, _, rfl, .inr (.inl ⟨v, rfl, hc, rfl⟩)⟩
    | ok c =>
      dsimp only
      cases ha : aluControlOf c v with
      | error info => exact .inr ⟨info, _, rfl, .inr (.inr ⟨v, c, rfl, hc, ha, rfl⟩)⟩
      | ok a => exact .inl ⟨v, c, a, rfl, hc, ha, rfl⟩

/-! ### A whole instruction -/

/-- Operand 2 of an instruction, from its word and its second register read (R141). -/
def op2Value (c : Ctrl) (word : Word) (v2 : Dword) : Dword :=
  match c.aluSrc with
  | .readRegister2 => v2
  | .signExtendedImmediate => sext16 (Enc.imm word) <<< shiftOf c.immShift
  | .zeroExtendedImmediate => zext16 (Enc.imm word)

/-- The destination index of an instruction, from its word (R181). -/
def dstField (d : RegDst) (word : Word) : RegIdx :=
  match d with
  | .rs => Enc.rs word
  | .rt => Enc.rt word
  | .rd => Enc.rd word

/-- The ALU result of an instruction on a state (R177). -/
def resultOf (v : Variant) (c : Ctrl) (a : AluControl) (s : State) : Dword :=
  alu a c.regWidth (readReg c.regWidth s (Enc.rs v.word))
    (op2Value c v.word (readReg c.regWidth s (Enc.rt v.word)))

/-- The pre-writeback value of an instruction on a state (R179). -/
def dataOf (v : Variant) (c : Ctrl) (a : AluControl) (s : State) : Dword :=
  match c.memToReg with
  | .useAlu => resultOf v c a s
  | .useMemory => loadValue c.regWidth (resultOf v c a s) s

/-- The coprocessor as the register write of an instruction finds it (R195). -/
def copAtWrite (v : Variant) (c : Ctrl) (a : AluControl) (s : State) : Cop :=
  ((((s.cop.see (.fetch v.word)).see (.decode (readReg c.regWidth s (Enc.rt v.word)))).see .execute).see .memory).see
    (.receiveData (dataOf v c a s))

/-- The wires and the coprocessor may differ; every other field is the same. -/
structure OnlyWires (s t : State) : Prop where
  x : t.x = s.x
  pc : t.pc = s.pc
  mem : t.mem = s.mem
  stage : t.stage = s.stage
  instr : t.instr = s.instr
  ctrl : t.ctrl = s.ctrl
  status : t.status = s.status
  cfg : t.cfg = s.cfg
  calls : t.calls = s.calls
  replies : t.replies = s.replies

/-- R177: where its wires are written, EX writes the ALU result and calls its hook. -/
theorem executeWork_next {s : State} {c : Ctrl} {a : AluControl} {v1 v2 : Dword} (hc : s.ctrl = some c)
    (ha : c.aluControl = some a) (h1 : s.w.readData1 = some v1) (h2 : op2 c s.w = some v2) :
    ∃ t, executeWork s = .next t ∧ OnlyWires s t ∧ t.cop = s.cop.see .execute ∧
      t.w = { s.w with aluResult := some (alu a c.regWidth v1 v2) } := by
  refine ⟨hook .execute (s.setWires { s.w with aluResult := some (alu a c.regWidth v1 v2) }), ?_, ?_, rfl, rfl⟩
  · simp only [executeWork, hc, need_some, ha, h1, h2]
  · constructor <;> rfl

/-- R179: where its wires are written, MEM performs the access, selects the pre-writeback value and calls its hook. -/
theorem memoryWork_next {s : State} {c : Ctrl} {ea v2 : Dword} (hc : s.ctrl = some c) (he : s.w.aluResult = some ea)
    (h2 : s.w.readData2 = some v2) (hload : c.memToReg = .useMemory → c.memRead = true)
    (hsrc : c.memWriteSrc = .primaryUnit) :
    ∃ t, memoryWork s = .next t ∧
      OnlyWires (if c.memWrite then storeValue c.regWidth ea v2 s else s) t ∧ t.cop = s.cop.see .memory ∧
      t.w = { s.w with
        memoryData := if c.memRead then some (loadValue c.regWidth ea s) else s.w.memoryData
        dataResult := some (match c.memToReg with | .useAlu => ea | .useMemory => loadValue c.regWidth ea s) } := by
  have hstore : ∀ u : State, storeValue c.regWidth ea v2 u = u.setMem (storeValue c.regWidth ea v2 u).mem :=
    storeValue_eq c.regWidth ea v2
  unfold memoryWork
  rw [hc, need_some, he, need_some]
  set u := loadWork c ea s with hu
  have hud : u.w.readData2 = some v2 := by rw [hu, loadWork]; split <;> exact h2
  have hst : storeWork c ea u = .next (if c.memWrite then storeValue c.regWidth ea v2 u else u) := by
    unfold storeWork
    split
    · rw [hsrc]; simp only [hud, need_some]
    · rfl
  have humem : (storeValue c.regWidth ea v2 u).mem = (storeValue c.regWidth ea v2 s).mem :=
    storeValue_mem_of_mem_eq (by rw [hu, loadWork]; split <;> rfl) (by rw [hu, loadWork]; split <;> rfl) _ _ _
  rw [hst, andThen_next]
  set t0 := (if c.memWrite then storeValue c.regWidth ea v2 u else u) with ht0
  have hw : t0.w = u.w := by rw [ht0]; split <;> [rw [hstore u]; skip] <;> rfl
  have hcop : t0.cop = s.cop := by
    rw [ht0]; split <;> [rw [hstore u]; skip] <;> (rw [hu, loadWork]; split <;> rfl)
  have honly : ∀ w' : Wires, ∀ e, OnlyWires (if c.memWrite then storeValue c.regWidth ea v2 s else s)
      (hook e (t0.setWires w')) := by
    intro w' e
    rw [ht0]
    split
    · rw [hstore u, hstore s, humem]
      constructor <;> first | rfl | (rw [hu, loadWork]; split <;> rfl)
    · constructor <;> (rw [hu, loadWork]; split <;> rfl)
  have huw : u.w = { s.w with
      memoryData := if c.memRead then some (loadValue c.regWidth ea s) else s.w.memoryData } := by
    rw [hu, loadWork]; split <;> rfl
  cases hm : c.memToReg with
  | useAlu =>
    refine ⟨hook .memory (t0.setWires { t0.w with dataResult := some ea }), by simp only [selectWork, hm], honly _ _,
      by simp [hcop], ?_⟩
    simp only [hook_w, State.setWires_w, hw, huw]
  | useMemory =>
    have hr := hload hm
    have hmd : t0.w.memoryData = some (loadValue c.regWidth ea s) := by rw [hw, huw]; simp [hr]
    refine ⟨hook .memory (t0.setWires { t0.w with dataResult := some (loadValue c.regWidth ea s) }),
      by simp only [selectWork, hm, hmd, need_some], honly _ _, by simp [hcop], ?_⟩
    simp only [hook_w, State.setWires_w, hw, huw]

/-- R180, R181: where its wires are written, WB writes the destination register, advances pc and calls its hooks. -/
theorem writeBackWork_next {s : State} {c : Ctrl} {d : Dword} {dst : RegIdx} (hc : s.ctrl = some c)
    (hd : s.w.dataResult = some d) (hdst : dstIndex c.regDst s.w = some dst) :
    ∃ t, writeBackWork s = .next t ∧ t.pc = s.pc + 4#64 ∧ t.mem = s.mem ∧ t.stage = s.stage ∧ t.instr = s.instr ∧
      t.ctrl = s.ctrl ∧ t.status = s.status ∧ t.cfg = s.cfg ∧ t.calls = s.calls ∧ t.replies = s.replies ∧
      t.cop = (s.cop.see (.receiveData d)).see .writeback ∧
      t.w = { s.w with
        registerWriteData := if c.regWrite = true then some (narrow c.regWidth (arbitrate (s.cop.see (.receiveData d)) d))
          else s.w.registerWriteData } ∧
      (∀ r, gpr t r = if c.regWrite = true ∧ r = dst ∧ r ≠ 0#5 then
        narrow c.regWidth (arbitrate (s.cop.see (.receiveData d)) d) else gpr s r) ∧
      t.x[0] = s.x[0] := by
  set u := hook (.receiveData d) s with hu
  set v := narrow c.regWidth (arbitrate (s.cop.see (.receiveData d)) d) with hv
  have hreg : registerWrite u = .next (if c.regWrite then
      setGpr dst v (u.setWires { u.w with registerWriteData := some v }) else u) := by
    have h1 : u.ctrl = some c := hc
    have h2 : u.w.dataResult = some d := hd
    have h3 : dstIndex c.regDst u.w = some dst := hdst
    simp only [registerWrite, h1, h2, need_some]
    split
    · rw [h3, need_some, hv, hu]; rfl
    · rfl
  have hwork : writeBackWork s = .next (hook .writeback (advancePc (if c.regWrite then
      setGpr dst v (u.setWires { u.w with registerWriteData := some v }) else u))) := by
    simp only [writeBackWork, hd, need_some, ← hu, hreg, andThen_next]
  refine ⟨_, hwork, ?_⟩
  cases c.regWrite
  · simp only [Bool.false_eq_true, if_false, false_and]
    exact ⟨rfl, rfl, rfl, rfl, rfl, rfl, rfl, rfl, rfl, rfl, rfl, fun r => rfl, rfl⟩
  · simp only [if_true, true_and, gpr_hook, hook_x, advancePc, gpr_setPc, State.setPc_x, setGpr_x_zero, hook_pc, hook_mem,
      hook_stage, hook_instr, hook_ctrl, hook_status, hook_cfg, hook_calls, hook_replies, hook_cop, hook_w,
      State.setPc_pc, State.setPc_mem, State.setPc_stage, State.setPc_instr, State.setPc_ctrl, State.setPc_status,
      State.setPc_cfg, State.setPc_calls, State.setPc_replies, State.setPc_cop, State.setPc_w, setGpr_pc, setGpr_mem,
      setGpr_stage, setGpr_instr, setGpr_ctrl, setGpr_status, setGpr_cfg, setGpr_calls, setGpr_replies, setGpr_cop,
      setGpr_w]
    exact ⟨rfl, rfl, rfl, rfl, rfl, rfl, rfl, rfl, rfl, rfl, rfl, fun r => by rw [gpr_setGpr]; rfl, rfl⟩

/-- The state in which EX of an instruction begins. -/
theorem decoded_facts (v : Variant) (c : Ctrl) (a : AluControl) (s : State) :
    ∃ t, t = latchAluControl c a v.word (latchOperands c v.word (latchFields v v.word (latchFetch v.word s))) ∧
      t.ctrl = some (withAlu c a) ∧ t.x = s.x ∧ t.pc = s.pc ∧ t.mem = s.mem ∧ t.stage = s.stage ∧ t.status = s.status ∧
      t.cfg = s.cfg ∧ t.calls = s.calls ∧ t.replies = s.replies ∧
      t.cop = (s.cop.see (.fetch v.word)).see (.decode (readReg c.regWidth s (Enc.rt v.word))) ∧
      t.w.readData1 = some (readReg c.regWidth s (Enc.rs v.word)) ∧
      t.w.readData2 = some (readReg c.regWidth s (Enc.rt v.word)) ∧
      op2 (withAlu c a) t.w = some (op2Value c v.word (readReg c.regWidth s (Enc.rt v.word))) ∧
      dstIndex c.regDst t.w = some (dstField c.regDst v.word) := by
  refine ⟨_, rfl, by simp, by simp, by simp, by simp, by simp, by simp, by simp, by simp, by simp, by simp, ?_, ?_, ?_, ?_⟩
  · simp [latchOperands]
  · simp [latchOperands]
  · simp only [op2, op2Value, withAlu_aluSrc, withAlu_immShift, latchAluControl_w, latchOperands, State.setWires_w,
      readReg_latchFields, readReg_latchFetch]
    cases c.aluSrc <;> rfl
  · simp only [dstIndex, dstField, latchAluControl_w, latchOperands, State.setWires_w]
    cases c.regDst <;> rfl

/-- What the five stages of one instruction do to every field but the wires and latches (R185, for any coprocessor). The
hypotheses hold of every bundle of R104. -/
theorem runInstruction_spec (v : Variant) (c : Ctrl) (a : AluControl) (s : State)
    (hload : c.memToReg = .useMemory → c.memRead = true) (hsrc : c.memWriteSrc = .primaryUnit) :
    ∃ t, runInstruction v c a s = .next t ∧ t.stage = .instructionFetch ∧ t.status = s.status ∧ t.pc = s.pc + 4#64 ∧
      t.cfg = s.cfg ∧ t.calls = s.calls ∧ t.replies = s.replies ∧
      t.mem = (if c.memWrite then
        (storeValue c.regWidth (resultOf v c a s) (readReg c.regWidth s (Enc.rt v.word)) s).mem else s.mem) ∧
      (∀ r, gpr t r = if c.regWrite = true ∧ r = dstField c.regDst v.word ∧ r ≠ 0#5 then
        narrow c.regWidth (arbitrate (copAtWrite v c a s) (dataOf v c a s)) else gpr s r) ∧
      t.cop = (copAtWrite v c a s).see .writeback ∧ t.x[0] = s.x[0] := by
  obtain ⟨s0, h0, hctrl, hx, hpc, hmem, -, hstatus, hcfg, hcalls, hreplies, hcop, h1, h2, hop, hdst⟩ :=
    decoded_facts v c a s
  obtain ⟨s1, he, o1, hcop1, hw1⟩ := executeWork_next hctrl (withAlu_aluControl c a) h1 hop
  have hres : s1.w.aluResult = some (resultOf v c a s) := by rw [hw1]; rfl
  obtain ⟨s2, hm, o2, hcop2, hw2⟩ := memoryWork_next (o1.ctrl.trans hctrl) hres (by rw [hw1]; exact h2) hload hsrc
  have hsm : (if (withAlu c a).memWrite then storeValue c.regWidth (resultOf v c a s)
      (readReg c.regWidth s (Enc.rt v.word)) s1 else s1) = s1.setMem (if c.memWrite then (storeValue c.regWidth
      (resultOf v c a s) (readReg c.regWidth s (Enc.rt v.word)) s).mem else s.mem) := by
    rw [withAlu_memWrite]
    cases c.memWrite
    · simp only [Bool.false_eq_true, if_false]
      rw [← o1.mem.trans hmem]; rfl
    · simp only [if_true]
      rw [storeValue_eq, storeValue_mem_of_mem_eq (o1.mem.trans hmem) (o1.cfg.trans hcfg)]
  simp only [withAlu_regWidth] at o2
  rw [hsm] at o2
  have hload' : loadValue c.regWidth (resultOf v c a s) s1 = loadValue c.regWidth (resultOf v c a s) s :=
    loadValue_of_mem_eq (o1.mem.trans hmem) (o1.cfg.trans hcfg) _ _
  have hdata : s2.w.dataResult = some (dataOf v c a s) := by
    rw [hw2]; simp only [withAlu_regWidth, withAlu_memToReg, hload', dataOf]
  have hd2 : dstIndex (withAlu c a).regDst s2.w = some (dstField c.regDst v.word) := by
    rw [hw2, hw1, ← hdst]; simp only [dstIndex, withAlu_regDst]
  obtain ⟨s3, hwb, hpc3, hmem3, -, -, -, hst3, hcfg3, hcalls3, hrep3, hcop3, -, hg3, hx3⟩ :=
    writeBackWork_next (o2.ctrl.trans (o1.ctrl.trans hctrl)) hdata hd2
  have hcw : s2.cop.see (.receiveData (dataOf v c a s)) = copAtWrite v c a s := by rw [hcop2, hcop1, hcop]; rfl
  have hx2 : s2.x = s.x := o2.x.trans (o1.x.trans hx)
  refine ⟨s3.setStage .instructionFetch, ?_, rfl, ?_, ?_, ?_, ?_, ?_, ?_, ?_, ?_, ?_⟩
  · unfold runInstruction
    simp only [← h0, he, andThen_next, hm, hwb]
  · exact hst3.trans (o2.status.trans (o1.status.trans hstatus))
  · show s3.pc = _
    rw [hpc3, o2.pc]
    show s1.pc + 4#64 = _
    rw [o1.pc, hpc]
  · exact hcfg3.trans (o2.cfg.trans (o1.cfg.trans hcfg))
  · exact hcalls3.trans (o2.calls.trans (o1.calls.trans hcalls))
  · exact hrep3.trans (o2.replies.trans (o1.replies.trans hreplies))
  · exact hmem3.trans o2.mem
  · intro r
    rw [gpr_setStage, hg3 r, hcw, gpr_of_x_eq hx2]
    rfl
  · show s3.cop = _
    rw [hcop3, hcw]
  · show s3.x[0] = _
    rw [hx3, hx2]

end Sys2Proof.Machine
end

