-- ==== Sys2Proof/Laws/Sequencer.lean ====
section
/-! SUPPORT. What the sequencer does around the work of a stage: no work of EX, MEM or WB reads the stage, and five stages
from IF are one whole instruction. -/

namespace Sys2Proof.Machine

@[simp] theorem raiseFatal_status (i : FatalInfo) (s : State) : (raiseFatal i s).status = .fatal i := rfl

@[simp] theorem raiseFatal_x (i : FatalInfo) (s : State) : (raiseFatal i s).x = s.x := rfl

@[simp] theorem raiseFatal_pc (i : FatalInfo) (s : State) : (raiseFatal i s).pc = s.pc := rfl

@[simp] theorem raiseFatal_mem (i : FatalInfo) (s : State) : (raiseFatal i s).mem = s.mem := rfl

@[simp] theorem raiseFatal_stage (i : FatalInfo) (s : State) : (raiseFatal i s).stage = s.stage := rfl

@[simp] theorem raiseFatal_w (i : FatalInfo) (s : State) : (raiseFatal i s).w = s.w := rfl

@[simp] theorem raiseFatal_instr (i : FatalInfo) (s : State) : (raiseFatal i s).instr = s.instr := rfl

@[simp] theorem raiseFatal_ctrl (i : FatalInfo) (s : State) : (raiseFatal i s).ctrl = s.ctrl := rfl

@[simp] theorem raiseFatal_cop (i : FatalInfo) (s : State) : (raiseFatal i s).cop = s.cop := rfl

@[simp] theorem raiseFatal_cfg (i : FatalInfo) (s : State) : (raiseFatal i s).cfg = s.cfg := rfl

@[simp] theorem raiseFatal_calls (i : FatalInfo) (s : State) : (raiseFatal i s).calls = s.calls := rfl

@[simp] theorem raiseFatal_replies (i : FatalInfo) (s : State) : (raiseFatal i s).replies = s.replies := rfl

@[simp] theorem latchFields_w (v : Variant) (word : Word) (s : State) : (latchFields v word s).w =
    { s.w with
      rs := some (Enc.rs word), rt := some (Enc.rt word), rd := some (Enc.rd word)
      shamt := some (Enc.shamt word), funct := some (Enc.funct word), imm := some (Enc.imm word)
      signExtend := some (sext16 (Enc.imm word)) } := rfl

@[simp] theorem latchOperands_w (c : Ctrl) (word : Word) (s : State) : (latchOperands c word s).w =
    { s.w with
      readData1 := some (readReg c.regWidth s (Enc.rs word))
      readData2 := some (readReg c.regWidth s (Enc.rt word)) } := rfl

@[simp] theorem latchFetch_instr (word : Word) (s : State) : (latchFetch word s).instr = none := rfl

@[simp] theorem latchFetch_ctrl (word : Word) (s : State) : (latchFetch word s).ctrl = none := rfl

/-- A store of either width writes its bytes where memory admits the access, and nothing else (R179, R47). -/
theorem storeValue_mem (width : RegWidth) (a v : Dword) (s : State) : (storeValue width a v s).mem =
    if memOk s.cfg a.toNat width.bytes = true then
      writeBytes s.mem a.toNat (match width with
        | .word => wordBytes (lo32 v)
        | .doubleWord => dwordBytes v)
    else s.mem := by
  cases width
  · cases h : memOk s.cfg a.toNat 4 <;> simp [storeValue, memWrite4, RegWidth.bytes, h, lo32]
  · cases h : memOk s.cfg a.toNat 8 <;> simp [storeValue, memWrite8, RegWidth.bytes, h]

/-- A load of either width reads its bytes where memory admits the access, and is 0 otherwise (R179, R47). -/
theorem loadValue_eq (width : RegWidth) (a : Dword) (s : State) : loadValue width a s =
    if memOk s.cfg a.toNat width.bytes = true then
      (match width with
       | .word => zext32 (readWord s.mem a.toNat)
       | .doubleWord => readDword s.mem a.toNat)
    else 0#64 := by
  cases width
  · cases h : memOk s.cfg a.toNat 4 <;> simp [loadValue, memRead4, RegWidth.bytes, h, zext32]
  · cases h : memOk s.cfg a.toNat 8 <;> simp [loadValue, memRead8, RegWidth.bytes, h]

@[simp] theorem op2_setStage (c : Ctrl) (s : State) (st : Stage) : op2 c (s.setStage st).w = op2 c s.w := rfl

theorem storeValue_setStage (width : RegWidth) (a v : Dword) (s : State) (st : Stage) :
    storeValue width a v (s.setStage st) = (storeValue width a v s).setStage st := by
  rw [storeValue_eq width a v (s.setStage st), storeValue_eq width a v s,
    storeValue_mem_of_mem_eq (s := s) (t := s.setStage st) rfl rfl]; rfl

/-- The work of EX does not read the stage. -/
theorem executeWork_setStage (s : State) (st : Stage) :
    executeWork (s.setStage st) = andThen (executeWork s) fun t => .next (t.setStage st) := by
  unfold executeWork
  simp only [State.setStage_ctrl, State.setStage_w]
  cases s.ctrl with
  | none => rfl
  | some c =>
    simp only [need_some]
    cases c.aluControl with
    | none => rfl
    | some a =>
      simp only [need_some]
      cases s.w.readData1 with
      | none => rfl
      | some v1 =>
        simp only [need_some]
        cases op2 c s.w with
        | none => rfl
        | some v2 => rfl

/-- The work of MEM does not read the stage. -/
theorem memoryWork_setStage (s : State) (st : Stage) :
    memoryWork (s.setStage st) = andThen (memoryWork s) fun t => .next (t.setStage st) := by
  unfold memoryWork
  simp only [State.setStage_ctrl, State.setStage_w]
  cases s.ctrl with
  | none => rfl
  | some c =>
    simp only [need_some]
    cases s.w.aluResult with
    | none => rfl
    | some ea =>
      simp only [need_some]
      have hl : loadWork c ea (s.setStage st) = (loadWork c ea s).setStage st := by
        unfold loadWork; rw [loadValue_of_mem_eq (s := s) rfl rfl]; split <;> rfl
      have hs : ∀ u : State, storeWork c ea (u.setStage st) = andThen (storeWork c ea u) fun t => .next (t.setStage
          st) := by
        intro u; unfold storeWork
        simp only [storeValue_setStage, State.setStage_w, State.setStage_cop]
        split
        · split
          · cases u.w.readData2 <;> rfl
          · rfl
        · rfl
      have hsel : ∀ u : State, selectWork c ea (u.setStage st) = andThen (selectWork c ea u) fun t => .next
          (t.setStage st) := by
        intro u; unfold selectWork
        simp only [State.setStage_w]
        split
        · rfl
        · cases u.w.memoryData <;> rfl
      rw [hl, hs, andThen_assoc, andThen_assoc]
      congr 1
      funext u
      exact hsel u

/-- The work of WB does not read the stage. -/
theorem writeBackWork_setStage (s : State) (st : Stage) :
    writeBackWork (s.setStage st) = andThen (writeBackWork s) fun t => .next (t.setStage st) := by
  unfold writeBackWork registerWrite
  simp only [State.setStage_ctrl, State.setStage_w, hook_ctrl, hook_w]
  cases hd : s.w.dataResult with
  | none => rfl
  | some d =>
    simp only [need_some]
    cases s.ctrl with
    | none => rfl
    | some c =>
      simp only [need_some]
      split
      · cases dstIndex c.regDst s.w with
        | none => rfl
        | some dst => simp only [need_some, andThen_next, setGpr]; split <;> rfl
      · rfl

theorem executeStage_running {s : State} (h : s.status = .running) :
    executeStage s = andThen (work s) fun t => .next (advanceStage t) := by unfold executeStage; rw [h]

/-- Only a Running machine has a stage step (R171). -/
theorem executeStage_status (s t : State) (h : executeStage s = .next t) : s.status = .running := by
  unfold executeStage at h
  cases hs : s.status with
  | running => rfl
  | fatal i => rw [hs] at h; cases h

/-- One more stage of a Running machine. -/
theorem runStages_succ {s : State} (h : s.status = .running) (n : Nat) : runStages (n + 1) s = andThen (executeStage
    s) (runStages n) := by
  rw [runStages, h]

theorem advanceStage_running {s : State} (h : s.status = .running) : advanceStage s = s.setStage s.stage.succ := by
  unfold advanceStage; rw [h]

/-- IF always answers (R174). -/
theorem executeStage_fetch {s : State} (h : s.status = .running) (hs : s.stage = .instructionFetch) :
    executeStage s = .next ((latchFetch (fetchWord s) s).setStage .instructionDecode) := by
  rw [executeStage_running h, work, hs]
  simp only [fetchWork, andThen_next]
  rw [advanceStage_running (s := latchFetch (fetchWord s) s) h, latchFetch_stage, hs]; rfl

/-- ID on a word that passes its three checks (R176). -/
theorem executeStage_decode_ok {s : State} {word : Word} {v : Variant} {c : Ctrl} {a : AluControl} (h : s.status =
    .running)
    (hs : s.stage = .instructionDecode) (hw : s.w.instruction = some word) (hv : decodeVariant word = .ok v) (hc :
        ctrlPrimary v = .ok c) (ha : aluControlOf c v = .ok a) :
    executeStage s = .next ((latchAluControl c a word (latchOperands c word (latchFields v word s))).setStage
        .execute) := by
  rw [executeStage_running h, work, hs]
  simp only [decodeWork, hw, need_some, hv, hc, ha, andThen_next]
  rw [advanceStage_running (by simpa using h)]
  simp only [latchAluControl_stage, latchOperands_stage, latchFields_stage, hs]; rfl

/-- The stages from IF on a word that decodes are runInstruction. -/
theorem runStages_eq_runInstruction {v : Variant} {c : Ctrl} {a : AluControl} {s : State} (hr : s.status = .running)
    (hs : s.stage = .instructionFetch) (hv : decodeVariant (fetchWord s) = .ok v) (hc : ctrlPrimary v = .ok c) (ha :
        aluControlOf c v = .ok a)
    (hload : c.memToReg = .useMemory → c.memRead = true) (hsrc : c.memWriteSrc = .primaryUnit) :
    runStages 5 s = runInstruction v c a s := by
  have hw : v.word = fetchWord s := decodeVariant_word hv
  rw [runStages_succ hr, executeStage_fetch hr hs, andThen_next, runStages_succ (by exact hr),
    executeStage_decode_ok (word := fetchWord s) (by exact hr) rfl rfl hv hc ha, andThen_next, ← hw]
  obtain ⟨s0, h0, hctrl, hx, hpc, hmem, -, hstatus, hcfg, hcalls, hreplies, hcop, h1, h2, hop, hdst⟩ := decoded_facts
      v c a s
  obtain ⟨s1, he, o1, hcop1, hw1⟩ := executeWork_next hctrl (withAlu_aluControl c a) h1 hop
  have hres : s1.w.aluResult = some (resultOf v c a s) := by rw [hw1]; rfl
  obtain ⟨s2, hm, o2, hcop2, hw2⟩ := memoryWork_next (o1.ctrl.trans hctrl) hres (by rw [hw1]; exact h2) hload hsrc
  have hst0 : s0.status = .running := hstatus.trans hr
  have hst1 : s1.status = .running := o1.status.trans hst0
  have hst2 : s2.status = .running := by
    rw [o2.status]
    cases h : (withAlu c a).memWrite
    · simpa using hst1
    · simp only [if_true]; rw [storeValue_eq]; exact hst1
  have hd2 : dstIndex (withAlu c a).regDst s2.w = some (dstField c.regDst v.word) := by
    rw [hw2, hw1, ← hdst]; simp only [dstIndex, withAlu_regDst]
  have hctrl2 : s2.ctrl = some (withAlu c a) := by
    rw [o2.ctrl]
    cases h : (withAlu c a).memWrite
    · simpa using o1.ctrl.trans hctrl
    · simp only [if_true]; rw [storeValue_eq]; exact o1.ctrl.trans hctrl
  obtain ⟨s3, hwb, hpc3, hmem3, -, -, -, hst3, -⟩ := writeBackWork_next hctrl2 (by rw [hw2]) hd2
  have e0 : latchAluControl c a v.word (latchOperands c v.word (latchFields v v.word ((latchFetch v.word s).setStage
      .instructionDecode))) = s0.setStage .instructionDecode := by
    rw [h0]; rfl
  rw [e0]
  have r1 : executeStage ((s0.setStage .instructionDecode).setStage .execute) = .next ((s1.setStage
      .execute).setStage .memory) := by
    rw [executeStage_running (s := ((s0.setStage .instructionDecode).setStage .execute)) hst0]
    show andThen (executeWork (s0.setStage .execute)) _ = _
    rw [executeWork_setStage, he]; simp only [andThen_next]
    rw [advanceStage_running (s := s1.setStage .execute) hst1]; rfl
  rw [runStages_succ (s := ((s0.setStage .instructionDecode).setStage .execute)) hst0, r1, andThen_next]
  have r2 : executeStage ((s1.setStage .execute).setStage .memory) = .next ((s2.setStage .memory).setStage
      .writeBack) := by
    rw [executeStage_running (s := ((s1.setStage .execute).setStage .memory)) hst1]
    show andThen (memoryWork (s1.setStage .memory)) _ = _
    rw [memoryWork_setStage, hm]; simp only [andThen_next]
    rw [advanceStage_running (s := s2.setStage .memory) hst2]; rfl
  rw [runStages_succ (s := ((s1.setStage .execute).setStage .memory)) hst1, r2, andThen_next]
  have r3 : executeStage ((s2.setStage .memory).setStage .writeBack) = .next ((s3.setStage .writeBack).setStage
      .instructionFetch) := by
    rw [executeStage_running (s := ((s2.setStage .memory).setStage .writeBack)) hst2]
    show andThen (writeBackWork (s2.setStage .writeBack)) _ = _
    rw [writeBackWork_setStage, hwb]; simp only [andThen_next]
    rw [advanceStage_running (s := s3.setStage .writeBack) (hst3.trans hst2)]; rfl
  rw [runStages_succ (s := ((s2.setStage .memory).setStage .writeBack)) hst2, r3, andThen_next]
  unfold runInstruction
  simp only [← h0, he, hm, hwb, andThen_next]
  rfl

/-- What one execute_stage can do, from any state. -/
structure StageEffect (s t : State) : Prop where
  running : s.status = .running
  session : SameSession s t
  stage : (t.status = .running ∧ t.stage = s.stage.succ) ∨ (∃ info, t.status = .fatal info ∧ s.stage =
      .instructionDecode ∧ t.stage = s.stage)
  before : s.stage ≠ .writeBack → t.x = s.x ∧ t.pc = s.pc
  mem : t.mem = s.mem ∨ (s.stage = .memory ∧ (∃ c, s.ctrl = some c ∧ c.memWrite = true) ∧ ∃ width ea v, t.mem =
      (storeValue width ea v s).mem)
  back : s.stage = .writeBack → t.pc = s.pc + 4#64 ∧ ∃ dst v, t.x = (setGpr dst v s).x
  null : s.cop = .null → t.cop = .null

/-- R171: a stage step does what StageEffect says. -/
theorem executeStage_effect {s t : State} (h : executeStage s = .next t) : StageEffect s t := by
  have hr := executeStage_status s t h
  rw [executeStage_running hr] at h
  obtain ⟨u, hu, ht⟩ := andThen_eq_next h
  injection ht with ht
  -- ht : advanceStage u = t
  cases hs : s.stage with
  | instructionFetch =>
    rw [work, hs] at hu; dsimp only at hu; injection hu with hu
    have hur : u.status = .running := by rw [← hu]; exact hr
    rw [advanceStage_running hur] at ht
    subst ht; subst hu
    refine ⟨hr, ⟨rfl, rfl, rfl⟩, .inl ⟨hr, by simp [hs]⟩, fun _ => ⟨rfl, rfl⟩, .inl rfl, by simp [hs], fun hn => by
        simp [hn]⟩
  | instructionDecode =>
    rw [work, hs] at hu; dsimp only at hu
    have : ∃ word, s.w.instruction = some word := by
      unfold decodeWork at hu
      cases hw : s.w.instruction with
      | none => rw [hw] at hu; cases hu
      | some word => exact ⟨word, rfl⟩
    obtain ⟨word, hw⟩ := this
    rcases decodeWork_cases s word hw with ⟨v, c, a, hv, hc, ha, hd⟩ | ⟨info, t', hd, hcase⟩
    · rw [hd] at hu; injection hu with hu
      have hur : u.status = .running := by rw [← hu]; simpa using hr
      rw [advanceStage_running hur] at ht
      subst ht; subst hu
      refine ⟨hr, ⟨by simp, by simp, by simp⟩, .inl ⟨by simpa using hr, by simp [hs]⟩, fun _ => by simp, .inl (by
          simp), by simp [hs], fun hn => by simp [hn]⟩
    · rw [hd] at hu; injection hu with hu
      have hadv : advanceStage u = u := by rw [← hu]; rfl
      rw [hadv] at ht
      subst ht; subst hu
      rcases hcase with ⟨-, rfl⟩ | ⟨v, -, -, rfl⟩ | ⟨v, c, -, -, -, rfl⟩ <;>
      refine ⟨hr, ⟨by simp [raiseFatal], by simp [raiseFatal], by simp [raiseFatal]⟩, .inr ⟨info, by simp
          [raiseFatal], hs, by simp [raiseFatal]⟩, fun _ => by simp [raiseFatal], .inl (by simp [raiseFatal]), by
              simp [hs], fun hn => by simp [hn, raiseFatal]⟩
  | execute =>
    rw [work, hs] at hu; dsimp only at hu
    unfold executeWork at hu
    obtain ⟨c, hc, hu⟩ := need_eq_next hu
    obtain ⟨a, ha, hu⟩ := need_eq_next hu
    obtain ⟨v1, h1, hu⟩ := need_eq_next hu
    obtain ⟨v2, h2, hu⟩ := need_eq_next hu
    injection hu with hu
    have hur : u.status = .running := by rw [← hu]; simpa using hr
    rw [advanceStage_running hur] at ht
    subst ht; subst hu
    exact ⟨hr, ⟨by simp, by simp, by simp⟩, .inl ⟨by simpa using hr, by simp [hs]⟩, fun _ => by simp, .inl (by simp),
        by simp [hs], fun hn => by simp [hn]⟩
  | memory =>
    rw [work, hs] at hu; dsimp only at hu
    unfold memoryWork at hu
    obtain ⟨c, hc, hu⟩ := need_eq_next hu
    obtain ⟨ea, he, hu⟩ := need_eq_next hu
    obtain ⟨u1, hst, hsel⟩ := andThen_eq_next hu
    have hl : ∃ w', loadWork c ea s = s.setWires w' := by
      unfold loadWork; split
      · exact ⟨_, rfl⟩
      · exact ⟨s.w, rfl⟩
    obtain ⟨w', hl⟩ := hl
    rw [hl] at hst
    have h1 : ∃ m, u1 = (s.setWires w').setMem m ∧ (m = s.mem ∨ (c.memWrite = true ∧ ∃ width ea v, m = (storeValue
        width ea v s).mem)) := by
      unfold storeWork at hst
      split at hst
      · next hw =>
        cases hsrc : c.memWriteSrc with
        | primaryUnit =>
          rw [hsrc] at hst; dsimp only at hst
          obtain ⟨v, hv, hst⟩ := need_eq_next hst
          injection hst with hst
          rw [← hst, storeValue_eq]
          exact ⟨_, rfl, .inr ⟨hw, _, _, _, storeValue_mem_of_mem_eq (s := s) (t := s.setWires w') rfl rfl _ _ _⟩⟩
        | floatingPointUnit =>
          rw [hsrc] at hst; dsimp only at hst
          injection hst with hst
          rw [← hst, storeValue_eq]
          exact ⟨_, rfl, .inr ⟨hw, _, _, _, storeValue_mem_of_mem_eq (s := s) (t := s.setWires w') rfl rfl _ _ _⟩⟩
      · injection hst with hst
        exact ⟨s.mem, hst.symm, .inl rfl⟩
    obtain ⟨m, rfl, hm⟩ := h1
    have h2 : ∃ w2, u = hook .memory (((s.setWires w').setMem m).setWires w2) := by
      unfold selectWork at hsel
      cases hmr : c.memToReg with
      | useAlu => rw [hmr] at hsel; injection hsel with hsel; exact ⟨_, hsel.symm⟩
      | useMemory =>
        rw [hmr] at hsel; dsimp only at hsel
        obtain ⟨v, hv, hsel⟩ := need_eq_next hsel
        injection hsel with hsel; exact ⟨_, hsel.symm⟩
    obtain ⟨w2, rfl⟩ := h2
    rw [advanceStage_running (by simpa using hr)] at ht
    subst ht
    refine ⟨hr, ⟨by simp, by simp, by simp⟩, .inl ⟨by simpa using hr, by simp [hs]⟩, fun _ => by simp, ?_, by simp
        [hs], fun hn => by simp [hn]⟩
    rcases hm with rfl | ⟨hw, width, ea, v, rfl⟩
    · exact .inl (by simp)
    · exact .inr ⟨hs, ⟨c, hc, hw⟩, width, ea, v, by simp⟩
  | writeBack =>
    rw [work, hs] at hu; dsimp only at hu
    unfold writeBackWork at hu
    obtain ⟨d, hd, hu⟩ := need_eq_next hu
    obtain ⟨u1, h1, h2⟩ := andThen_eq_next hu
    injection h2 with h2
    have h3 : ∃ dst v w', u1 = setGpr dst v ((hook (.receiveData d) s).setWires w') := by
      unfold registerWrite at h1
      obtain ⟨c, hc, h1⟩ := need_eq_next h1
      obtain ⟨d', hd', h1⟩ := need_eq_next h1
      split at h1
      · obtain ⟨dst, hdst, h1⟩ := need_eq_next h1
        injection h1 with h1
        exact ⟨dst, _, _, h1.symm⟩
      · injection h1 with h1
        exact ⟨0#5, 0#64, s.w, h1.symm⟩
    obtain ⟨dst, v, w', rfl⟩ := h3
    subst h2
    rw [advanceStage_running (by simpa [advancePc] using hr)] at ht
    subst ht
    refine ⟨hr, ⟨by simp [advancePc], by simp [advancePc], by simp [advancePc]⟩, .inl ⟨by simpa [advancePc] using hr,
        by simp [hs, advancePc]⟩, fun h => absurd hs h, .inl (by simp [advancePc]), fun _ => ⟨by simp [advancePc],
            dst, v, ?_⟩, fun hn => by simp [hn, advancePc]⟩
    simp only [advancePc, State.setStage_x, hook_x, State.setPc_x, setGpr]
    split <;> rfl

end Sys2Proof.Machine
end

