-- ==== Sys2Proof/Laws/Exec.lean ====
section
/-! SUPPORT. What `exec` answers: each instruction's template and ALU control, and from them the whole effect of the
instruction. -/

namespace Sys2Proof.Machine

theorem not_isJump_of {i : Instr} (h : ∀ op t, i.variant ≠ .jType op t) : ¬ isJump i := fun ⟨op, t, e⟩ => h op t e

/-- The template of each instruction (R104); a jump has none, and the Default row stands in. -/
def templateOf : Instr → Ctrl
  | .add .. => registerRegister .word
  | .sub .. => registerRegister .word
  | .and .. => registerRegister .doubleWord
  | .or .. => registerRegister .doubleWord
  | .slt .. => registerRegister .doubleWord
  | .sltu .. => registerRegister .doubleWord
  | .dadd .. => registerRegister .doubleWord
  | .dsub .. => registerRegister .doubleWord
  | .mul .. => registerRegister .word
  | .mulu .. => registerRegister .word
  | .div .. => registerRegister .word
  | .divu .. => registerRegister .word
  | .dmul .. => registerRegister .doubleWord
  | .dmulu .. => registerRegister .doubleWord
  | .ddiv .. => registerRegister .doubleWord
  | .ddivu .. => registerRegister .doubleWord
  | .ori .. => orImmediate
  | .aui .. => addUpperImmediate
  | .lw .. => loadWord
  | .sw .. => storeWord
  | .ld .. => loadDouble
  | .sd .. => storeDouble
  | .dahi .. => addHigher
  | .dati .. => addTop
  | .cop1 .. => coprocessorOnly
  | .j .. => defaultBundle
  | .jal .. => defaultBundle

/-- The ALU control of each instruction (R120). -/
def operationOf : Instr → AluControl
  | .add .. => .addition
  | .sub .. => .subtraction
  | .and .. => .and
  | .or .. => .or
  | .slt .. => .setOnLessThanSigned
  | .sltu .. => .setOnLessThanUnsigned
  | .dadd .. => .addition
  | .dsub .. => .subtraction
  | .mul .. => .multiplicationSigned
  | .mulu .. => .multiplicationUnsigned
  | .div .. => .divisionSigned
  | .divu .. => .divisionUnsigned
  | .dmul .. => .multiplicationSigned
  | .dmulu .. => .multiplicationUnsigned
  | .ddiv .. => .divisionSigned
  | .ddivu .. => .divisionUnsigned
  | .ori .. => .or
  | .aui .. => .addition
  | .lw .. => .addition
  | .sw .. => .addition
  | .ld .. => .addition
  | .sd .. => .addition
  | .dahi .. => .addition
  | .dati .. => .addition
  | .cop1 .. => .addition
  | .j .. => .addition
  | .jal .. => .addition

/-- Every instruction but J and JAL runs the five works on its own variant, template and ALU control. -/
theorem exec_eq (i : Instr) (h : ¬ isJump i) (s : State) : exec i s = runInstruction i.variant (templateOf i)
    (operationOf i) s := by
  cases i <;> first
    | exact absurd ⟨_, _, rfl⟩ h
    | rfl

theorem ctrlPrimary_variant (i : Instr) (h : ¬ isJump i) : ctrlPrimary i.variant = .ok (templateOf i) := by
  cases i <;> first
    | rfl
    | exact absurd ⟨_, _, rfl⟩ h

theorem aluControlOf_variant (i : Instr) : aluControlOf (templateOf i) i.variant = .ok (operationOf
    i) := by
  cases i <;> rfl

/-- The generator gives an instruction the template and ALU control its meaning names (R122). -/
theorem control_variant (i : Instr) (h : ¬ isJump i) : control i.variant = .ok (withAlu (templateOf i) (operationOf
    i)) := by
  unfold control
  rw [ctrlPrimary_variant i h]; dsimp only; rw [aluControlOf_variant i]

theorem templateOf_load (i : Instr) : (templateOf i).memToReg = .useMemory → (templateOf i).memRead = true := by
  cases i <;> intro h <;> first
    | rfl
    | cases h

theorem templateOf_memWriteSrc (i : Instr) : (templateOf i).memWriteSrc = .primaryUnit := by cases i <;> rfl

/-- The register a template writes is the destination (R66, R104). -/
theorem templateOf_destination (i : Instr) : (if (templateOf i).regWrite then some (dstField (templateOf i).regDst
    (encode i)) else none) = destination i := by
  cases i <;> simp [templateOf, registerRegister, orImmediate, addUpperImmediate, addHigher, addTop, loadWord,
      loadDouble, storeWord, storeDouble, coprocessorOnly, defaultBundle,
    destination, dstField, encode, Instr.variant]

theorem lo32_setWidth (w : Word) : lo32 (BitVec.setWidth 64 w) = w := by simp [lo32]

theorem lo32_sext32 (w : Word) : lo32 (sext32 w) = w := by
  apply BitVec.eq_of_getLsbD_eq
  intro i hi
  simp only [lo32, sext32, BitVec.getLsbD_setWidth, BitVec.getLsbD_signExtend, hi, decide_true, if_true, Bool.true_and]
  simp; omega

theorem sext32_lo32_sext32 (w : Word) : sext32 (lo32 (sext32 w)) = sext32 w := by rw [lo32_sext32]

theorem readReg_lo (s : State) (w : RegWidth) (r : RegIdx) : lo32 (readReg w s r) = lo32 (gpr s r) := by
  cases w
  · simp [readReg, lo32, zext32]
  · rfl

theorem alu_word (ctl : AluControl) (a b : Dword) : alu ctl .word a b = sext32 (lo32 (aluRaw ctl (lo32 a) (lo32 b)))
    := rfl

/-- The conversion at WB changes no ALU result of its own width (R182). -/
theorem narrow_alu (w : RegWidth) (ctl : AluControl) (a b : Dword) : narrow w (alu ctl w a b) = alu ctl w a b := by
  cases w
  · simp [narrow, alu, sext32_lo32_sext32]
  · rfl

theorem lo32_ofInt (z : Int) : lo32 (BitVec.ofInt 64 z) = BitVec.ofInt 32 z := by
  apply BitVec.eq_of_toNat_eq
  simp [lo32, BitVec.toNat_ofInt]
  omega

theorem lo32_ofNat (z : Nat) : lo32 (BitVec.ofNat 64 z) = BitVec.ofNat 32 z := by
  apply BitVec.eq_of_toNat_eq
  simp [lo32]

theorem sext32_toInt (q : Word) : (sext32 q).toInt = q.toInt := by
  simp only [sext32]; exact BitVec.toInt_signExtend_of_le (by decide)

theorem wordBytes_get (v : Word) (k : Nat) (h : k < (wordBytes v).length) : (wordBytes v)[k] = v.extractLsb' (24 - 8
    * k) 8 := by
  have h' : k < 4 := h
  have : k = 0 ∨ k = 1 ∨ k = 2 ∨ k = 3 := by omega
  rcases this with rfl | rfl | rfl | rfl <;> rfl

theorem dwordBytes_get (v : Dword) (k : Nat) (h : k < (dwordBytes v).length) : (dwordBytes v)[k] = v.extractLsb' (56
    - 8 * k) 8 := by
  have h' : k < 8 := h
  have : k = 0 ∨ k = 1 ∨ k = 2 ∨ k = 3 ∨ k = 4 ∨ k = 5 ∨ k = 6 ∨ k = 7 := by omega
  rcases this with rfl | rfl | rfl | rfl | rfl | rfl | rfl | rfl <;> rfl

/-- Where an instruction's ALU result, as an address, is what storeTarget gives. -/
theorem storeTarget_eq (i : Instr) (s : State) : (if (templateOf i).memWrite then some (resultOf i.variant
    (templateOf i) (operationOf i) s, (templateOf i).regWidth.bytes) else none) = storeTarget i s := by
  cases i <;> simp only [templateOf, registerRegister, orImmediate, addUpperImmediate, addHigher, addTop, loadWord,
      loadDouble, storeWord, storeDouble, coprocessorOnly, defaultBundle,
    storeTarget, Bool.false_eq_true, if_false, if_true]
  · simp [resultOf, op2Value, Instr.variant, operationOf, alu_word, readReg_lo, aluRaw, wordAddress, shiftOf,
      RegWidth.bytes, lo32_setWidth]
  · simp [resultOf, op2Value, Instr.variant, operationOf, alu, readReg, aluRaw, doubleAddress, shiftOf, RegWidth.bytes]

/-- A store changes no byte outside its own. -/
theorem storeValue_keeps (width : RegWidth) (a v : Dword) (s : State) (b : Nat) (h : b < a.toNat ∨ a.toNat +
    width.bytes ≤ b) :
    readByte (storeValue width a v s).mem b = readByte s.mem b := by
  cases width
  · simp only [storeValue, memWrite4]
    split
    · exact readByte_writeBytes_outside (by simpa [RegWidth.bytes] using h)
    · rfl
  · simp only [storeValue, memWrite8]
    split
    · exact readByte_writeBytes_outside (by simpa [RegWidth.bytes] using h)
    · rfl

/-- The whole effect of an instruction. -/
theorem exec_spec (i : Instr) (h : ¬ isJump i) (s : State) : ∃ t, exec i s = .next t ∧ Completes s t ∧
    t.mem = (if (templateOf i).memWrite then
        (storeValue (templateOf i).regWidth (resultOf i.variant (templateOf i) (operationOf i) s) (readReg
            (templateOf i).regWidth s (Enc.rt (encode i))) s).mem else s.mem) ∧
    (∀ r, gpr t r = if destination i = some r ∧ r ≠ 0#5 then
        narrow (templateOf i).regWidth (arbitrate (copAtWrite i.variant (templateOf i) (operationOf i) s) (dataOf
            i.variant (templateOf i) (operationOf i) s)) else gpr s r) ∧
    t.cop = (copAtWrite i.variant (templateOf i) (operationOf i) s).see .writeback ∧ t.x[0] = s.x[0] := by
  obtain ⟨t, ht, h1, h2, h3, h4, h5, h6, h7, h8, h9, h10⟩ := runInstruction_spec i.variant (templateOf i)
      (operationOf i) s (templateOf_load i) (templateOf_memWriteSrc i)
  refine ⟨t, (exec_eq i h s).trans ht, ⟨h1, h2, h3, h4, h5, h6⟩, h7, ?_, h9, h10⟩
  intro r
  rw [h8, ← templateOf_destination i]
  change (if (templateOf i).regWrite = true ∧ r = dstField (templateOf i).regDst (encode i) ∧ r ≠ 0#5 then _ else _) = _
  congr 1
  cases (templateOf i).regWrite
  · simp
  · simp only [true_and, if_true, Option.some.injEq, eq_comm (a := r)]

/-- An instruction that stores nothing retires with the value its template selects, under the null coprocessor (R185). -/
theorem retires (i : Instr) (h : ¬ isJump i) (s : State) (hc : s.cop = .null) (dst : RegIdx) (v : Dword) (hd :
    destination i = some dst)
    (hw : (templateOf i).memWrite = false)
    (hv : narrow (templateOf i).regWidth (dataOf i.variant (templateOf i) (operationOf i) s) = v) : Retires i s dst v
        := by
  obtain ⟨t, ht, hcm, hm, hg, hcop, -⟩ := exec_spec i h s
  have hn : copAtWrite i.variant (templateOf i) (operationOf i) s = .null := by simp [copAtWrite, hc]
  refine ⟨t, ht, hcm, ?_, ?_, ?_⟩
  · intro r; rw [hg, hd, hn]
    simp only [Option.some.injEq, eq_comm (a := dst)]
    rw [← hv]; rfl
  · intro a; rw [hm, hw]; rfl
  · rw [hcop, hn, hc]; rfl

/-- An ALU instruction retires with its ALU result, under the null coprocessor (R185). -/
theorem retires_alu (i : Instr) (s : State) (hc : s.cop = .null) (dst : RegIdx) (v : Dword) (h : ∀ op t, i.variant ≠
    .jType op t) (hd : destination i = some dst)
    (hw : (templateOf i).memWrite = false) (hm : (templateOf i).memToReg = .useAlu)
    (hv : resultOf i.variant (templateOf i) (operationOf i) s = v) : Retires i s dst v := by
  refine retires i (not_isJump_of h) s hc dst v hd hw ?_
  rw [dataOf, hm]; dsimp only
  rw [← hv, resultOf, narrow_alu]

theorem exec_jump (i : Instr) (h : isJump i) : ∃ op target, i.variant = .jType op target ∧ ctrlPrimary i.variant =
    .error (.controlJType op) ∧
    (∀ s, exec i s = fatalAtControl i.variant (.controlJType op) s) := by
  obtain ⟨op, target, h⟩ := h
  cases i <;> simp only [Instr.variant, reduceCtorEq] at h
  · exact ⟨_, _, rfl, rfl, fun _ => rfl⟩
  · exact ⟨_, _, rfl, rfl, fun _ => rfl⟩

/-- J and JAL raise Fatal kind 5 in ID (R293). -/
theorem exec_jump_next (i : Instr) (op : BitVec 6) (target : BitVec 26) (h : i.variant = .jType op target) (s : State) :
    ∃ t, exec i s = .next t ∧ t.status = .fatal (.controlJType op) ∧ t.stage = .instructionDecode ∧ t.pc = s.pc ∧ t.x
        = s.x ∧ t.mem = s.mem ∧
      SameSession s t ∧ t.cop = s.cop.see (.fetch (encode i)) := by
  obtain ⟨op', tgt, hv, hc, he⟩ := exec_jump i ⟨_, _, h⟩
  rw [h] at hv; cases hv
  refine ⟨raiseFatal (.controlJType op) ((latchFields i.variant i.variant.word (latchFetch i.variant.word
      s)).setStage .instructionDecode),
    he s, ?_, ?_, ?_, ?_, ?_, ⟨?_, ?_, ?_⟩, ?_⟩
  all_goals simp [raiseFatal, encode]

end Sys2Proof.Machine
end

