-- ==== Sys2Proof/Laws/PerInstr.lean ====
section
/-! SUPPORT. Statements made per instruction. WellFormed: the fields of an instruction have the widths of its format, so
its variant carries an opcode of its own tag (30_encoding.md R62). -/

namespace Sys2Proof.Laws.WellFormed

def Statement (i : Instr) : Prop := i.wf = true

theorem add (rs rt rd shamt : RegIdx) : Statement (.add rs rt rd shamt) := rfl
theorem sub (rs rt rd shamt : RegIdx) : Statement (.sub rs rt rd shamt) := rfl
theorem and (rs rt rd shamt : RegIdx) : Statement (.and rs rt rd shamt) := rfl
theorem or (rs rt rd shamt : RegIdx) : Statement (.or rs rt rd shamt) := rfl
theorem slt (rs rt rd shamt : RegIdx) : Statement (.slt rs rt rd shamt) := rfl
theorem sltu (rs rt rd shamt : RegIdx) : Statement (.sltu rs rt rd shamt) := rfl
theorem dadd (rs rt rd shamt : RegIdx) : Statement (.dadd rs rt rd shamt) := rfl
theorem dsub (rs rt rd shamt : RegIdx) : Statement (.dsub rs rt rd shamt) := rfl
theorem mul (rs rt rd : RegIdx) : Statement (.mul rs rt rd) := rfl
theorem mulu (rs rt rd : RegIdx) : Statement (.mulu rs rt rd) := rfl
theorem div (rs rt rd : RegIdx) : Statement (.div rs rt rd) := rfl
theorem divu (rs rt rd : RegIdx) : Statement (.divu rs rt rd) := rfl
theorem dmul (rs rt rd : RegIdx) : Statement (.dmul rs rt rd) := rfl
theorem dmulu (rs rt rd : RegIdx) : Statement (.dmulu rs rt rd) := rfl
theorem ddiv (rs rt rd : RegIdx) : Statement (.ddiv rs rt rd) := rfl
theorem ddivu (rs rt rd : RegIdx) : Statement (.ddivu rs rt rd) := rfl
theorem ori (rs rt : RegIdx) (imm : BitVec 16) : Statement (.ori rs rt imm) := rfl
theorem aui (rs rt : RegIdx) (imm : BitVec 16) : Statement (.aui rs rt imm) := rfl
theorem lw (rs rt : RegIdx) (imm : BitVec 16) : Statement (.lw rs rt imm) := rfl
theorem sw (rs rt : RegIdx) (imm : BitVec 16) : Statement (.sw rs rt imm) := rfl
theorem ld (rs rt : RegIdx) (imm : BitVec 16) : Statement (.ld rs rt imm) := rfl
theorem sd (rs rt : RegIdx) (imm : BitVec 16) : Statement (.sd rs rt imm) := rfl
theorem dahi (rs : RegIdx) (imm : BitVec 16) : Statement (.dahi rs imm) := rfl
theorem dati (rs : RegIdx) (imm : BitVec 16) : Statement (.dati rs imm) := rfl
theorem cop1 (fmt ft fs fd : RegIdx) (function : BitVec 6) : Statement (.cop1 fmt ft fs fd function) := rfl
theorem j (target : BitVec 26) : Statement (.j target) := rfl
theorem jal (target : BitVec 26) : Statement (.jal target) := rfl

end Sys2Proof.Laws.WellFormed
end

