-- ==== Sys2Proof/Laws/Ports.lean ====
section
/-! SUPPORT. What the generator's port answers: the fields it has no input for do not reach the bundle (40_control_signals.md
R102), so it answers what the generator answers on the decoded variant. -/

namespace Sys2Proof.Machine

/-- The decoder's outputs, taken as the generator's inputs, give the bundle or the Fatal of the whole variant. -/
theorem control_portVariant {word : Word} {v : Variant} (h : decodeVariant word = .ok v) :
    control (portVariant (variantKind v) (Enc.opcode word) (Enc.rt word) (Enc.shamt word) (Enc.funct word)) = control v := by
  unfold decodeVariant at h
  split at h
  · cases h; rfl
  split at h
  · cases h; rfl
  split at h
  · cases h; rfl
  split at h
  · cases h; rfl
  · cases h

/-- Everything `generatorPort` can answer: a bundle and no diagnostic, or a diagnostic of its inputs and no bundle. -/
theorem generatorPort_cases (kind : BitVec 2) (opcode : BitVec 6) (rt shamt : RegIdx) (funct : BitVec 6) :
    (∃ c, control (portVariant kind opcode rt shamt funct) = .ok c ∧
      generatorPort kind opcode rt shamt funct = { ctrlOk := 1#1, bundle := ctrlToPort c, diagnostic := none }) ∨
    (∃ info, control (portVariant kind opcode rt shamt funct) = .error info ∧
      generatorPort kind opcode rt shamt funct =
        { ctrlOk := 0#1, bundle := none, diagnostic := some ⟨opcode, funct, shamt, rt⟩ }) := by
  unfold generatorPort
  cases control (portVariant kind opcode rt shamt funct) with
  | ok c => exact .inl ⟨c, rfl, rfl⟩
  | error info => exact .inr ⟨info, rfl, rfl⟩

end Sys2Proof.Machine
end

