-- ==== Sys2Proof/Laws/Rows.lean ====
section
/-! SUPPORT. What the mask and pattern of each kind of row say of a word: the fields it fixes. -/

namespace Sys2Proof

theorem and_ones {n : Nat} {x m : BitVec n} (h : m = BitVec.allOnes n) : x &&& m = x := by rw [h, BitVec.and_allOnes]

theorem opcode_and (w m : Word) : Enc.opcode (w &&& m) = Enc.opcode w &&& Enc.opcode m := BitVec.extractLsb'_and

theorem funct_and (w m : Word) : Enc.funct (w &&& m) = Enc.funct w &&& Enc.funct m := BitVec.extractLsb'_and

theorem shamt_and (w m : Word) : Enc.shamt (w &&& m) = Enc.shamt w &&& Enc.shamt m := BitVec.extractLsb'_and

theorem rt_and (w m : Word) : Enc.rt (w &&& m) = Enc.rt w &&& Enc.rt m := BitVec.extractLsb'_and

theorem word_rType_and (a a' : BitVec 6) (b b' c c' d d' e e' : RegIdx) (f f' : BitVec 6) :
    Variant.word (.rType a b c d e f) &&& Variant.word (.rType a' b' c' d' e' f') =
      Variant.word (.rType (a &&& a') (b &&& b') (c &&& c') (d &&& d') (e &&& e') (f &&& f')) := by
  show (a ++ b ++ c ++ d ++ e ++ f : BitVec (6 + 5 + 5 + 5 + 5 + 6)) &&& (a' ++ b' ++ c' ++ d' ++ e' ++ f' : BitVec
      (6 + 5 + 5 + 5 + 5 + 6)) = _
  simp only [BitVec.and_append]; rfl

theorem word_iType_and (a a' : BitVec 6) (b b' c c' : RegIdx) (f f' : BitVec 16) :
    Variant.word (.iType a b c f) &&& Variant.word (.iType a' b' c' f') =
      Variant.word (.iType (a &&& a') (b &&& b') (c &&& c') (f &&& f')) := by
  show (a ++ b ++ c ++ f : BitVec (6 + 5 + 5 + 16)) &&& (a' ++ b' ++ c' ++ f' : BitVec (6 + 5 + 5 + 16)) = _
  simp only [BitVec.and_append]; rfl

theorem word_jType_and (a a' : BitVec 6) (f f' : BitVec 26) :
    Variant.word (.jType a f) &&& Variant.word (.jType a' f') = Variant.word (.jType (a &&& a') (f &&& f')) := by
  show (a ++ f : BitVec (6 + 26)) &&& (a' ++ f' : BitVec (6 + 26)) = _
  simp only [BitVec.and_append]; rfl

/-- The row of a non-SOP R-type instruction fixes opcode and funct. -/
theorem special_row_iff (w : Word) (fn : BitVec 6) : w &&& 0xFC00003F#32 = Variant.word (.rType Enc.opSpecial 0 0 0 0 fn) ↔
    Enc.opcode w = Enc.opSpecial ∧ Enc.funct w = fn := by
  constructor
  · intro h
    have h1 := congrArg Enc.opcode h
    have h2 := congrArg Enc.funct h
    rw [opcode_word_rType, opcode_and, and_ones (by decide)] at h1
    rw [funct_word_rType, funct_and, and_ones (by decide)] at h2
    exact ⟨h1, h2⟩
  · rintro ⟨h1, h2⟩
    rw [← word_rType_fields w, h1, h2]
    generalize Enc.rs w = a; generalize Enc.rt w = b; generalize Enc.rd w = c; generalize Enc.shamt w = d
    rw [show 0xFC00003F#32 = Variant.word (.rType (BitVec.allOnes 6) 0#5 0#5 0#5 0#5 (BitVec.allOnes 6)) by decide,
        word_rType_and]
    simp only [BitVec.and_allOnes, BitVec.and_zero]; rfl

/-- The row of an SOP instruction fixes opcode, shamt and funct. -/
theorem sop_row_iff (w : Word) (fn : BitVec 6) : w &&& 0xFC0007FF#32 = Variant.word (.rType Enc.opSpecial 0 0 0
    Enc.sopShamt fn) ↔ Enc.opcode w = Enc.opSpecial ∧ Enc.shamt w = Enc.sopShamt ∧ Enc.funct w = fn := by
  constructor
  · intro h
    have h1 := congrArg Enc.opcode h
    have h2 := congrArg Enc.funct h
    have h3 := congrArg Enc.shamt h
    rw [opcode_word_rType, opcode_and, and_ones (by decide)] at h1
    rw [funct_word_rType, funct_and, and_ones (by decide)] at h2
    rw [shamt_word_rType, shamt_and, and_ones (by decide)] at h3
    exact ⟨h1, h3, h2⟩
  · rintro ⟨h1, h3, h2⟩
    rw [← word_rType_fields w, h1, h2, h3]
    generalize Enc.rs w = a; generalize Enc.rt w = b; generalize Enc.rd w = c
    rw [show 0xFC0007FF#32 = Variant.word (.rType (BitVec.allOnes 6) 0#5 0#5 0#5 (BitVec.allOnes 5) (BitVec.allOnes
        6)) by decide, word_rType_and]
    simp only [BitVec.and_allOnes, BitVec.and_zero]; rfl

/-- A row of this mask fixes the opcode alone. -/
theorem opcode_row_iff (w : Word) (op : BitVec 6) : w &&& 0xFC000000#32 = Variant.word (.jType op 0) ↔ Enc.opcode w = op := by
  constructor
  · intro h
    have h1 := congrArg Enc.opcode h
    rw [opcode_word_jType, opcode_and, and_ones (by decide)] at h1
    exact h1
  · intro h1
    rw [← word_jType_fields w, h1]
    generalize Enc.target w = a
    rw [show 0xFC000000#32 = Variant.word (.jType (BitVec.allOnes 6) 0#26) by decide, word_jType_and]
    simp only [BitVec.and_allOnes, BitVec.and_zero]; rfl

/-- The row of a REGIMM instruction fixes opcode and rt. -/
theorem regimm_row_iff (w : Word) (rt : RegIdx) : w &&& 0xFC1F0000#32 = Variant.word (.iType Enc.opRegimm 0 rt 0) ↔
    Enc.opcode w = Enc.opRegimm ∧ Enc.rt w = rt := by
  constructor
  · intro h
    have h1 := congrArg Enc.opcode h
    have h2 := congrArg Enc.rt h
    rw [opcode_word_iType, opcode_and, and_ones (by decide)] at h1
    rw [rt_word_iType, rt_and, and_ones (by decide)] at h2
    exact ⟨h1, h2⟩
  · rintro ⟨h1, h2⟩
    rw [← word_iType_fields w, h1, h2]
    generalize Enc.rs w = a; generalize Enc.imm w = b
    rw [show 0xFC1F0000#32 = Variant.word (.iType (BitVec.allOnes 6) 0#5 (BitVec.allOnes 5) 0#16) by decide,
        word_iType_and]
    simp only [BitVec.and_allOnes, BitVec.and_zero]; rfl

end Sys2Proof
end

