-- ==== Sys2Proof/Tests/Slice0.lean ====
section
/-! SUPPORT. Tests. Every word and every expected value is taken from 95_test_vectors.md, or worked out by hand from the
rule named. After them, for each statement with hypotheses, a state that meets them. -/

namespace Sys2Proof.Tests

open Sys2Proof.Machine

/-! ### Well-formedness refuses an ill-formed term for each check -/

/-- R62: RType carries opcode 0. -/
theorem test_wf_rType : (Variant.rType 1 0 0 0 0 0).wf = false := by decide
/-- R63: opcode 4 (BEQ) is no IType. -/
theorem test_wf_iType : (Variant.iType 4 0 0 0).wf = false := by decide
/-- R63: opcode 1 is no JType. -/
theorem test_wf_jType : (Variant.jType 1 0).wf = false := by decide
/-- R63: opcode 0 is no FpuRType. -/
theorem test_wf_fpuRType : (Variant.fpuRType 0 0 0 0 0 0).wf = false := by decide
/-- R23: there is no register 32. -/
theorem test_wf_register : (AsmReg.numbered 32).wf = false ∧ (AsmReg.numbered 31).wf = true := by decide
theorem test_wf_rrr : (Asm.rrr .add (.numbered 32) (.named .zero) (.named .zero)).wf = false := by decide
/-- R78: ORI takes 0..65535. -/
theorem test_wf_ori : (Asm.ori (.named .t0) (.named .t1) (-1)).wf = false ∧
    (Asm.ori (.named .t0) (.named .t1) 65536).wf = false := by decide
/-- R78: AUI takes 16 bits in either spelling. -/
theorem test_wf_aui : (Asm.aui (.named .t0) (.named .t1) 65536).wf = false ∧
    (Asm.aui (.named .t0) (.named .t1) (-32769)).wf = false := by decide
theorem test_wf_lui : (Asm.lui (.named .t0) 65536).wf = false := by decide
theorem test_wf_dahi : (Asm.dahi (.numbered 32) 0).wf = false := by decide
theorem test_wf_dati : (Asm.dati (.named .t0) (-32769)).wf = false := by decide
/-- R78: an offset is -32768..32767. -/
theorem test_wf_mem : (Asm.mem .lw (.named .t0) 32768 (.named .t1)).wf = false ∧
    (Asm.mem .sd (.named .t0) (-32769) (.named .t1)).wf = false := by decide

/-! ### Decoding: a word of each constructor, as 95_test_vectors.md spells it -/

/-- Section 2.1: `add $t2, $t0, $t1` with shamt 5. -/
theorem test_decode_add : decode 0x01095160#32 = .ok (.add 8 9 10 5) := by decide
theorem test_decode_sub : decode 0x01095022#32 = .ok (.sub 8 9 10 0) := by decide
theorem test_decode_and : decode 0x01095024#32 = .ok (.and 8 9 10 0) := by decide
theorem test_decode_or : decode 0x01095025#32 = .ok (.or 8 9 10 0) := by decide
theorem test_decode_slt : decode 0x0109502A#32 = .ok (.slt 8 9 10 0) := by decide
theorem test_decode_sltu : decode 0x0109502B#32 = .ok (.sltu 8 9 10 0) := by decide
theorem test_decode_dadd : decode 0x0109502C#32 = .ok (.dadd 8 9 10 0) := by decide
theorem test_decode_dsub : decode 0x0109502E#32 = .ok (.dsub 8 9 10 0) := by decide
/-- Section 2.2. -/
theorem test_decode_mul : decode 0x01095098#32 = .ok (.mul 8 9 10) := by decide
theorem test_decode_mulu : decode 0x01095099#32 = .ok (.mulu 8 9 10) := by decide
theorem test_decode_div : decode 0x0109509A#32 = .ok (.div 8 9 10) := by decide
theorem test_decode_divu : decode 0x0109509B#32 = .ok (.divu 8 9 10) := by decide
theorem test_decode_dmul : decode 0x0109509C#32 = .ok (.dmul 8 9 10) := by decide
theorem test_decode_dmulu : decode 0x0109509D#32 = .ok (.dmulu 8 9 10) := by decide
/-- Section 1.1, scenario 5: `ddiv $a3, $a2, $a1`. -/
theorem test_decode_ddiv : decode 0x00C5389E#32 = .ok (.ddiv 6 5 7) := by decide
theorem test_decode_ddivu : decode 0x0109509F#32 = .ok (.ddivu 8 9 10) := by decide
/-- Section 2.3. -/
theorem test_decode_ori : decode 0x35098000#32 = .ok (.ori 8 9 0x8000) := by decide
theorem test_decode_aui : decode 0x3D090001#32 = .ok (.aui 8 9 1) := by decide
theorem test_decode_dahi : decode 0x05065679#32 = .ok (.dahi 8 0x5679) := by decide
theorem test_decode_dati : decode 0x051E1234#32 = .ok (.dati 8 0x1234) := by decide
/-- Section 2.4. -/
theorem test_decode_lw : decode 0x8D0AFFFC#32 = .ok (.lw 8 10 0xFFFC) := by decide
theorem test_decode_sw : decode 0xAD090004#32 = .ok (.sw 8 9 4) := by decide
theorem test_decode_ld : decode 0xDD0A0008#32 = .ok (.ld 8 10 8) := by decide
theorem test_decode_sd : decode 0xFFFFFFFF#32 = .ok (.sd 31 31 0xFFFF) := by decide
/-- Section 2.5. -/
theorem test_decode_cop1 : decode 0x46020800#32 = .ok (.cop1 16 2 1 0 0) := by decide
theorem test_decode_j : decode 0x08000001#32 = .ok (.j 1) := by decide
theorem test_decode_jal : decode 0x0C000000#32 = .ok (.jal 0) := by decide

/-- Section 2.6: an illegal word of each class. -/
theorem test_decode_illegal : decode 0x24080001#32 = .error (.decodeFailure 0x09) ∧
    decode 0x00000000#32 = .error (.controlFunct 0x00) ∧ decode 0x010950D8#32 = .error (.controlShamt 0x18 0b00011) ∧
    decode 0x05000010#32 = .error (.controlRegimm 0) := by decide

/-- R42, R61: the bytes of `sw $t1, 4($t0)` in memory order, and the opcode table's numbering of them. -/
theorem test_decode_bytes : decodeBytes [0xAD, 0x09, 0x00, 0x04] = some (.ok (.sw 8 9 4)) ∧
    decodeTableWord 32 0xAD090004 = some (.sw 8 9 4) := by decide

/-- Section 1.1, scenarios 3 and 5, as they are written: offset before base, dividend before divisor. -/
theorem test_assemble : encode (Asm.mem .sw (.named .t1) 4 (.named .t0)).instr = 0xAD090004#32 ∧
    encode (Asm.rrr .ddiv (.named .a3) (.named .a2) (.named .a1)).instr = 0x00C5389E#32 ∧
    encode (Asm.mem .lw (.named .t2) (-4) (.named .t0)).instr = 0x8D0AFFFC#32 ∧
    encode (Asm.lui (.named .t0) 0x1234).instr = 0x3C081234#32 := by decide

/-! ### One step on a small state -/

/-- A machine after reset with some registers and bytes of memory set, and a word at pc. -/
def machine (regs : List (RegIdx × Dword)) (bytes : List (Nat × List Byte)) (word : Word) : State :=
  placeWord (bytes.foldl (fun s p => s.setMem (writeBytes s.mem p.1 p.2))
    (regs.foldl (fun s p => setGpr p.1 p.2 s) State.reset)) word

/-- pc and one register after a step that leaves the machine Running at IF. -/
def after (o : Out) (r : RegIdx) : Option (Dword × Dword) :=
  match o with
  | .next t => if t.status = .running ∧ t.stage = .instructionFetch then some (t.pc, gpr t r) else none
  | _ => none

/-- pc, and n bytes of memory from a, after such a step. -/
def stored (o : Out) (a n : Nat) : Option (Dword × List Byte) :=
  match o with
  | .next t => if t.status = .running ∧ t.stage = .instructionFetch then
      some (t.pc, (List.range n).map (fun k => readByte t.mem (a + k))) else none
  | _ => none

/-- The status, the stage and pc after a step. -/
def ended (o : Out) : Option (Status × Stage × Dword) :=
  match o with
  | .next t => some (t.status, t.stage, t.pc)
  | _ => none

/-- Whether a step answers this next state. -/
def answers (o : Out) (t : State) : Bool :=
  match o with
  | .next u => decide (u = t)
  | _ => false

theorem eq_of_answers {o : Out} {t : State} (h : answers o t = true) : o = .next t := by
  cases o with
  | next u => exact congrArg _ (of_decide_eq_true h)
  | fault _ => cases h
  | refused _ => cases h

/-- One instruction on $t0 and $t1 (95_test_vectors.md section 2); the register read afterwards is the last argument. -/
def run (t0 t1 : Dword) (word : Word) (r : RegIdx) : Option (Dword × Dword) :=
  after (step (machine [(8, t0), (9, t1)] [] word)) r

/-- Section 2.1. -/
theorem test_add_wraps : run 0x7FFFFFFF 1 0x01095020 10 = some (8, 0xFFFFFFFF80000000) := by decide
theorem test_add_upper : run 0xFFFFFFFF00000005 0x100000003 0x01095020 10 = some (8, 8) := by decide
theorem test_sub_wraps : run 0xFFFFFFFF80000000 1 0x01095022 10 = some (8, 0x7FFFFFFF) := by decide
theorem test_sub_order : run 10 3 0x01095022 10 = some (8, 7) := by decide
theorem test_and_wide : run 0xFF00FF00FF00FF00 0x0FF00FF00FF00FF0 0x01095024 10 = some (8, 0x0F000F000F000F00) := by
  decide
theorem test_or_wide : run 0xFF00FF00FF00FF00 0x0FF00FF00FF00FF0 0x01095025 10 = some (8, 0xFFF0FFF0FFF0FFF0) := by
  decide
theorem test_slt_signed : run 0xFFFFFFFFFFFFFFFF 1 0x0109502A 10 = some (8, 1) := by decide
theorem test_slt_wide : run 0x80000000 1 0x0109502A 10 = some (8, 0) := by decide
theorem test_sltu_unsigned : run 0xFFFFFFFFFFFFFFFF 1 0x0109502B 10 = some (8, 0) := by decide
theorem test_sltu_order : run 1 0xFFFFFFFFFFFFFFFF 0x0109502B 10 = some (8, 1) := by decide
theorem test_dadd_wide : run 0xFFFFFFFF 1 0x0109502C 10 = some (8, 0x100000000) := by decide
theorem test_dadd_wraps : run 0x7FFFFFFFFFFFFFFF 1 0x0109502C 10 = some (8, 0x8000000000000000) := by decide
theorem test_dsub_wraps : run 0x8000000000000000 1 0x0109502E 10 = some (8, 0x7FFFFFFFFFFFFFFF) := by decide
theorem test_dsub_order : run 5 7 0x0109502E 10 = some (8, 0xFFFFFFFFFFFFFFFE) := by decide
/-- Section 2.2. -/
theorem test_mul_signed : run 0xFFFFFFFFFFFFFFFD 5 0x01095098 10 = some (8, 0xFFFFFFFFFFFFFFF1) := by decide
theorem test_mul_low : run 0x10000 0x10000 0x01095098 10 = some (8, 0) := by decide
theorem test_mulu_low : run 0xFFFFFFFF 0xFFFFFFFF 0x01095099 10 = some (8, 1) := by decide
theorem test_mulu_extends : run 0x80000000 1 0x01095099 10 = some (8, 0xFFFFFFFF80000000) := by decide
theorem test_div_truncates : run 0xFFFFFFFFFFFFFFF9 2 0x0109509A 10 = some (8, 0xFFFFFFFFFFFFFFFD) := by decide
theorem test_div_low_zero : run 5 0x100000000 0x0109509A 10 = some (8, 0) := by decide
theorem test_divu_extends : run 0xFFFFFFFE 1 0x0109509B 10 = some (8, 0xFFFFFFFFFFFFFFFE) := by decide
theorem test_divu_zero : run 9 0 0x0109509B 10 = some (8, 0) := by decide
theorem test_dmul_low : run 0x100000000 0x100000000 0x0109509C 10 = some (8, 0) := by decide
theorem test_dmul_signed : run 0xFFFFFFFFFFFFFFFF 0xFFFFFFFFFFFFFFFF 0x0109509C 10 = some (8, 1) := by decide
theorem test_dmulu_low : run 0x123456789 0x100000000 0x0109509D 10 = some (8, 0x2345678900000000) := by decide
theorem test_ddiv_overflow : run 0x8000000000000000 0xFFFFFFFFFFFFFFFF 0x0109509E 10 = some (8, 0x8000000000000000) := by
  decide
theorem test_ddiv_truncates : run 7 0xFFFFFFFFFFFFFFFE 0x0109509E 10 = some (8, 0xFFFFFFFFFFFFFFFD) := by decide
theorem test_ddivu_wide : run 0xFFFFFFFFFFFFFFF9 2 0x0109509F 10 = some (8, 0x7FFFFFFFFFFFFFFC) := by decide
theorem test_ddivu_zero : run 9 0 0x0109509F 10 = some (8, 0) := by decide
/-- Section 2.3. -/
theorem test_ori_zero_extends : run 0xFFFFFFFF00000000 0 0x35098000 9 = some (8, 0xFFFFFFFF00008000) := by decide
theorem test_ori_x0 : run 5 0 0x35001234 0 = some (8, 0) := by decide
theorem test_aui_wraps : run 0x7FFFFFFF 0 0x3D090001 9 = some (8, 0xFFFFFFFF8000FFFF) := by decide
theorem test_aui_negative : run 0x10005 0 0x3D09FFFF 9 = some (8, 5) := by decide
theorem test_dahi_low : run 0xFFFFFFFF9ABCDEF0 0 0x05065679 8 = some (8, 0x000056789ABCDEF0) := by decide
theorem test_dahi_carry : run 0xFFFFFFFFFFFFFFFF 0 0x05060001 8 = some (8, 0x00000000FFFFFFFF) := by decide
theorem test_dati_top : run 0x000056789ABCDEF0 0 0x051E1234 8 = some (8, 0x123456789ABCDEF0) := by decide
theorem test_dati_wraps : run 0x8000000000000000 0 0x051E8000 8 = some (8, 0) := by decide
/-- Section 2.4: sign extension at a negative offset; an access across the end of memory gives 0. -/
theorem test_lw_extends : after (step (machine [(8, 0x104)] [(0x100, [0x80, 0x00, 0x00, 0x01])] 0x8D0AFFFC)) 10 =
    some (8, 0xFFFFFFFF80000001) := by decide
theorem test_lw_end : after (step (machine [(8, 0xFFE), (10, 1)] [(0xFFE, [1, 2])] 0x8D0A0000)) 10 = some (8, 0) := by
  decide
theorem test_sw_big_endian : stored (step (machine [(8, 0x100), (9, 0x123456789ABCDEF0)] [] 0xAD090000)) 0xFF 6 =
    some (8, [0, 0x9A, 0xBC, 0xDE, 0xF0, 0]) := by decide
theorem test_sw_end : stored (step (machine [(8, 0xFFE), (9, 0xAABBCCDD)] [] 0xAD090000)) 0xFFC 4 =
    some (8, [0, 0, 0, 0]) := by decide
theorem test_ld_wide : after (step (machine [(8, 0x100)] [(0x100, [1, 0x23, 0x45, 0x67, 0x89, 0xAB, 0xCD, 0xEF])]
    0xDD0A0000)) 10 = some (8, 0x0123456789ABCDEF) := by decide
theorem test_ld_bit32 : after (step (machine [(8, 0x100000100)] [(0x100, [1, 2, 3, 4, 5, 6, 7, 8])] 0xDD0A0000)) 10 =
    some (8, 0) := by decide
theorem test_sd_negative : stored (step (machine [(8, 0x108), (9, 0x8000000000000001)] [] 0xFD09FFF8)) 0x100 8 =
    some (8, [0x80, 0, 0, 0, 0, 0, 0, 1]) := by decide
theorem test_sd_past_end : stored (step (machine [] [] 0xFFFFFFFF)) 0xFF8 8 = some (8, [0, 0, 0, 0, 0, 0, 0, 0]) := by
  decide
/-- Section 2.5: COP1 changes pc alone; J and JAL end the run. -/
theorem test_cop1 : after (step (machine [(2, 5)] [] 0x46020800)) 2 = some (8, 5) := by decide
theorem test_j : ended (step (machine [] [] 0x08000001)) =
    some (.fatal (.controlJType 2), .instructionDecode, 4) := by decide
theorem test_jal : ended (step (machine [] [] 0x0C000000)) =
    some (.fatal (.controlJType 3), .instructionDecode, 4) := by decide

/-- R80, R291, R195: an attached coprocessor sees the six state hooks of a COP1 word, the second register and the sum. -/
theorem test_cop1_hooks :
    (match step ((machine [(16, 100), (2, 5)] [] 0x46020800).setCop (.attached [])) with
     | .next t => t.cop
     | _ => .null) = .attached [.writeback, .receiveData 105, .memory, .execute, .decode 5, .fetch 0x46020800] := by
  decide


/-- R300, R303: TradCore on scenario 1 gives what the pipeline gives, and leaves the wires ⊥. -/
theorem test_trad_add : (tradStep (machine [(9, 5)] [] 0x01294820)).2 = .executed ∧
    gpr (tradStep (machine [(9, 5)] [] 0x01294820)).1 9 = 10 ∧ (tradStep (machine [(9, 5)] [] 0x01294820)).1.pc = 8 ∧
    (tradStep (machine [(9, 5)] [] 0x01294820)).1.w = Wires.bottom := by decide

/-- Section 2.8: AND is unsupported under TradCore, and pc stays. -/
theorem test_trad_and : (tradStep (machine [] [] 0x01095024)).2 = .unsupported 0 0x24 ∧
    (tradStep (machine [] [] 0x01095024)).1.pc = 4 := by decide

/-- R172: the second host call after one stage finishes the pending instruction. -/
theorem test_finish : (match step ((machine [(9, 5)] [] 0x01294820).setCalls [.executeStage]) with
    | .next t => after (step t) 9
    | _ => none) = some (8, 10) := by decide

/-- Section 2.7: loader overflow with MEM_SIZE 0x10; the words before the failing store stay. -/
theorem test_loader : (loadInstructions [0x11111111, 0x22222222, 0x33333333, 0x44444444]
      { State.reset with cfg := { size := 0x10, aligned := false, denied := [] } }).2 = false ∧
    readWord (loadInstructions [0x11111111, 0x22222222, 0x33333333, 0x44444444]
      { State.reset with cfg := { size := 0x10, aligned := false, denied := [] } }).1.mem 12 = 0x33333333#32 := by decide

/-- Section 2.7, R203: register reads by name after `ori $s0, $zero, 12345`. -/
theorem test_accessors : (match step (machine [] [] 0x34103039) with
    | .next t => [registerByName (.gpr .s0) t, registerByName (.gpr .zero) t, registerByName .pc t]
    | _ => []) = [12345, 0, 8] := by decide

/-- Section 2.7: a fetch out of range substitutes the word 0, which raises Fatal kind 2. -/
theorem test_fetch_fails : ended (step (State.reset.setPc 0x1000)) =
    some (.fatal (.controlFunct 0), .instructionDecode, 0x1000) := by decide

/-- R206: after Fatal there is no step. -/
theorem test_after_fatal : (match step (machine [] [] 0x08000001) with
    | .next t => (match step t with
      | .fault (.fatal info) => some info
      | _ => none)
    | _ => none) = some (.controlJType 2) := by decide

/-! ### Witnesses: states and operands that meet the hypotheses of the statements -/

/-- The machine after k stages of `sw $t1, 4($t0)` on $t0 = 4, $t1 = 0xFF (scenario 3); any other outcome reads as reset. -/
def midway (k : Nat) : State :=
  match runStages k (machine [(8, 4), (9, 0xFF)] [] 0xAD090004) with
  | .next t => t
  | _ => State.reset

/-- The same for `lw $t2, 4($t0)`. -/
def midLoad (k : Nat) : State :=
  match runStages k (machine [(8, 4)] [(8, [0, 0, 0, 0xFF])] 0x8D0A0004) with
  | .next t => t
  | _ => State.reset

theorem witness_DecodeOfEncode : (Instr.sd 31 31 0xFFFF).wf = true ∧ (Instr.j 0).wf = true := by decide

theorem witness_EncodeOfDecode : decode 0xFFFFFFFF#32 = .ok (.sd 31 31 0xFFFF) ∧ decode 0x0C000000#32 = .ok (.jal 0) := by
  decide

theorem witness_RowsPartitionTheWords : ∃ p ∈ rows, p.mnemonic = (Instr.dati 0 0).mnemonic ∧
    0x041E0000#32 &&& p.mask = p.pattern ∧ decode 0x041E0000#32 = .ok (.dati 0 0) := by decide

theorem witness_AssemblerImmediates : (Asm.ori (.named .t0) (.numbered 31) 65535).wf = true ∧
    (Asm.ori (.named .t0) (.numbered 31) 0).wf = true ∧ (Asm.aui (.named .t0) (.named .t1) (-32768)).wf = true ∧
    (Asm.aui (.named .t0) (.named .t1) 65535).wf = true ∧ (Asm.mem .sd (.named .t0) (-32768) (.named .t1)).wf = true ∧
    (Asm.mem .lw (.named .t0) 32767 (.named .t1)).wf = true := by decide

theorem witness_BundleOfEachTemplate : ∃ c, Machine.control (.rType 0 31 31 31 0b00010 0x1F) = .ok c := ⟨_, rfl⟩

/-- An admitted word, and a decodable word that the generator rejects, of each class. -/
theorem witness_GeneratorAdmitsExactlyTheSubset :
    decodeVariant 0x010957DF#32 = .ok (.rType 0 8 9 10 31 0x1F) ∧
    illegalInfo 0x010957DF#32 = some (.controlShamt 0x1F 31) ∧
    decodeVariant 0x00000000#32 = .ok (.rType 0 0 0 0 0 0) ∧ illegalInfo 0x00000000#32 = some (.controlFunct 0) ∧
    decodeVariant 0x041F0000#32 = .ok (.iType 1 0 31 0) ∧ illegalInfo 0x041F0000#32 = some (.controlRegimm 31) ∧
    decodeVariant 0x0C000000#32 = .ok (.jType 3 0) ∧ illegalInfo 0x0C000000#32 = some (.controlJType 3) ∧
    decodeVariant 0xFFFFFFFF#32 = .ok (.iType 0x3F 31 31 0xFFFF) ∧ illegalInfo 0xFFFFFFFF#32 = none := by decide

theorem witness_BranchAndJumpHaveNoMeaning : (∃ c, Machine.control (.fpuRType 0x11 0 0 0 0 0) = .ok c) ∧
    (midway 2).status = .running ∧ (midway 2).stage = .execute ∧ (midway 2).ctrl.isSome = true ∧
    (midway 3).status = .running ∧ (midway 3).stage = .memory ∧ (midway 3).ctrl.isSome = true ∧
    (midway 4).status = .running ∧ (midway 4).stage = .writeBack ∧ (midway 4).ctrl.isSome = true :=
  ⟨⟨_, rfl⟩, by decide⟩

/-- The first and the last divisor of each clause: zero, and the overflow of each width. -/
theorem witness_DivisionTruncates : (0x8000000000000000#64).toInt = -2 ^ 63 ∧ (0xFFFFFFFFFFFFFFFF#64).toInt = -1 ∧
    (lo32 0x80000000#64).toInt = -2 ^ 31 ∧ (lo32 0xFFFFFFFF#64).toInt = -1 ∧ lo32 0x100000000#64 = 0#32 := by decide

theorem witness_WordOperations : lo32 0xFFFFFFFF00000005#64 = lo32 5#64 ∧
    memOk State.reset.cfg (0xFFC#64 : Dword).toNat 4 = true := by decide

theorem witness_InstructionFetch : (midway 0).status = .running ∧ (midway 0).stage = .instructionFetch ∧
    memOk (midway 0).cfg (midway 0).pc.toNat 4 = true ∧ memOk State.reset.cfg (0xFFD#64 : Dword).toNat 4 = false := by
  decide

theorem witness_InstructionDecode : (midway 1).status = .running ∧ (midway 1).stage = .instructionDecode ∧
    (midway 1).w.instruction = some 0xAD090004#32 ∧ illegalInfo 0xAD090004#32 = none ∧
    ((midway 1).setWires { Wires.bottom with instruction := some 0x00000000#32 }).w.instruction = some 0#32 ∧
    illegalInfo 0#32 = some (.controlFunct 0) := by decide

theorem witness_Execute : (midway 2).status = .running ∧ (midway 2).stage = .execute ∧
    ∃ c, (midway 2).ctrl = some c ∧ c.aluControl = some .addition ∧ (midway 2).w.readData1 = some 4#64 ∧
      op2 c (midway 2).w = some 4#64 := ⟨by decide, by decide, withAlu storeWord .addition, by decide⟩

/-- A store, and a load, whose selection reads memory. -/
theorem witness_MemoryAccess : (midway 3).status = .running ∧ (midway 3).stage = .memory ∧
    (midway 3).ctrl = some (withAlu storeWord .addition) ∧ (midway 3).w.aluResult = some 8#64 ∧
    (midway 3).w.readData2 = some 0xFF#64 ∧ (midLoad 3).status = .running ∧ (midLoad 3).stage = .memory ∧
    (midLoad 3).ctrl = some (withAlu loadWord .addition) ∧ (midLoad 3).w.aluResult = some 8#64 ∧
    (midLoad 3).w.readData2 = some 0#64 ∧ loadWord.memToReg = .useMemory ∧ loadWord.memRead = true := by decide

/-- A bundle that writes a register, and one that writes none. -/
theorem witness_WriteBack : (midLoad 4).status = .running ∧ (midLoad 4).stage = .writeBack ∧
    (midLoad 4).ctrl = some (withAlu loadWord .addition) ∧ (midLoad 4).w.dataResult = some 0xFF#64 ∧
    dstIndex .rt (midLoad 4).w = some 10#5 ∧ loadWord.regWrite = true ∧ (midway 4).status = .running ∧
    (midway 4).stage = .writeBack ∧ (midway 4).ctrl = some (withAlu storeWord .addition) ∧
    (midway 4).w.dataResult = some 8#64 ∧ dstIndex .rt (midway 4).w = some 9#5 ∧ storeWord.regWrite = false := by decide

/-- A stage step from each stage, and a state whose status is Fatal. -/
theorem witness_StageAdvances : executeStage (midway 0) = .next (midway 1) ∧ executeStage (midway 1) = .next (midway 2) ∧
    executeStage (midway 2) = .next (midway 3) ∧ executeStage (midway 3) = .next (midway 4) ∧
    executeStage (midway 4) = .next (midway 5) ∧
    (State.reset.setStatus (.fatal (.controlFunct 0))).status = .fatal (.controlFunct 0) :=
  ⟨eq_of_answers (by decide), eq_of_answers (by decide), eq_of_answers (by decide), eq_of_answers (by decide),
    eq_of_answers (by decide), rfl⟩

theorem witness_VisibleStateByStage : executeStage (midway 3) = .next (midway 4) ∧ (midway 3).stage = .memory ∧
    executeStage (midway 4) = .next (midway 5) ∧ (midway 4).stage = .writeBack ∧
    executeStage (midway 0) = .next (midway 1) ∧ (midway 0).stage = .instructionFetch :=
  ⟨eq_of_answers (by decide), by decide, eq_of_answers (by decide), by decide, eq_of_answers (by decide), by decide⟩

theorem witness_StepRunsTheDecodedInstruction : (midway 0).status = .running ∧ (midway 0).stage = .instructionFetch ∧
    (Instr.sw 8 9 4).wf = true ∧ memOk (midway 0).cfg (midway 0).pc.toNat 4 = true ∧
    decodeBytes [readByte (midway 0).mem 4, readByte (midway 0).mem 5, readByte (midway 0).mem 6,
      readByte (midway 0).mem 7] = some (.ok (.sw 8 9 4)) ∧ (midway 0).pc.toNat = 4 ∧ (midway 0).calls = [] ∧
    ((midway 0).setCalls [.executeInstruction]).calls = [.executeInstruction] ∧
    ((midway 0).setCalls [.executeInstructionSelect .datapath]).calls = [.executeInstructionSelect .datapath] := by decide

theorem witness_SingleStepEquivalence : (midway 0).status = .running ∧ (midway 0).stage = .instructionFetch := by decide

/-- A pending instruction that goes on, and one that has raised Fatal, at the first and the last k. -/
theorem witness_PendingInstructionIsFinished : runStages 1 (midway 0) = .next (midway 1) ∧
    (midway 1).status = .running ∧ runStages 4 (midway 0) = .next (midway 4) ∧ (midway 4).status = .running ∧
    ended (runStages 4 (machine [] [] 0)) = some (.fatal (.controlFunct 0), .instructionDecode, 4) :=
  ⟨eq_of_answers (by decide), by decide, eq_of_answers (by decide), by decide, by decide⟩

theorem witness_HostOperations : (midway 0).status = .running ∧
    ((midway 0).setCalls [.executeStage]).calls = [.executeStage] ∧
    ((midway 0).setCalls [.executeInstructionSelect .trad]).calls = [.executeInstructionSelect .trad] ∧
    ((midway 0).setCalls [.loadInstructions [0]]).calls = [.loadInstructions [0]] ∧ (midway 0).calls = [] := by decide

theorem witness_EveryInstructionCompletes : ¬ isJump (.sd 31 31 0xFFFF) ∧ ¬ isJump (.cop1 0 0 0 0 0) ∧
    destination (.sd 31 31 0xFFFF) ≠ some 0#5 ∧ destination (.dahi 31 0) ≠ some 0#5 ∧ State.reset.cop = .null := by
  refine ⟨?_, ?_, by decide⟩ <;> rintro ⟨_, _, h⟩ <;> cases h

/-- The hypothesis of every result statement of an arithmetic, logic, immediate or load instruction. -/
theorem witness_NullCoprocessorIsAttachedAtReset : State.reset.cop = .null ∧ (machine [(8, 5)] [] 0x01095020).cop = .null := by
  decide

/-- Loads: the last address whose access is admitted and the first that fails, at both widths. -/
theorem witness_Loads : (machine [(8, 0xFFC)] [] 0).cop = .null ∧
    memOk State.reset.cfg (wordAddress (machine [(8, 0xFFC)] [] 0) 8 0).toNat 4 = true ∧
    memOk State.reset.cfg (wordAddress (machine [(8, 0xFFC)] [] 0) 8 1).toNat 4 = false ∧
    memOk State.reset.cfg (doubleAddress (machine [(8, 0xFF8)] [] 0) 8 0).toNat 8 = true ∧
    memOk State.reset.cfg (doubleAddress (machine [(8, 0xFF8)] [] 0) 8 1).toNat 8 = false := by decide

theorem witness_StoreWordForm : Memory.wf (machine [(8, 0xFFC)] [] 0).mem ∧
    memOk State.reset.cfg (wordAddress (machine [(8, 0xFFC)] [] 0) 8 0).toNat 4 = true ∧
    memOk State.reset.cfg (wordAddress (machine [(8, 0xFFC)] [] 0) 8 1).toNat 4 = false := by decide

theorem witness_StoreDoubleForm : Memory.wf (machine [(8, 0xFF8)] [] 0).mem ∧
    memOk State.reset.cfg (doubleAddress (machine [(8, 0xFF8)] [] 0) 8 0).toNat 8 = true ∧
    memOk State.reset.cfg (doubleAddress (machine [(8, 0xFF8)] [] 0) 8 1).toNat 8 = false := by decide

theorem witness_Cop1PassesThrough : (machine [] [] 0x46020800).stage = .instructionFetch ∧
    fetchWord (machine [] [] 0x46020800) = encode (.cop1 16 2 1 0 0) := by decide

theorem witness_JumpsRaiseFatal : (machine [] [] 0x08000001).stage = .instructionFetch ∧
    fetchWord (machine [] [] 0x08000001) = encode (.j 1) ∧ fetchWord (machine [] [] 0x0C000000) = encode (.jal 0) := by
  decide

theorem witness_CoprocessorArbitration : ¬ isJump (.add 8 9 10 0) ∧
    ((machine [] [] 0x01095020).setCop (.attached [])).cop = .attached [] ∧ destination (.add 8 9 10 0) = some 10#5 ∧
    (10#5 : RegIdx) ≠ 0#5 ∧ destination (.add 8 9 10 0) ≠ some 31#5 := by
  refine ⟨?_, by decide⟩
  rintro ⟨_, _, h⟩
  cases h

theorem witness_NullCoprocessor : (midway 0).cop = .null ∧ ∃ t, step (midway 0) = .next t := ⟨by decide, _, rfl⟩

theorem witness_ZeroRegister : (31#5 : RegIdx) ≠ 0#5 ∧ (1#5 : RegIdx) ≠ 0#5 := by decide

/-- A step that writes a register and advances pc, and one that changes neither. -/
theorem witness_StepFrame : (∃ t, step (machine [(9, 5)] [] 0x01294820) = .next t) ∧
    (∃ t, step ((midway 0).setCalls [.getMemory]) = .next t) := ⟨⟨_, rfl⟩, ⟨_, rfl⟩⟩

/-- Stores at the last admitted address of each width. -/
theorem witness_StoresReadBack : Memory.wf State.reset.mem ∧ State.reset.cfg.size ≤ 2 ^ 64 ∧
    (memWrite4 0xFFC#64 0x11223344#32 State.reset).isSome = true ∧
    (memWrite8 0xFF8#64 0x1122334455667788#64 State.reset).isSome = true ∧
    memOk State.reset.cfg (0xFF8#64 : Dword).toNat 4 = true ∧
    memOk State.reset.cfg ((0xFF8#64 : Dword).toNat + 4) 4 = true := by decide

theorem witness_FailedAccesses : State.reset.cfg.size < (0xFFD#64 : Dword).toNat + 4 ∧
    memOk State.reset.cfg (State.reset.setPc 0xFFD).pc.toNat 4 = false ∧
    memOk State.reset.cfg (0xFFFFFFFFFFFFFFFF#64 : Dword).toNat RegWidth.word.bytes = false ∧
    memOk State.reset.cfg (0xFF9#64 : Dword).toNat RegWidth.doubleWord.bytes = false := by decide

/-- `sw $t1, 4($t0)` at pc 4: it stores to the next word at $t0 = 4, and to its own at $t0 = 0. -/
theorem witness_StoresAreFetched : Memory.wf (midway 0).mem ∧ (midway 0).status = .running ∧
    (midway 0).stage = .instructionFetch ∧ (midway 0).calls = [] ∧ fetchWord (midway 0) = encode (.sw 8 9 4) ∧
    wordAddress (midway 0) 8 4 = (midway 0).pc + 4#64 ∧
    memOk (midway 0).cfg ((midway 0).pc + 4#64).toNat 4 = true ∧
    wordAddress (machine [(9, 0xFF)] [] 0xAD090004) 8 4 = (machine [(9, 0xFF)] [] 0xAD090004).pc ∧
    fetchWord (machine [(9, 0xFF)] [] 0xAD090004) = encode (.sw 8 9 4) ∧
    memOk State.reset.cfg (machine [(9, 0xFF)] [] 0xAD090004).pc.toNat 4 = true := by decide

/-- The same for `sd $t1, 4($t0)`, on $t0 = 4 (the next word) and on $t0 = 0 (its own). -/
theorem witness_StoresAreFetched_sd :
    (let next := machine [(8, 4), (9, 0xFF)] [] 0xFD090004
     Memory.wf next.mem ∧ next.status = .running ∧ next.stage = .instructionFetch ∧ next.calls = [] ∧
     fetchWord next = encode (.sd 8 9 4) ∧ doubleAddress next 8 4 = next.pc + 4#64 ∧
     memOk next.cfg (next.pc + 4#64).toNat 8 = true ∧ memOk next.cfg (next.pc + 4#64).toNat 4 = true) ∧
    (let own := machine [(9, 0xFF)] [] 0xFD090004
     Memory.wf own.mem ∧ own.status = .running ∧ own.stage = .instructionFetch ∧ own.calls = [] ∧
     fetchWord own = encode (.sd 8 9 4) ∧ doubleAddress own 8 4 = own.pc ∧ memOk own.cfg own.pc.toNat 8 = true ∧
     own.cfg.size ≤ 2 ^ 64 ∧ memOk own.cfg (own.pc + 4#64).toNat 4 = true) := by decide

/-- A word of each of the five classes, and one that is admitted. -/
theorem witness_IllegalWordsRaiseFatal : (machine [] [] 0x24080001).status = .running ∧
    (machine [] [] 0x24080001).stage = .instructionFetch ∧
    illegalInfo (fetchWord (machine [] [] 0x24080001)) = some (.decodeFailure 9) ∧
    illegalInfo (fetchWord (machine [] [] 0x0000000C)) = some (.controlFunct 0x0C) ∧
    illegalInfo (fetchWord (machine [] [] 0x010950D8)) = some (.controlShamt 0x18 3) ∧
    illegalInfo (fetchWord (machine [] [] 0x05000010)) = some (.controlRegimm 0) ∧
    illegalInfo (fetchWord (machine [] [] 0x08000001)) = some (.controlJType 2) ∧
    illegalInfo (fetchWord (machine [] [] 0x0109509F)) = none := by decide

theorem witness_FatalIsFinal : (State.reset.setStatus (.fatal (.controlFunct 0))).status = .fatal (.controlFunct 0) ∧
    ended (step (machine [] [] 0)) = some (.fatal (.controlFunct 0), .instructionDecode, 4) := by decide

/-- Supported words at the edges of each range: the first and the last funct of the SOP range, and each listed one. -/
theorem witness_TradCoreAgreesWithThePipeline : (midway 0).status = .running ∧
    (midway 0).stage = .instructionFetch ∧ tradSupportedWord (fetchWord (midway 0)) ∧ (midway 0).cop = .null ∧
    tradSupportedWord 0x01095098#32 ∧ tradSupportedWord 0x0109509F#32 ∧ tradSupportedWord 0x01095160#32 := by
  simp only [tradSupportedWord]; decide

theorem witness_TradCoreRefusals : (machine [] [] 0x010950D8).stage = .instructionFetch ∧
    ¬ tradSupportedWord (fetchWord (machine [] [] 0x010950D8)) ∧ (midway 2).status = .running ∧
    (midway 2).stage ≠ .instructionFetch ∧
    ((midway 2).setCalls [.executeInstructionSelect .trad]).calls = [.executeInstructionSelect .trad] := by
  simp only [tradSupportedWord]; decide

theorem witness_Loader : Memory.wf State.reset.mem := by decide

theorem witness_Accessors : State.reset.status = .running ∧
    (State.reset.setCalls [.getRegisterByEnum (.gpr .ra)]).calls = [.getRegisterByEnum (.gpr .ra)] ∧
    (State.reset.setCalls [.getRegisterByEnum .pc]).calls = [.getRegisterByEnum .pc] ∧
    (State.reset.setCalls [.getMemory]).calls = [.getMemory] := by decide

theorem witness_ResetState : (31#5 : RegIdx) ≠ 0#5 ∧ 0xFFF < commonLaunch.cfg.size := by decide

/-- The invariant holds in every stage of an instruction, not only at IF. -/
theorem witness_StepKeepsTheInvariant : Inv (midway 0) ∧ Inv (midway 1) ∧ Inv (midway 2) ∧ Inv (midway 3) ∧
    Inv (midway 4) ∧ step ((midway 3).setCalls [.executeStage]) = .next (midway 4) :=
  ⟨by decide, by decide, by decide, by decide, by decide, eq_of_answers (by decide)⟩

theorem witness_RunningAlwaysSteps : Inv (midway 2) ∧ (midway 2).status = .running := by decide

/-- A reachable Running state, and a reachable Fatal one: the word 0 at pc = 4. -/
theorem witness_OnlyFatalStopsARun : Reachable commonLaunch (launch commonLaunch) ∧
    ∃ t, Reachable commonLaunch t ∧ t.status = .fatal (.controlFunct 0) :=
  ⟨.start, _, .steps _ _ .start rfl, by decide⟩

theorem witness_BundlePort : (withAlu storeWord .addition).aluControl.isSome = true ∧ (6#3).toNat ≥ 6 ∧
    (11#4).toNat ≥ 11 ∧ (3#2).toNat = 3 := by decide

theorem witness_DecoderAndGeneratorPorts : decodeVariant 0xFFFFFFFF#32 = .ok (.iType 0x3F 31 31 0xFFFF) := by decide

/-- R102: an SOP word with a bad shamt outputs ctrl_ok 0 and all four inputs; an admitted word outputs no diagnostic. -/
theorem test_generatorPort_fails : generatorPort 0b00#2 0x00#6 9#5 3#5 0x18#6 =
    { ctrlOk := 0#1, bundle := none, diagnostic := some { opcode := 0x00#6, funct := 0x18#6, shamt := 3#5, rt := 9#5 } } := by
  decide

theorem test_generatorPort_answers : (generatorPort 0b01#2 0x2B#6 9#5 0#5 0x04#6).ctrlOk = 1#1 ∧
    (generatorPort 0b01#2 0x2B#6 9#5 0#5 0x04#6).diagnostic = none := by decide

end Sys2Proof.Tests
end

section
/-! PROOFS. The state family (10_state.md). First what the decoder, the generator, the sequencer and each host operation
give back, said once; then the invariant of a stage, of a run of stages and of a step; then the statements. -/

namespace Sys2Proof.Machine

/-! ### The decoder and the generator -/

/-- A word that decodes to an instruction decodes to that instruction's variant (R63, R70). -/
theorem decodeVariant_of_decode {w : Word} {i : Instr} (h : decode w = .ok i) : decodeVariant w = .ok i.variant := by
  unfold decode at h
  cases hv : decodeVariant w with
  | error info => rw [hv] at h; cases h
  | ok v =>
    rw [hv] at h
    unfold decodeVariant at hv
    split_ifs at hv with hspecial hi hj hcop <;> cases hv
    · rw [selectSpecial_ok h, hspecial]
    · rw [selectIType_ok h]
    · rw [selectJType_ok h]
    · cases h; rw [hcop]; rfl

/-- A bundle of the primary lookup that selects memory reads it, and no bundle stores the coprocessor's value (R104). -/
theorem ctrlPrimary_memory {v : Variant} {c : Ctrl} (h : ctrlPrimary v = .ok c) :
    (c.memToReg = .useMemory → c.memRead = true) ∧ c.memWriteSrc = .primaryUnit := by
  cases v with
  | rType op rs rt rd shamt funct =>
    simp only [ctrlPrimary] at h
    split at h <;> cases h
    exact ⟨nofun, rfl⟩
  | iType op rs rt imm =>
    simp only [ctrlPrimary, regimmSelect] at h
    split_ifs at h <;> cases h <;> decide
  | jType op target => cases h
  | fpuRType op fmt ft fs fd function => cases h; exact ⟨nofun, rfl⟩

/-- The generator's bundle is a template of the primary lookup with its ALU control put in (R122). -/
theorem control_eq_ok {v : Variant} {c : Ctrl} (h : control v = .ok c) :
    ∃ p a, ctrlPrimary v = .ok p ∧ aluControlOf p v = .ok a ∧ c = withAlu p a := by
  unfold control at h
  cases hp : ctrlPrimary v with
  | error info => rw [hp] at h; cases h
  | ok p =>
    rw [hp] at h; dsimp only at h
    cases ha : aluControlOf p v with
    | error info => rw [ha] at h; cases h
    | ok a => rw [ha] at h; cases h; exact ⟨p, a, rfl, ha, rfl⟩

theorem control_of_primary {v : Variant} {c : Ctrl} {a : AluControl} (hc : ctrlPrimary v = .ok c)
    (ha : aluControlOf c v = .ok a) : control v = .ok (withAlu c a) := by
  simp only [control, hc, ha]

/-! ### Runs of stages -/

/-- After Fatal a run of stages stops where it is (R172). -/
theorem runStages_fatal {s : State} {info : FatalInfo} (h : s.status = .fatal info) (n : Nat) :
    runStages n s = .next s := by
  cases n with
  | zero => rfl
  | succ n => rw [runStages, h]

theorem runStages_one {s : State} (h : s.status = .running) : runStages 1 s = executeStage s := by
  rw [runStages_succ h]
  cases executeStage s <;> rfl

/-- What every stage step keeps, a run of stages keeps. -/
theorem runStages_keeps {P : State → Prop} (hP : ∀ u v, P u → executeStage u = .next v → P v) :
    ∀ (n : Nat) {s t : State}, P s → runStages n s = .next t → P t := by
  intro n
  induction n with
  | zero => intro s t hs h; cases h; exact hs
  | succ n ih =>
    intro s t hs h
    cases hst : s.status with
    | fatal info => rw [runStages_fatal hst] at h; cases h; exact hs
    | running =>
      rw [runStages_succ hst] at h
      obtain ⟨u, hu, ht⟩ := andThen_eq_next h
      exact ih (hP s u hs hu) ht

/-- Where every stage step answers from `P` and keeps it, a run of stages answers. -/
theorem runStages_answers {P : State → Prop} (hP : ∀ u, P u → u.status = .running → ∃ v, executeStage u = .next v ∧ P v) :
    ∀ (n : Nat) {s : State}, P s → ∃ t, runStages n s = .next t ∧ P t := by
  intro n
  induction n with
  | zero => intro s hs; exact ⟨s, rfl, hs⟩
  | succ n ih =>
    intro s hs
    cases hst : s.status with
    | fatal info => exact ⟨s, runStages_fatal hst _, hs⟩
    | running =>
      obtain ⟨u, hu, hPu⟩ := hP s hs hst
      rw [runStages_succ hst, hu, andThen_next]
      exact ih hPu

/-- ID on a word whose variant has no template raises Fatal and keeps the stage (R176 step 4, R322). -/
theorem executeStage_decode_primary_error {s : State} {word : Word} {v : Variant} {info : FatalInfo}
    (h : s.status = .running) (hs : s.stage = .instructionDecode) (hw : s.w.instruction = some word)
    (hv : decodeVariant word = .ok v) (hc : ctrlPrimary v = .error info) :
    executeStage s = .next (raiseFatal info (latchFields v word s)) := by
  rw [executeStage_running h, work, hs]
  simp only [decodeWork, hw, need_some, hv, hc, andThen_next]
  rfl

/-- The stages from IF on a word that has a variant and no template are fatalAtControl. -/
theorem runStages_eq_fatalAtControl {v : Variant} {info : FatalInfo} {s : State} (hr : s.status = .running)
    (hs : s.stage = .instructionFetch) (hv : decodeVariant (fetchWord s) = .ok v) (hc : ctrlPrimary v = .error info) :
    runStages 5 s = fatalAtControl v info s := by
  have hid := executeStage_decode_primary_error (s := (latchFetch (fetchWord s) s).setStage .instructionDecode)
    hr rfl rfl hv hc
  rw [runStages_succ hr, executeStage_fetch hr hs, andThen_next, runStages_succ (by exact hr), hid, andThen_next,
    runStages_fatal (raiseFatal_status info _), fatalAtControl, decodeVariant_word hv]
  rfl

/-- R183: from IF, execute_instruction is five stages, fewer when Fatal stops them. -/
theorem executeInstruction_eq_runStages_of_fetch {s : State} (hr : s.status = .running)
    (hs : s.stage = .instructionFetch) : executeInstruction s = runStages 5 s := by
  have hfresh : executeInstruction s = freshInstruction s := by simp only [executeInstruction, hr, hs]
  rw [hfresh, freshInstruction]
  cases hd : decode (fetchWord s) with
  | error info => rfl
  | ok i =>
    have hv := decodeVariant_of_decode hd
    by_cases hj : isJump i
    · obtain ⟨op, target, -, hc, he⟩ := exec_jump i hj
      exact (he s).trans (runStages_eq_fatalAtControl hr hs hv hc).symm
    · exact (exec_eq i hj s).trans (runStages_eq_runInstruction hr hs hv (ctrlPrimary_variant i hj)
        (aluControlOf_variant i) (templateOf_load i) (templateOf_memWriteSrc i)).symm

/-- How many stages execute_instruction runs from a stage (R172): what is left of the instruction in flight, or all five. -/
def stagesOwed : Stage → Nat
  | .instructionFetch => 5
  | st => st.left

theorem stagesOwed_pos (st : Stage) : 1 ≤ stagesOwed st := by cases st <;> decide

theorem stagesOwed_succ {st : Stage} (h : st ≠ .writeBack) : stagesOwed st = stagesOwed st.succ + 1 := by
  cases st with
  | writeBack => exact absurd rfl h
  | _ => rfl

/-- R172, R183: execute_instruction is the run of the stages that are owed. -/
theorem executeInstruction_eq_runStages {s : State} (hr : s.status = .running) :
    executeInstruction s = runStages (stagesOwed s.stage) s := by
  by_cases hs : s.stage = .instructionFetch
  · rw [executeInstruction_eq_runStages_of_fetch hr hs, hs]; rfl
  · unfold executeInstruction
    rw [hr]
    cases h : s.stage with
    | instructionFetch => exact absurd h hs
    | _ => rfl

/-! ### What a host operation can do -/

/-- The calls that run the pipeline, and the default one (R172, R200, R201). -/
def PipelineCall (calls : List HostCall) : Prop :=
  calls = [] ∨ ∃ rest, calls = .executeStage :: rest ∨ calls = .executeInstruction :: rest ∨
    calls = .executeInstructionSelect .datapath :: rest

/-- What a host operation outside the pipeline makes of the state, its reply apart: a TradCore step, an accessor's nothing,
or the loader's stores (R200). -/
def OutsidePipeline (s u : State) : Prop :=
  u = (tradStep s).1 ∨ u = s ∨ ∃ words, u = (loadInstructions words s).1

theorem step_fatal {s : State} {info : FatalInfo} (h : s.status = .fatal info) : step s = .fault (.fatal info) := by
  simp only [step, drive, h]

theorem step_nil {s : State} (hr : s.status = .running) (hc : s.calls = []) : step s = executeInstruction s := by
  simp only [step, drive, hr, hc]

theorem step_cons {s : State} {call : HostCall} {rest : List HostCall} (hr : s.status = .running)
    (hc : s.calls = call :: rest) : step s = hostCall call (s.setCalls rest) := by
  simp only [step, drive, hr, hc]

/-- Everything a step of a Running machine can be: some of the stages that are owed, or an operation outside the pipeline
and its reply. `cs` are the calls that remain. -/
theorem step_cases {s : State} (hr : s.status = .running) :
    ∃ cs, (PipelineCall s.calls ∧ ∃ n ≤ stagesOwed s.stage, step s = runStages n (s.setCalls cs)) ∨
      (∃ u r, OutsidePipeline (s.setCalls cs) u ∧ step s = .next (u.addReply r)) := by
  cases hc : s.calls with
  | nil =>
    have hs : s.setCalls [] = s := by rw [← hc]; rfl
    exact ⟨[], .inl ⟨.inl rfl, _, le_rfl, by rw [hs, step_nil hr hc, executeInstruction_eq_runStages hr]⟩⟩
  | cons call rest =>
    have hru : (s.setCalls rest).status = .running := hr
    refine ⟨rest, ?_⟩
    rw [step_cons hr hc]
    cases call with
    | executeStage =>
      exact .inl ⟨.inr ⟨rest, .inl rfl⟩, 1, stagesOwed_pos _, (runStages_one hru).symm⟩
    | executeInstruction =>
      exact .inl ⟨.inr ⟨rest, .inr (.inl rfl)⟩, _, le_rfl, executeInstruction_eq_runStages hru⟩
    | executeInstructionSelect strategy =>
      cases strategy with
      | datapath => exact .inl ⟨.inr ⟨rest, .inr (.inr rfl)⟩, _, le_rfl, executeInstruction_eq_runStages hru⟩
      | trad => exact .inr ⟨_, _, .inl rfl, rfl⟩
    | getRegisterByEnum name => exact .inr ⟨_, _, .inr (.inl rfl), rfl⟩
    | getMemory => exact .inr ⟨_, _, .inr (.inl rfl), rfl⟩
    | loadInstructions words => exact .inr ⟨_, _, .inr (.inr ⟨words, rfl⟩), rfl⟩

/-- What a supported instruction does before TradCore completes it (R301): one register write, or a change of memory that
keeps its canonical form and its range. -/
def TradEffect (s t : State) : Prop :=
  (∃ d v, t = setGpr d v s) ∨ ∃ m, t = s.setMem m ∧ (Memory.wf s.mem → Memory.wf m) ∧
    (Memory.within s.cfg.size s.mem → Memory.within s.cfg.size m)

theorem tradEffect_some {i : Instr} {s t : State} (h : tradEffect i s = some t) : TradEffect s t := by
  cases i <;> simp only [tradEffect, reduceCtorEq, Option.some.injEq] at h
  case sw rs rt imm =>
    obtain ⟨m, hm, hkeeps⟩ := storeValue_eq_setMem .word (tradWordAddress s rs imm) (gpr s rt) s
    exact .inr ⟨m, h.symm.trans hm, hkeeps⟩
  all_goals exact .inl ⟨_, _, h.symm⟩

/-- Everything a TradCore step can make of the state: nothing, when it refuses; the latches cleared alone, when the word is
unsupported; or a supported instruction's effect and its completion (R300, R304, R305). -/
theorem tradStep_cases (s : State) :
    (tradStep s).1 = s ∨ (s.stage = .instructionFetch ∧ ((tradStep s).1 = clearLatches s ∨
      ∃ u, TradEffect (clearLatches s) u ∧ (tradStep s).1 = advancePc (clearX0 u))) := by
  unfold tradStep
  cases hs : s.stage with
  | instructionFetch =>
    refine .inr ⟨rfl, ?_⟩
    simp only [tradOnWord]
    cases decode (fetchWord s) with
    | error info => exact .inl rfl
    | ok i =>
      dsimp only
      cases he : tradEffect i (clearLatches s) with
      | none => exact .inl rfl
      | some u => exact .inr ⟨u, tradEffect_some he, rfl⟩
  | _ => exact .inl rfl

/-- The loader changes memory alone, keeps its canonical form and stays in range (R54, R43). -/
theorem storeWords_eq_setMem (words : List Word) : ∀ (a : Nat) (s : State),
    ∃ m, (storeWords a words s).1 = s.setMem m ∧ (Memory.wf s.mem → Memory.wf m) ∧
      (Memory.within s.cfg.size s.mem → Memory.within s.cfg.size m) := by
  induction words with
  | nil => intro a s; exact ⟨s.mem, rfl, id, id⟩
  | cons word rest ih =>
    intro a s
    rw [storeWords]
    split
    · next hok =>
      obtain ⟨m, hm, hwf, hin⟩ := ih (a + 4) (s.setMem (writeBytes s.mem a (wordBytes word)))
      exact ⟨m, hm, fun h => hwf (writeBytes_wf h a), fun h => hin (writeBytes_within h (memOk_range hok))⟩
    · exact ⟨s.mem, rfl, id, id⟩

theorem gpr_clearX0 (s : State) (r : RegIdx) : gpr (clearX0 s) r = gpr s r := by
  unfold gpr
  split
  · rfl
  · next hr =>
    have hne : 0 ≠ r.toNat := fun h => hr (BitVec.eq_of_toNat_eq h.symm)
    exact Vector.getElem_set_ne (by decide) _ hne

theorem clearX0_x_zero (s : State) : (clearX0 s).x[0] = 0#64 := Vector.getElem_set_self _

/-! ### The invariant in a stage -/

/-- What `decodedOk` checks, by name: the word, the variant and the bundle in flight, and the wires ID gave them. -/
structure Decoded (s : State) (word : Word) (v : Variant) (c : Ctrl) : Prop where
  instruction : s.w.instruction = some word
  instr : s.instr = some v
  ctrl : s.ctrl = some c
  variant : decodeVariant word = .ok v
  bundle : control v = .ok c
  rs : s.w.rs = some (Enc.rs word)
  rt : s.w.rt = some (Enc.rt word)
  rd : s.w.rd = some (Enc.rd word)
  imm : s.w.imm = some (Enc.imm word)
  signExtend : s.w.signExtend = some (sext16 (Enc.imm word))
  readData1 : s.w.readData1 = some (readReg c.regWidth s (Enc.rs word))
  readData2 : s.w.readData2 = some (readReg c.regWidth s (Enc.rt word))

theorem decodedOk_iff (s : State) : decodedOk s = true ↔ ∃ word v c, Decoded s word v c := by
  constructor
  · intro h
    unfold decodedOk at h
    split at h
    · next word v c hi hv hc =>
      simp only [Bool.and_eq_true, decide_eq_true_eq] at h
      obtain ⟨⟨⟨⟨⟨⟨⟨⟨h1, h2⟩, h3⟩, h4⟩, h5⟩, h6⟩, h7⟩, h8⟩, h9⟩ := h
      exact ⟨word, v, c, hi, hv, hc, h1, h2, h3, h4, h5, h6, h7, h8, h9⟩
    · cases h
  · rintro ⟨word, v, c, h⟩
    simp only [decodedOk, h.instruction, h.instr, h.ctrl, h.variant, h.bundle, h.rs, h.rt, h.rd, h.imm, h.signExtend,
      h.readData1, h.readData2, decide_true, Bool.and_self]

/-- The later stages may write their own wires: what ID latched stays, while no register changes. -/
theorem Decoded.of_later_wires {s t : State} {word : Word} {v : Variant} {c : Ctrl} {ea data result : Option Dword}
    (h : Decoded s word v c) (hx : t.x = s.x) (hi : t.instr = s.instr) (hc : t.ctrl = s.ctrl)
    (hw : t.w = { s.w with aluResult := ea, memoryData := data, dataResult := result }) : Decoded t word v c where
  instruction := by rw [hw]; exact h.instruction
  instr := hi.trans h.instr
  ctrl := hc.trans h.ctrl
  variant := h.variant
  bundle := h.bundle
  rs := by rw [hw]; exact h.rs
  rt := by rw [hw]; exact h.rt
  rd := by rw [hw]; exact h.rd
  imm := by rw [hw]; exact h.imm
  signExtend := by rw [hw]; exact h.signExtend
  readData1 := by rw [hw, readReg_of_x_eq hx]; exact h.readData1
  readData2 := by rw [hw, readReg_of_x_eq hx]; exact h.readData2

/-- The operand-2 multiplexer reads a wire that ID wrote (R141). -/
theorem Decoded.op2 {s : State} {word : Word} {v : Variant} {c : Ctrl} (h : Decoded s word v c) :
    op2 c s.w = some (op2Value c word (readReg c.regWidth s (Enc.rt word))) := by
  unfold Machine.op2 op2Value
  cases c.aluSrc with
  | readRegister2 => exact h.readData2
  | signExtendedImmediate => rw [h.signExtend]; rfl
  | zeroExtendedImmediate => rw [h.imm]; rfl

/-- The destination index is a wire that ID wrote (R181). -/
theorem Decoded.dstIndex {s : State} {word : Word} {v : Variant} {c : Ctrl} (h : Decoded s word v c) :
    dstIndex c.regDst s.w = some (dstField c.regDst word) := by
  cases c.regDst with
  | rs => exact h.rs
  | rt => exact h.rt
  | rd => exact h.rd

/-- ID, on a word that passes its checks, latches what `Decoded` says (R176). -/
theorem decoded_after_decode {s : State} {word : Word} {v : Variant} {c : Ctrl} {a : AluControl}
    (hw : s.w.instruction = some word) (hv : decodeVariant word = .ok v) (hc : ctrlPrimary v = .ok c)
    (ha : aluControlOf c v = .ok a) :
    Decoded (latchAluControl c a word (latchOperands c word (latchFields v word s))) word v (withAlu c a) where
  instruction := hw
  instr := rfl
  ctrl := rfl
  variant := hv
  bundle := control_of_primary hc ha
  rs := rfl
  rt := rfl
  rd := rfl
  imm := rfl
  signExtend := rfl
  readData1 := by simp
  readData2 := by simp

/-- A state with the memory, the parameters and the stored x[0] of one that meets the invariant meets it, where its wires
fit its stage. -/
theorem Inv.of_fields {s t : State} (h : Inv s) (hm : t.mem = s.mem) (hc : t.cfg = s.cfg) (hx : t.x[0] = s.x[0])
    (hf : inFlightOk t = true) : Inv t := by
  obtain ⟨hwf, hin, hx0, -⟩ := h
  exact ⟨hm ▸ hwf, by rw [hm, hc]; exact hin, hx.trans hx0, hf⟩

theorem Inv.inFlight {s : State} (h : Inv s) : inFlightOk s = true := h.2.2.2

theorem Inv.x_zero {s : State} (h : Inv s) : s.x[0] = 0#64 := h.2.2.1

theorem inFlightOk_of_fetch {s : State} (h : s.stage = .instructionFetch) : inFlightOk s = true := by
  simp only [inFlightOk, h]

theorem inFlightOk_setStage_execute (s : State) : inFlightOk (s.setStage .execute) = decodedOk s := rfl

theorem inFlightOk_setStage_memory (s : State) :
    inFlightOk (s.setStage .memory) = (decodedOk s && s.w.aluResult.isSome) := rfl

theorem inFlightOk_setStage_writeBack (s : State) :
    inFlightOk (s.setStage .writeBack) = (decodedOk s && s.w.aluResult.isSome && s.w.dataResult.isSome) := rfl

/-- A change of memory that keeps its form and its range keeps the invariant (R40). -/
theorem Inv.setMem {s : State} (h : Inv s) {m : Memory} (hwf : Memory.wf s.mem → Memory.wf m)
    (hin : Memory.within s.cfg.size s.mem → Memory.within s.cfg.size m) : Inv (s.setMem m) := by
  obtain ⟨hw, hi, hx, hf⟩ := h
  exact ⟨hwf hw, hin hi, hx, hf⟩

/-- A stage whose work leaves the block Running advances the stage (R171). -/
theorem executeStage_of_work {s t : State} (hr : s.status = .running) (hw : work s = .next t)
    (ht : t.status = .running) : executeStage s = .next (t.setStage t.stage.succ) := by
  rw [executeStage_running hr, hw, andThen_next, advanceStage_running ht]

theorem executeStage_inv_of_fetch {s : State} (h : Inv s) (hr : s.status = .running) (hs : s.stage = .instructionFetch) :
    ∃ t, executeStage s = .next t ∧ Inv t :=
  ⟨_, executeStage_fetch hr hs, h.of_fields rfl rfl rfl rfl⟩

theorem executeStage_inv_of_decode {s : State} (h : Inv s) (hr : s.status = .running)
    (hs : s.stage = .instructionDecode) : ∃ t, executeStage s = .next t ∧ Inv t := by
  have hf := h.inFlight
  rw [inFlightOk, hs] at hf
  obtain ⟨word, hw⟩ := Option.isSome_iff_exists.1 hf
  obtain ⟨v, c, a, hv, hc, ha, -⟩ | ⟨info, u, hd, hu⟩ := decodeWork_cases s word hw
  · refine ⟨_, executeStage_decode_ok hr hs hw hv hc ha, h.of_fields rfl rfl rfl ?_⟩
    rw [inFlightOk_setStage_execute]
    exact (decodedOk_iff _).2 ⟨word, v, withAlu c a, decoded_after_decode hw hv hc ha⟩
  · have hwork : work s = .next (raiseFatal info u) := by rw [work, hs]; exact hd
    refine ⟨raiseFatal info u, by rw [executeStage_running hr, hwork]; rfl, ?_⟩
    have hword : u.stage = .instructionDecode → u.w.instruction = some word → inFlightOk (raiseFatal info u) = true := by
      intro h1 h2
      simp [inFlightOk, h1, h2]
    obtain ⟨-, rfl⟩ | ⟨v, -, -, rfl⟩ | ⟨v, c, -, -, -, rfl⟩ := hu <;>
      exact h.of_fields rfl rfl rfl (hword hs hw)

theorem executeStage_inv_of_execute {s : State} (h : Inv s) (hr : s.status = .running) (hs : s.stage = .execute) :
    ∃ t, executeStage s = .next t ∧ Inv t := by
  have hf := h.inFlight
  rw [inFlightOk, hs] at hf
  obtain ⟨word, v, c, hd⟩ := (decodedOk_iff s).1 hf
  obtain ⟨p, a, -, -, rfl⟩ := control_eq_ok hd.bundle
  obtain ⟨t, ht, o, -, hw⟩ := executeWork_next hd.ctrl (withAlu_aluControl p a) hd.readData1 hd.op2
  have hwork : work s = .next t := by rw [work, hs]; exact ht
  refine ⟨_, executeStage_of_work hr hwork (o.status.trans hr), h.of_fields o.mem o.cfg (by simp [o.x]) ?_⟩
  have hdt : decodedOk t = true := (decodedOk_iff t).2 ⟨word, v, _, hd.of_later_wires o.x o.instr o.ctrl hw⟩
  have hstage : t.stage.succ = .memory := by rw [o.stage, hs]; rfl
  rw [hstage, inFlightOk_setStage_memory, hdt, hw]; rfl

/-- What MEM may store is a change of memory that keeps its form and its range, or nothing (R179). -/
theorem storeIf_eq_setMem (c : Ctrl) (ea v : Dword) (s : State) :
    ∃ m, (if c.memWrite then storeValue c.regWidth ea v s else s) = s.setMem m ∧ (Memory.wf s.mem → Memory.wf m) ∧
      (Memory.within s.cfg.size s.mem → Memory.within s.cfg.size m) := by
  split
  · exact storeValue_eq_setMem _ _ _ s
  · exact ⟨s.mem, rfl, id, id⟩

theorem executeStage_inv_of_memory {s : State} (h : Inv s) (hr : s.status = .running) (hs : s.stage = .memory) :
    ∃ t, executeStage s = .next t ∧ Inv t := by
  have hf := h.inFlight
  rw [inFlightOk, hs, Bool.and_eq_true] at hf
  obtain ⟨hdec, hea⟩ := hf
  obtain ⟨word, v, c, hd⟩ := (decodedOk_iff s).1 hdec
  obtain ⟨ea, hea⟩ := Option.isSome_iff_exists.1 hea
  obtain ⟨p, a, hp, -, rfl⟩ := control_eq_ok hd.bundle
  obtain ⟨hload, hsrc⟩ := ctrlPrimary_memory hp
  obtain ⟨t, ht, o, -, hw⟩ := memoryWork_next hd.ctrl hea hd.readData2 hload hsrc
  obtain ⟨m, hm, hwf, hin⟩ := storeIf_eq_setMem (withAlu p a) ea (readReg (withAlu p a).regWidth s (Enc.rt word)) s
  rw [hm] at o
  have hwork : work s = .next t := by rw [work, hs]; exact ht
  refine ⟨_, executeStage_of_work hr hwork (o.status.trans hr),
    (h.setMem hwf hin).of_fields o.mem o.cfg (by simp [o.x]) ?_⟩
  have hdt : decodedOk t = true := (decodedOk_iff t).2 ⟨word, v, _, hd.of_later_wires o.x o.instr o.ctrl hw⟩
  have hstage : t.stage.succ = .writeBack := by rw [o.stage, State.setMem_stage, hs]; rfl
  rw [hstage, inFlightOk_setStage_writeBack, hdt, hw]
  simp [hea]

theorem executeStage_inv_of_writeBack {s : State} (h : Inv s) (hr : s.status = .running) (hs : s.stage = .writeBack) :
    ∃ t, executeStage s = .next t ∧ Inv t := by
  have hf := h.inFlight
  rw [inFlightOk, hs, Bool.and_eq_true, Bool.and_eq_true] at hf
  obtain ⟨⟨hdec, -⟩, hres⟩ := hf
  obtain ⟨word, v, c, hd⟩ := (decodedOk_iff s).1 hdec
  obtain ⟨d, hres⟩ := Option.isSome_iff_exists.1 hres
  obtain ⟨t, ht, -, hmem, hstage, -, -, hstatus, hcfg, -, -, -, -, -, hx⟩ := writeBackWork_next hd.ctrl hres hd.dstIndex
  have hwork : work s = .next t := by rw [work, hs]; exact ht
  refine ⟨_, executeStage_of_work hr hwork (hstatus.trans hr), h.of_fields hmem hcfg hx ?_⟩
  rw [hstage, hs]; rfl

/-- R27 to R29: under the invariant a stage reads no wire that is ⊥, so it answers; and it keeps the invariant. -/
theorem executeStage_inv {s : State} (h : Inv s) (hr : s.status = .running) :
    ∃ t, executeStage s = .next t ∧ Inv t := by
  cases hs : s.stage with
  | instructionFetch => exact executeStage_inv_of_fetch h hr hs
  | instructionDecode => exact executeStage_inv_of_decode h hr hs
  | execute => exact executeStage_inv_of_execute h hr hs
  | memory => exact executeStage_inv_of_memory h hr hs
  | writeBack => exact executeStage_inv_of_writeBack h hr hs

/-! ### The invariant in a step -/

theorem clearLatches_inv {s : State} (h : Inv s) (hs : s.stage = .instructionFetch) : Inv (clearLatches s) :=
  h.of_fields rfl rfl rfl (inFlightOk_of_fetch hs)

theorem TradEffect.inv {s u : State} (hu : TradEffect s u) (h : Inv s) (hs : s.stage = .instructionFetch) :
    Inv (advancePc (clearX0 u)) := by
  have hx : (advancePc (clearX0 u)).x[0] = s.x[0] := (clearX0_x_zero u).trans h.x_zero.symm
  obtain ⟨d, v, rfl⟩ | ⟨m, rfl, hwf, hin⟩ := hu
  · refine h.of_fields (setGpr_mem d v s) (setGpr_cfg d v s) hx (inFlightOk_of_fetch ?_)
    exact (setGpr_stage d v s).trans hs
  · exact (h.setMem hwf hin).of_fields rfl rfl hx (inFlightOk_of_fetch hs)

theorem tradStep_inv {s : State} (h : Inv s) : Inv (tradStep s).1 := by
  obtain ht | ⟨hs, ht | ⟨u, hu, ht⟩⟩ := tradStep_cases s <;> rw [ht]
  · exact h
  · exact clearLatches_inv h hs
  · exact hu.inv (clearLatches_inv h hs) hs

theorem loadInstructions_inv (words : List Word) {s : State} (h : Inv s) : Inv (loadInstructions words s).1 := by
  obtain ⟨m, hm, hwf, hin⟩ := storeWords_eq_setMem words 4 s
  rw [loadInstructions, hm]
  exact h.setMem hwf hin

theorem outsidePipeline_inv {s u : State} (h : Inv s) (hu : OutsidePipeline s u) : Inv u := by
  obtain rfl | rfl | ⟨words, rfl⟩ := hu
  · exact tradStep_inv h
  · exact h
  · exact loadInstructions_inv words h

/-- Under the invariant a step of a Running machine answers, and keeps the invariant, whatever the host calls. -/
theorem step_inv {s : State} (h : Inv s) (hr : s.status = .running) : ∃ t, step s = .next t ∧ Inv t := by
  obtain ⟨cs, ⟨-, n, -, hstep⟩ | ⟨u, r, hu, hstep⟩⟩ := step_cases hr
  · rw [hstep]
    exact runStages_answers (fun u hu hur => executeStage_inv hu hur) n (s := s.setCalls cs) h
  · have hinv : Inv u := outsidePipeline_inv (s := s.setCalls cs) h hu
    exact ⟨_, hstep, hinv⟩

theorem step_running {s t : State} (h : step s = .next t) : s.status = .running := by
  cases hs : s.status with
  | running => rfl
  | fatal info => rw [step_fatal hs] at h; cases h

/-- Settles O56. A step is stages that are owed or one operation outside the pipeline; each keeps the invariant. -/
theorem stepKeepsTheInvariant : Obligations.StepKeepsTheInvariant := by
  intro s t h hstep
  obtain ⟨t', ht', hinv⟩ := step_inv h (step_running hstep)
  rw [hstep] at ht'
  cases ht'
  exact hinv

/-- Settles O57, by the same lemma: the answer is a next state. -/
theorem runningAlwaysSteps : Obligations.RunningAlwaysSteps := by
  intro s calls h hr
  obtain ⟨t, ht, -⟩ := step_inv (s := s.setCalls calls) h hr
  exact ⟨t, ht⟩

/-- Settles O55: the launch lists its memory in canonical form, clears x[0] and starts at IF. -/
theorem launchMeetsTheInvariant : Obligations.LaunchMeetsTheInvariant := by
  have hlaunch : ∀ p : Launch, Inv (launch p) := by
    intro p
    obtain ⟨hwf, hin⟩ := initialMemory_wf p.cfg.size p.memInit
    exact ⟨hwf, hin, Vector.getElem_set_self _, rfl⟩
  exact ⟨hlaunch, launch_common ▸ hlaunch commonLaunch⟩

/-- Every state a run reaches meets the invariant: the launch meets it, every step keeps it, and no call is part of it. -/
theorem reachable_inv {p : Launch} {s : State} (h : Reachable p s) : Inv s := by
  induction h with
  | start => exact launchMeetsTheInvariant.1 p
  | asks s cs _ ih => exact ih
  | steps s t _ hstep ih => exact stepKeepsTheInvariant s t ih hstep

/-- Settles O58: a reachable state meets the invariant, so a Running one answers, and a Fatal one answers its fault. -/
theorem onlyFatalStopsARun : Obligations.OnlyFatalStopsARun := by
  intro p s hreach
  have h := reachable_inv hreach
  refine ⟨h, ?_⟩
  cases hs : s.status with
  | running =>
    obtain ⟨t, ht, -⟩ := step_inv h hs
    exact .inl ⟨rfl, t, ht⟩
  | fatal info => exact .inr ⟨info, rfl, step_fatal hs⟩

/-! ### Where Fatal comes from -/

/-- From a Running machine, a run of stages that ends in Fatal ends in ID (R322). -/
theorem runStages_fatal_stage {n : Nat} {s t : State} {info : FatalInfo} (hr : s.status = .running)
    (h : runStages n s = .next t) (ht : t.status = .fatal info) : t.stage = .instructionDecode := by
  have hkeep : ∀ u v : State, (u.status = .running ∨ u.stage = .instructionDecode) → executeStage u = .next v →
      (v.status = .running ∨ v.stage = .instructionDecode) := by
    intro u v _ huv
    obtain ⟨hv, -⟩ | ⟨_, -, hu, hv⟩ := (executeStage_effect huv).stage
    · exact .inl hv
    · exact .inr (hv.trans hu)
  obtain hrun | hstage := runStages_keeps hkeep n (.inl hr) h
  · rw [hrun] at ht; cases ht
  · exact hstage

theorem tradStep_status (s : State) : (tradStep s).1.status = s.status := by
  obtain ht | ⟨-, ht | ⟨u, hu, ht⟩⟩ := tradStep_cases s <;> rw [ht]
  · rfl
  · obtain ⟨d, v, rfl⟩ | ⟨m, rfl, -⟩ := hu
    · exact setGpr_status d v _
    · rfl

theorem outsidePipeline_status {s u : State} (hu : OutsidePipeline s u) : u.status = s.status := by
  obtain rfl | rfl | ⟨words, rfl⟩ := hu
  · exact tradStep_status s
  · rfl
  · obtain ⟨m, hm, -⟩ := storeWords_eq_setMem words 4 s
    rw [loadInstructions, hm]; rfl

/-- Settles O48: outside the pipeline no operation touches the status, and in a run of stages only ID raises Fatal. -/
theorem fatalIsFinal : Obligations.FatalIsFinal := by
  refine ⟨fun s info calls h => step_fatal h, ?_⟩
  intro s t info hstep ht
  have hr := step_running hstep
  obtain ⟨cs, ⟨hcall, n, -, hn⟩ | ⟨u, r, hu, hn⟩⟩ := step_cases hr
  · exact ⟨hr, runStages_fatal_stage (s := s.setCalls cs) hr (hn ▸ hstep) ht, hcall⟩
  · rw [hn] at hstep
    cases hstep
    have hfatal : u.status = .running := (outsidePipeline_status hu).trans hr
    rw [State.addReply_status, hfatal] at ht
    cases ht

/-! ### The frame of a step -/

/-- One register at most is written, and pc stays or advances by 4 (R24, R66). -/
def SmallStep (s t : State) : Prop := (∃ dst v, WritesGpr s t dst v) ∧ (t.pc = s.pc ∨ t.pc = s.pc + 4#64)

/-- The register file of one `setGpr` reads as one write. -/
theorem writesGpr_of_x_eq {s t : State} {dst : RegIdx} {v : Dword} (h : t.x = (setGpr dst v s).x) : WritesGpr s t dst v := by
  intro r
  rw [gpr_of_x_eq h, gpr_setGpr]

theorem SmallStep.of_same {s t : State} (hx : t.x = s.x) (hpc : t.pc = s.pc) : SmallStep s t :=
  ⟨⟨0#5, 0#64, writesGpr_of_x_eq hx⟩, .inl hpc⟩

/-- The stages an instruction still owes write one register at most, since WB is the last of them (R184). -/
theorem runStages_smallStep {n : Nat} : ∀ {s t : State}, n ≤ stagesOwed s.stage → runStages n s = .next t →
    SmallStep s t := by
  induction n with
  | zero => intro s t _ h; cases h; exact .of_same rfl rfl
  | succ n ih =>
    intro s t hn h
    cases hst : s.status with
    | fatal info => rw [runStages_fatal hst] at h; cases h; exact .of_same rfl rfl
    | running =>
      rw [runStages_succ hst] at h
      obtain ⟨u, hu, ht⟩ := andThen_eq_next h
      have he := executeStage_effect hu
      by_cases hwb : s.stage = .writeBack
      · obtain ⟨hpc, dst, v, hx⟩ := he.back hwb
        have hlast : n = 0 := by rw [hwb] at hn; exact Nat.le_zero.1 (Nat.le_of_succ_le_succ hn)
        subst hlast
        cases ht
        exact ⟨⟨dst, v, writesGpr_of_x_eq hx⟩, .inr hpc⟩
      · obtain ⟨hx, hpc⟩ := he.before hwb
        suffices hut : SmallStep u t by
          obtain ⟨⟨dst, v, hg⟩, hpc'⟩ := hut
          exact ⟨⟨dst, v, fun r => by rw [hg r, gpr_of_x_eq hx]⟩, hpc ▸ hpc'⟩
        obtain ⟨-, hsucc⟩ | ⟨info, hf, -⟩ := he.stage
        · rw [stagesOwed_succ hwb, ← hsucc] at hn
          exact ih (Nat.le_of_succ_le_succ hn) ht
        · rw [runStages_fatal hf] at ht; cases ht; exact .of_same rfl rfl

theorem tradStep_smallStep (s : State) : SmallStep s (tradStep s).1 := by
  obtain ht | ⟨-, ht | ⟨u, hu, ht⟩⟩ := tradStep_cases s <;> rw [ht]
  · exact .of_same rfl rfl
  · exact .of_same rfl rfl
  · have hread : ∀ r, gpr (advancePc (clearX0 u)) r = gpr u r := gpr_clearX0 u
    obtain ⟨d, v, rfl⟩ | ⟨m, rfl, -⟩ := hu
    · refine ⟨⟨d, v, fun r => (hread r).trans (gpr_setGpr (clearLatches s) d v r)⟩, .inr ?_⟩
      exact congrArg (· + 4#64) (setGpr_pc d v (clearLatches s))
    · exact ⟨⟨0#5, 0#64, fun r => (hread r).trans (gpr_setGpr (clearLatches s) 0#5 0#64 r)⟩, .inr rfl⟩

theorem outsidePipeline_smallStep {s u : State} (hu : OutsidePipeline s u) : SmallStep s u := by
  obtain rfl | rfl | ⟨words, rfl⟩ := hu
  · exact tradStep_smallStep s
  · exact .of_same rfl rfl
  · obtain ⟨m, hm, -⟩ := storeWords_eq_setMem words 4 s
    rw [loadInstructions, hm]
    exact .of_same rfl rfl

theorem step_smallStep {s t : State} (h : step s = .next t) : SmallStep s t := by
  obtain ⟨cs, ⟨-, n, hn, hstep⟩ | ⟨u, r, hu, hstep⟩⟩ := step_cases (step_running h) <;> rw [hstep] at h
  · exact runStages_smallStep (s := s.setCalls cs) hn h
  · cases h
    have hsmall : SmallStep s u := outsidePipeline_smallStep (s := s.setCalls cs) hu
    exact hsmall

/-- Settles O43: the frame of a step, and 4 more leaves pc mod 4 as it was, across the wrap at 2^64 too. -/
theorem stepFrame : Obligations.StepFrame := by
  intro s t h
  obtain ⟨hwrite, hpc⟩ := step_smallStep h
  refine ⟨hwrite, hpc, ?_, rfl⟩
  obtain hpc | hpc := hpc
  · rw [hpc]
  · rw [hpc, BitVec.toNat_add]
    have hfour : (4#64).toNat = 4 := rfl
    omega

/-! ### Registers and accessors -/

theorem setGpr_zero (v : Dword) (s : State) : setGpr 0#5 v s = s := if_pos rfl

/-- Settles O42, by what a register write does to every read. -/
theorem zeroRegister : Obligations.ZeroRegister := by
  refine ⟨gpr_zero, setGpr_zero, ?_⟩
  intro i r v s hi
  rw [gpr_setGpr]
  by_cases hr : r = i
  · subst hr; simp [hi]
  · simp [hr]

/-- Settles O52: each accessor is one branch of the dispatch, and the names are a finite table. -/
theorem accessors : Obligations.Accessors := by
  refine ⟨?_, by decide, rfl⟩
  intro s rest name hr
  exact ⟨fun hc => step_cons hr hc, fun hc => step_cons hr hc, fun hc => step_cons hr hc⟩

end Sys2Proof.Machine
end

section
/-! PROOFS. The memory family (20_memory.md). The rules of a word read after stores of bytes, of one access, of
a step that stores, of the loader and of the host's calls; each statement stands after the rules it needs. -/

namespace Sys2Proof.Machine

/-! ### Words among stored bytes -/

theorem writeBytes_append (bs cs : List Byte) : ∀ (m : Memory) (a : Nat),
    writeBytes m a (bs ++ cs) = writeBytes (writeBytes m a bs) (a + bs.length) cs := by
  induction bs with
  | nil => intro m a; rfl
  | cons b bs ih =>
    intro m a
    rw [List.cons_append, writeBytes, writeBytes, ih, List.length_cons, Nat.add_assoc, Nat.add_comm 1]

/-- A word read depends on its four bytes alone (R42). -/
theorem readWord_congr {m m' : Memory} {a : Nat} (h : ∀ k < 4, readByte m (a + k) = readByte m' (a + k)) :
    readWord m a = readWord m' a := by
  have h0 : readByte m a = readByte m' a := h 0 (by omega)
  rw [readWord, readWord, h0, h 1 (by omega), h 2 (by omega), h 3 (by omega)]

/-- A store of bytes leaves every word beside them as it reads. -/
theorem readWord_writeBytes_outside {bs : List Byte} {m : Memory} {a b : Nat} (h : b + 4 ≤ a ∨ a + bs.length ≤ b) :
    readWord (writeBytes m a bs) b = readWord m b :=
  readWord_congr fun _ _ => readByte_writeBytes_outside (by omega)

/-- A field of a field is a field of the whole. -/
theorem extractLsb'_extractLsb'_of_add_le {n start len start' len' : Nat} (v : BitVec n) (h : start' + len' ≤ len) :
    (v.extractLsb' start len).extractLsb' start' len' = v.extractLsb' (start + start') len' := by
  ext k hk
  have hin : start' + k < len := by omega
  simp [hin, Nat.add_assoc]

/-- R42: the bytes of a doubleword are those of its high word, then those of its low word. -/
theorem dwordBytes_eq_append (v : Dword) :
    dwordBytes v = wordBytes (v.extractLsb' 32 32) ++ wordBytes (v.extractLsb' 0 32) := by
  simp [wordBytes, dwordBytes, extractLsb'_extractLsb'_of_add_le]

/-- R44: the word at the address of a doubleword store is the high half. -/
theorem readWord_writeBytes_dword_high {m : Memory} (hm : Memory.wf m) (a : Nat) (v : Dword) :
    readWord (writeBytes m a (dwordBytes v)) a = v.extractLsb' 32 32 := by
  rw [dwordBytes_eq_append, writeBytes_append, readWord_writeBytes_outside (.inl (by simp)), readWord_writeBytes hm]

/-- R44: the word four bytes on is the low half. -/
theorem readWord_writeBytes_dword_low {m : Memory} (hm : Memory.wf m) (a : Nat) (v : Dword) :
    readWord (writeBytes m a (dwordBytes v)) (a + 4) = v.extractLsb' 0 32 := by
  rw [dwordBytes_eq_append, writeBytes_append, wordBytes_length, readWord_writeBytes (writeBytes_wf hm a)]

/-! ### One access -/

theorem memRead4_of_memOk {s : State} {a : Dword} (h : memOk s.cfg a.toNat 4 = true) :
    memRead4 s a = some (readWord s.mem a.toNat) := if_pos h

theorem memRead8_of_memOk {s : State} {a : Dword} (h : memOk s.cfg a.toNat 8 = true) :
    memRead8 s a = some (readDword s.mem a.toNat) := if_pos h

theorem fetchWord_of_memOk {s : State} (h : memOk s.cfg s.pc.toNat 4 = true) :
    fetchWord s = readWord s.mem s.pc.toNat := by
  rw [fetchWord, memRead4_of_memOk h]; rfl

/-- R47: a fetch that memory refuses gives the word 0. -/
theorem fetchWord_of_not_memOk {s : State} (h : memOk s.cfg s.pc.toNat 4 = false) : fetchWord s = 0#32 := by
  simp only [fetchWord, memRead4, h, Bool.false_eq_true, if_false, Option.getD_none]

theorem memWrite4_eq_some {s t : State} {a : Dword} {v : Word} (h : memWrite4 a v s = some t) :
    memOk s.cfg a.toNat 4 = true ∧ t = s.setMem (writeBytes s.mem a.toNat (wordBytes v)) := by
  obtain ⟨hok, ht⟩ := Option.ite_none_right_eq_some.1 h
  exact ⟨hok, (Option.some.inj ht).symm⟩

theorem memWrite8_eq_some {s t : State} {a v : Dword} (h : memWrite8 a v s = some t) :
    memOk s.cfg a.toNat 8 = true ∧ t = s.setMem (writeBytes s.mem a.toNat (dwordBytes v)) := by
  obtain ⟨hok, ht⟩ := Option.ite_none_right_eq_some.1 h
  exact ⟨hok, (Option.some.inj ht).symm⟩

/-- Inside a memory that a 64-bit address can reach, the second word of an allowed doubleword lies four bytes on. -/
theorem toNat_add_four_of_memOk {cfg : MemConfig} {a : Dword} (hsize : cfg.size ≤ 2 ^ 64)
    (hok : memOk cfg a.toNat 8 = true) : (a + 4#64).toNat = a.toNat + 4 := by
  have hrange := memOk_range hok
  have hfour : (4#64).toNat = 4 := rfl
  rw [BitVec.toNat_add, hfour]
  omega

/-- Settles O44, by what each byte and each word of a store reads back. -/
theorem storesReadBack : Obligations.StoresReadBack := by
  constructor
  · intro s t a v hm h
    obtain ⟨hok, rfl⟩ := memWrite4_eq_some h
    refine ⟨fun k hk => ?_, ?_, writeBytes_wf hm _, fun b hb => readByte_writeBytes_outside hb⟩
    · exact (readByte_writeBytes hm _ hk).trans (wordBytes_get v k hk)
    · rw [memRead4_of_memOk (by exact hok), State.setMem_mem, readWord_writeBytes hm]
  · intro s t a v hm hsize h
    obtain ⟨hok, rfl⟩ := memWrite8_eq_some h
    have hfour := toNat_add_four_of_memOk hsize hok
    refine ⟨fun k hk => ?_, ?_, fun hhigh => ?_, fun hlow => ?_, writeBytes_wf hm _,
      fun b hb => readByte_writeBytes_outside hb⟩
    · exact (readByte_writeBytes hm _ hk).trans (dwordBytes_get v k hk)
    · rw [memRead8_of_memOk (by exact hok), State.setMem_mem, readDword_writeBytes hm]
    · rw [memRead4_of_memOk (by exact hhigh), State.setMem_mem, readWord_writeBytes_dword_high hm]
    · rw [← hfour] at hlow
      rw [memRead4_of_memOk (by exact hlow), hfour, State.setMem_mem, readWord_writeBytes_dword_low hm]

/-- Settles O45: past MEM_SIZE the range check alone refuses, and each access answers its substitute when refused. -/
theorem failedAccesses : Obligations.FailedAccesses := by
  intro s a v
  refine ⟨fun n hn => ?_, fetchWord_of_not_memOk, fun width hfail => ⟨?_, ?_⟩⟩
  · rw [← Bool.not_eq_true]
    exact fun hok => absurd (memOk_range hok) (Nat.not_le.2 hn)
  · rw [loadValue_eq, hfail]; rfl
  · obtain ⟨-, h⟩ | ⟨hok, -⟩ := storeValue_cases width a v s
    · exact h
    · rw [hfail] at hok; cases hok

/-! ### A step that stores -/

/-- A step of a Running machine at IF, with no call listed, is the instruction whose word it fetches (R172). -/
theorem step_eq_exec_of_fetchWord {s : State} {i : Instr} (hr : s.status = .running) (hs : s.stage = .instructionFetch)
    (hc : s.calls = []) (hj : ¬ isJump i) (hf : fetchWord s = encode i) : step s = exec i s := by
  have hv : decodeVariant (fetchWord s) = .ok i.variant := by rw [hf, decodeVariant_encode]
  calc step s = executeInstruction s := step_nil hr hc
    _ = runStages 5 s := executeInstruction_eq_runStages_of_fetch hr hs
    _ = runInstruction i.variant (templateOf i) (operationOf i) s :=
      runStages_eq_runInstruction hr hs hv (ctrlPrimary_variant i hj) (aluControlOf_variant i) (templateOf_load i)
        (templateOf_memWriteSrc i)
    _ = exec i s := (exec_eq i hj s).symm

/-- A jump stores nothing (R293). -/
theorem storeTarget_of_isJump {i : Instr} (h : isJump i) (s : State) : storeTarget i s = none := by
  obtain ⟨op, target, hv⟩ := h
  cases i with
  | j target => rfl
  | jal target => rfl
  | _ => cases hv

/-- R272, R274: an instruction that stores completes with the store of its second source register at its target. -/
theorem exec_of_storeTarget {i : Instr} {s : State} {ea : Dword} {n : Nat} (h : storeTarget i s = some (ea, n)) :
    ∃ t, exec i s = .next t ∧ Completes s t ∧ t.mem = (storeValue (templateOf i).regWidth ea
      (readReg (templateOf i).regWidth s (Enc.rt (encode i))) s).mem := by
  have hj : ¬ isJump i := fun hj => by rw [storeTarget_of_isJump hj] at h; cases h
  obtain ⟨t, ht, hcompletes, hmem, -⟩ := exec_spec i hj s
  rw [← storeTarget_eq, Option.ite_none_right_eq_some, Option.some.injEq, Prod.mk.injEq] at h
  obtain ⟨hwrite, rfl, -⟩ := h
  exact ⟨t, ht, hcompletes, hmem.trans (if_pos hwrite)⟩

/-- R272: SW completes with the low word of x[rt] at its address, where memory allows the access. -/
theorem exec_sw (rs rt : RegIdx) (imm : BitVec 16) (s : State) :
    ∃ t, exec (.sw rs rt imm) s = .next t ∧ Completes s t ∧ t.mem =
      if memOk s.cfg (wordAddress s rs imm).toNat 4 = true then
        writeBytes s.mem (wordAddress s rs imm).toNat (wordBytes (lo32 (gpr s rt)))
      else s.mem := by
  obtain ⟨t, ht, hcompletes, hmem⟩ := exec_of_storeTarget (i := .sw rs rt imm) (s := s) rfl
  refine ⟨t, ht, hcompletes, ?_⟩
  rw [hmem, storeValue_mem]
  simp only [templateOf, storeWord, RegWidth.bytes, readReg_lo, encode, Instr.variant, rt_word_iType]

/-- R274: SD completes with x[rt] at its address, where memory allows the access. -/
theorem exec_sd (rs rt : RegIdx) (imm : BitVec 16) (s : State) :
    ∃ t, exec (.sd rs rt imm) s = .next t ∧ Completes s t ∧ t.mem =
      if memOk s.cfg (doubleAddress s rs imm).toNat 8 = true then
        writeBytes s.mem (doubleAddress s rs imm).toNat (dwordBytes (gpr s rt))
      else s.mem := by
  obtain ⟨t, ht, hcompletes, hmem⟩ := exec_of_storeTarget (i := .sd rs rt imm) (s := s) rfl
  refine ⟨t, ht, hcompletes, ?_⟩
  rw [hmem, storeValue_mem]
  simp only [templateOf, storeDouble, defaultBundle, RegWidth.bytes, readReg, encode, Instr.variant, rt_word_iType]

/-- R53: the fetch after an instruction that completes reads memory as that instruction left it. -/
theorem fetchWord_of_completes {s t : State} (h : Completes s t) (hok : memOk s.cfg (s.pc + 4#64).toNat 4 = true) :
    fetchWord t = readWord t.mem (s.pc + 4#64).toNat := by
  obtain ⟨-, -, hpc, hcfg, -⟩ := h
  rw [← hpc, ← hcfg] at hok
  rw [fetchWord_of_memOk hok, hpc]

theorem lo32_eq_extractLsb' (v : Dword) : lo32 v = v.extractLsb' 0 32 := BitVec.setWidth_eq_extractLsb' (by decide)

/-- Settles O46. The stored bytes read back as words, and the next fetch reads one of them. -/
theorem storesAreFetched : Obligations.StoresAreFetched := by
  intro s rs rt imm hm hr hs hc
  constructor <;> intro hf
  · obtain ⟨t, ht, hcompletes, hmem⟩ := exec_sw rs rt imm s
    rw [← step_eq_exec_of_fetchWord hr hs hc (not_isJump_of fun _ _ h => by cases h) hf] at ht
    have hread : ∀ a, wordAddress s rs imm = a → memOk s.cfg a.toNat 4 = true →
        readWord t.mem a.toNat = lo32 (gpr s rt) := by
      rintro a rfl hok
      rw [hmem, if_pos hok, readWord_writeBytes hm]
    have hfetch := fetchWord_of_completes hcompletes
    obtain ⟨-, hstatus, hpc, -⟩ := hcompletes
    exact ⟨t, ht, hstatus.trans hr, hpc, hfetch,
      fun ha hok => (hfetch hok).trans (hread _ ha hok), hread s.pc⟩
  · obtain ⟨t, ht, hcompletes, hmem⟩ := exec_sd rs rt imm s
    rw [← step_eq_exec_of_fetchWord hr hs hc (not_isJump_of fun _ _ h => by cases h) hf] at ht
    have hread : ∀ a, doubleAddress s rs imm = a → memOk s.cfg a.toNat 8 = true →
        readWord t.mem a.toNat = (gpr s rt).extractLsb' 32 32 ∧ readWord t.mem (a.toNat + 4) = lo32 (gpr s rt) := by
      rintro a rfl hok
      rw [hmem, if_pos hok, lo32_eq_extractLsb']
      exact ⟨readWord_writeBytes_dword_high hm _ _, readWord_writeBytes_dword_low hm _ _⟩
    have hfetch := fetchWord_of_completes hcompletes
    obtain ⟨-, hstatus, hpc, -⟩ := hcompletes
    refine ⟨t, ht, hstatus.trans hr, hpc, hfetch, fun ha hok => ?_, fun ha hok => ?_⟩
    · obtain ⟨hhigh, hlow⟩ := hread _ ha hok
      exact ⟨hlow, fun hnext => (hfetch hnext).trans hhigh⟩
    · obtain ⟨hhigh, hlow⟩ := hread _ ha hok
      refine ⟨hhigh, hlow, fun hsize hnext => ?_⟩
      rw [hfetch hnext, toNat_add_four_of_memOk hsize hok, hlow]

/-! ### The loader -/

/-- What storing `words` from address `a` on has done when it stops after `k` of them, with memory `m` (R54, D29). -/
structure StoresFirst (a : Nat) (words : List Word) (s : State) (k : Nat) (m : Memory) : Prop where
  le : k ≤ words.length
  result : storeWords a words s = (s.setMem m, decide (k = words.length))
  allowed : ∀ i < k, memOk s.cfg (a + 4 * i) 4 = true
  stops : k < words.length → memOk s.cfg (a + 4 * k) 4 = false
  stored : ∀ i < k, some (readWord m (a + 4 * i)) = words[i]?
  outside : ∀ b, b < a ∨ a + 4 * k ≤ b → readByte m b = readByte s.mem b

theorem StoresFirst.nil (a : Nat) (s : State) : StoresFirst a [] s 0 s.mem :=
  ⟨le_rfl, rfl, nofun, nofun, nofun, fun _ _ => rfl⟩

theorem StoresFirst.refused {a : Nat} {s : State} (h : memOk s.cfg a 4 = false) (word : Word) (rest : List Word) :
    StoresFirst a (word :: rest) s 0 s.mem :=
  ⟨Nat.zero_le _, by rw [storeWords, if_neg (ne_true_of_eq_false h)]; rfl, nofun, fun _ => h, nofun, fun _ _ => rfl⟩

/-- One more store at the front: the stores after it leave its word. -/
theorem StoresFirst.cons {a : Nat} {word : Word} {rest : List Word} {s : State} {k : Nat} {m : Memory}
    (hm : Memory.wf s.mem) (hok : memOk s.cfg a 4 = true)
    (h : StoresFirst (a + 4) rest (s.setMem (writeBytes s.mem a (wordBytes word))) k m) :
    StoresFirst a (word :: rest) s (k + 1) m := by
  have hshift : ∀ i, a + 4 * (i + 1) = a + 4 + 4 * i := fun i => by omega
  have hword : readWord m a = word :=
    calc readWord m a = readWord (writeBytes s.mem a (wordBytes word)) a :=
          readWord_congr fun _ _ => h.outside _ (.inl (by omega))
      _ = word := readWord_writeBytes hm a word
  refine ⟨Nat.succ_le_succ h.le, ?_, fun i hi => ?_, fun hk => ?_, fun i hi => ?_, fun b hb => ?_⟩
  · rw [storeWords, if_pos hok, h.result]
    simp only [List.length_cons, Nat.add_right_cancel_iff]
    rfl
  · cases i with
    | zero => exact hok
    | succ i => rw [hshift]; exact h.allowed i (Nat.lt_of_succ_lt_succ hi)
  · rw [hshift]
    exact h.stops (Nat.lt_of_succ_lt_succ hk)
  · cases i with
    | zero => exact congrArg some hword
    | succ i => rw [hshift]; exact h.stored i (Nat.lt_of_succ_lt_succ hi)
  · rw [h.outside b (by omega)]
    exact readByte_writeBytes_outside (by rw [wordBytes_length]; omega)

/-- R54, D29: the loader stores the first words up to some point, by induction on the words that are left. -/
theorem exists_storesFirst (words : List Word) : ∀ (a : Nat) (s : State), Memory.wf s.mem →
    ∃ k m, StoresFirst a words s k m := by
  induction words with
  | nil => exact fun a s _ => ⟨0, s.mem, .nil a s⟩
  | cons word rest ih =>
    intro a s hm
    cases hok : memOk s.cfg a 4 with
    | false => exact ⟨0, s.mem, .refused hok word rest⟩
    | true =>
      obtain ⟨k, m, h⟩ := ih (a + 4) (s.setMem (writeBytes s.mem a (wordBytes word))) (writeBytes_wf hm a)
      exact ⟨k + 1, m, .cons hm hok h⟩

/-- Settles O51: `load_instructions` stores from address 4 on. -/
theorem loader : Obligations.Loader := by
  intro s words hm
  obtain ⟨k, m, h⟩ := exists_storesFirst words 4 s hm
  exact ⟨k, m, h.le, h.result, h.allowed, h.stops, h.stored, h.outside⟩

/-! ### The host's calls -/

/-- No register name denotes the list of calls (R203). -/
theorem registerByName_setCalls (name : RegName) (s : State) (cs : List HostCall) :
    registerByName name (s.setCalls cs) = registerByName name s := by
  cases name <;> rfl

/-- Settles O24: a step drops the oldest call and is that call's one operation; with none listed it is the default. -/
theorem hostOperations : Obligations.HostOperations := by
  intro s rest hr
  refine ⟨step_cons hr, step_cons hr, step_cons hr, fun hc => ⟨_, _, rfl, step_cons hr hc⟩, fun name hc => ?_,
    step_cons hr, fun words hc => ⟨_, _, rfl, step_cons hr hc⟩, step_nil hr⟩
  rw [step_cons hr hc, hostCall, registerByName_setCalls]

end Sys2Proof.Machine
end

section
/-! PROOFS. The encoding family (30_encoding.md). The encoder against the decoder, the rows, the assembler's immediates;
then an illegal word's class against ID's three checks, from which the Fatal it raises and the ports follow. -/

namespace Sys2Proof.Machine

/-! ### The encoder and the decoder -/

/-- R71-R73: the fixed values of an instruction's row select that instruction. -/
theorem select_variant (i : Instr) : i.variant.select = .ok i := by cases i <;> rfl

theorem decode_encode (i : Instr) : decode (encode i) = .ok i := by
  rw [decode, decodeVariant_encode]
  exact select_variant i

/-- R42: a word's bytes, lowest address first, decode as the word. -/
theorem decodeBytes_wordBytes (word : Word) : decodeBytes (wordBytes word) = some (decode word) := by
  rw [wordBytes, decodeBytes, wordOfBytes_bytes]

/-- R61: an instruction's fields and the fixed values of its row are all 32 bits of its word. -/
theorem encode_of_decode {word : Word} {i : Instr} (h : decode word = .ok i) : encode i = word :=
  decodeVariant_word (decodeVariant_of_decode h)

/-- Settles O1: the encoded word has the instruction's variant, which selects it. -/
theorem decodeOfEncode : Obligations.DecodeOfEncode := by
  intro i _
  exact ⟨decode_encode i, by rw [decodeBytes_wordBytes, decode_encode]⟩

/-- Settles O2: a decoded variant spells its word, and the instruction selected has that variant. -/
theorem encodeOfDecode : Obligations.EncodeOfDecode := fun _ _ h => encode_of_decode h

/-- Settles O4, by running the decoder on each word. -/
theorem sampleWordsDecode : Obligations.SampleWordsDecode := ⟨rfl, rfl, rfl, rfl, rfl, rfl, rfl, rfl⟩

/-! ### The rows -/

/-- The row of an instruction, by the fields its variant fixes (R70). -/
def rowOf (i : Instr) : Row :=
  match i.variant with
  | .rType _ _ _ _ _ fn => if fn ∈ Enc.sopFuncts then rowSop i.mnemonic fn else rowSpecial i.mnemonic fn
  | .iType op _ rt _ => if op = Enc.opRegimm then rowRegimm i.mnemonic rt else rowOpcode i.mnemonic op
  | .jType op _ => rowOpcode i.mnemonic op
  | .fpuRType op _ _ _ _ _ => rowOpcode i.mnemonic op

theorem rowOf_mem_rows (i : Instr) : rowOf i ∈ rows := by
  cases i <;> simp +decide [rowOf, rows, Instr.variant, Instr.mnemonic]

theorem rowOf_mnemonic (i : Instr) : (rowOf i).mnemonic = i.mnemonic := by cases i <;> rfl

/-- A word lies in a row when the row's fixed bits have the row's pattern. -/
def InRow (word : Word) (p : Row) : Prop := word &&& p.mask = p.pattern

/-- Every word of the row is an instruction whose row it is. -/
def RowDecodes (p : Row) : Prop := ∀ word, InRow word p → ∃ i, decode word = .ok i ∧ rowOf i = p

theorem exists_decode_of_encode {word : Word} {i : Instr} {p : Row} (h : encode i = word) (hi : rowOf i = p) :
    ∃ i, decode word = .ok i ∧ rowOf i = p :=
  ⟨i, by rw [← h, decode_encode], hi⟩

section
variable {name : String}

theorem rowSpecial_decodes {fn : BitVec 6} (make : RegIdx → RegIdx → RegIdx → RegIdx → Instr)
    (hv : ∀ rs rt rd shamt, (make rs rt rd shamt).variant = .rType Enc.opSpecial rs rt rd shamt fn := by intros; rfl)
    (hrow : ∀ rs rt rd shamt, rowOf (make rs rt rd shamt) = rowSpecial name fn := by intros; rfl) :
    RowDecodes (rowSpecial name fn) := by
  intro word h
  obtain ⟨hop, hfn⟩ := (special_row_iff word fn).1 h
  refine exists_decode_of_encode (i := make (Enc.rs word) (Enc.rt word) (Enc.rd word) (Enc.shamt word)) ?_ (hrow ..)
  rw [encode, hv, ← hop, ← hfn, word_rType_fields]

theorem rowSop_decodes {fn : BitVec 6} (make : RegIdx → RegIdx → RegIdx → Instr)
    (hv : ∀ rs rt rd, (make rs rt rd).variant = .rType Enc.opSpecial rs rt rd Enc.sopShamt fn := by intros; rfl)
    (hrow : ∀ rs rt rd, rowOf (make rs rt rd) = rowSop name fn := by intros; rfl) : RowDecodes (rowSop name fn) := by
  intro word h
  obtain ⟨hop, hshamt, hfn⟩ := (sop_row_iff word fn).1 h
  refine exists_decode_of_encode (i := make (Enc.rs word) (Enc.rt word) (Enc.rd word)) ?_ (hrow ..)
  rw [encode, hv, ← hop, ← hshamt, ← hfn, word_rType_fields]

theorem rowOpcode_decodes_of_iType {op : BitVec 6} (make : RegIdx → RegIdx → BitVec 16 → Instr)
    (hv : ∀ rs rt imm, (make rs rt imm).variant = .iType op rs rt imm := by intros; rfl)
    (hrow : ∀ rs rt imm, rowOf (make rs rt imm) = rowOpcode name op := by intros; rfl) :
    RowDecodes (rowOpcode name op) := by
  intro word h
  have hop := (opcode_row_iff word op).1 h
  refine exists_decode_of_encode (i := make (Enc.rs word) (Enc.rt word) (Enc.imm word)) ?_ (hrow ..)
  rw [encode, hv, ← hop, word_iType_fields]

theorem rowRegimm_decodes {rt : RegIdx} (make : RegIdx → BitVec 16 → Instr)
    (hv : ∀ rs imm, (make rs imm).variant = .iType Enc.opRegimm rs rt imm := by intros; rfl)
    (hrow : ∀ rs imm, rowOf (make rs imm) = rowRegimm name rt := by intros; rfl) : RowDecodes (rowRegimm name rt) := by
  intro word h
  obtain ⟨hop, hrt⟩ := (regimm_row_iff word rt).1 h
  refine exists_decode_of_encode (i := make (Enc.rs word) (Enc.imm word)) ?_ (hrow ..)
  rw [encode, hv, ← hop, ← hrt, word_iType_fields]

theorem rowOpcode_decodes_of_jType {op : BitVec 6} (make : BitVec 26 → Instr)
    (hv : ∀ target, (make target).variant = .jType op target := by intros; rfl)
    (hrow : ∀ target, rowOf (make target) = rowOpcode name op := by intros; rfl) : RowDecodes (rowOpcode name op) := by
  intro word h
  have hop := (opcode_row_iff word op).1 h
  refine exists_decode_of_encode (i := make (Enc.target word)) ?_ (hrow ..)
  rw [encode, hv, ← hop, word_jType_fields]

theorem rowOpcode_decodes_of_fpuRType {op : BitVec 6} (make : RegIdx → RegIdx → RegIdx → RegIdx → BitVec 6 → Instr)
    (hv : ∀ fmt ft fs fd fn, (make fmt ft fs fd fn).variant = .fpuRType op fmt ft fs fd fn := by intros; rfl)
    (hrow : ∀ fmt ft fs fd fn, rowOf (make fmt ft fs fd fn) = rowOpcode name op := by intros; rfl) :
    RowDecodes (rowOpcode name op) := by
  intro word h
  have hop := (opcode_row_iff word op).1 h
  refine exists_decode_of_encode
    (i := make (Enc.rs word) (Enc.rt word) (Enc.rd word) (Enc.shamt word) (Enc.funct word)) ?_ (hrow ..)
  rw [encode, hv, ← hop, word_fpuRType_fields]

end

/-- R70-R73: every row is an instruction's, and all its words decode to that instruction. -/
theorem rows_decode : ∀ p ∈ rows, RowDecodes p := by
  simp only [rows, List.forall_mem_append, List.forall_mem_cons]
  exact ⟨⟨⟨⟨⟨rowSpecial_decodes .add, rowSpecial_decodes .sub, rowSpecial_decodes .and, rowSpecial_decodes .or,
      rowSpecial_decodes .slt, rowSpecial_decodes .sltu, rowSpecial_decodes .dadd, rowSpecial_decodes .dsub, nofun⟩,
    rowSop_decodes .mul, rowSop_decodes .mulu, rowSop_decodes .div, rowSop_decodes .divu,
      rowSop_decodes .dmul, rowSop_decodes .dmulu, rowSop_decodes .ddiv, rowSop_decodes .ddivu, nofun⟩,
    rowOpcode_decodes_of_iType .ori, rowOpcode_decodes_of_iType .aui, rowOpcode_decodes_of_iType .lw,
      rowOpcode_decodes_of_iType .sw, rowOpcode_decodes_of_iType .ld, rowOpcode_decodes_of_iType .sd, nofun⟩,
    rowRegimm_decodes .dahi, rowRegimm_decodes .dati, nofun⟩,
    rowOpcode_decodes_of_fpuRType .cop1, rowOpcode_decodes_of_jType .j, rowOpcode_decodes_of_jType .jal, nofun⟩

/-- R70: the word of an instruction lies in its row. -/
theorem encode_inRow (i : Instr) : InRow (encode i) (rowOf i) := by
  cases i with
  | mul | mulu | div | divu | dmul | dmulu | ddiv | ddivu =>
    exact (sop_row_iff _ _).2 ⟨opcode_word_rType .., shamt_word_rType .., funct_word_rType ..⟩
  | ori | aui | lw | sw | ld | sd => exact (opcode_row_iff _ _).2 (opcode_word_iType ..)
  | dahi | dati => exact (regimm_row_iff _ _).2 ⟨opcode_word_iType .., rt_word_iType ..⟩
  | cop1 => exact (opcode_row_iff _ _).2 (opcode_word_fpuRType ..)
  | j | jal => exact (opcode_row_iff _ _).2 (opcode_word_jType ..)
  | _ => exact (special_row_iff _ _).2 ⟨opcode_word_rType .., funct_word_rType ..⟩

/-- Settles O3. A row that a word lies in is the row of the instruction it decodes to, so two such rows are the same. -/
theorem rowsPartitionTheWords : Obligations.RowsPartitionTheWords := by
  intro word
  refine ⟨fun p hp q hq hwp hwq => ?_, fun i hi => ?_, fun p hp hwp => ?_⟩
  · obtain ⟨i, hi, rfl⟩ := rows_decode p hp word hwp
    obtain ⟨j, hj, rfl⟩ := rows_decode q hq word hwq
    rw [hi] at hj
    cases hj
    rfl
  · exact ⟨rowOf i, rowOf_mem_rows i, rowOf_mnemonic i, encode_of_decode hi ▸ encode_inRow i⟩
  · obtain ⟨i, hi, rfl⟩ := rows_decode p hp word hwp
    exact ⟨i, hi, (rowOf_mnemonic i).symm⟩

/-! ### The assembler's immediates -/

/-- R78: an immediate in the unsigned range of 16 bits is the zero extension of its low 16 bits. -/
theorem zext16_ofInt {imm : Int} (hlow : 0 ≤ imm) (hhigh : imm ≤ 65535) :
    zext16 (BitVec.ofInt 16 imm) = BitVec.ofInt 64 imm := by
  apply BitVec.eq_of_toNat_eq
  simp only [zext16, BitVec.toNat_setWidth, BitVec.toNat_ofInt]
  omega

/-- R78: an immediate in the signed range of 16 bits is the sign extension of its low 16 bits. -/
theorem sext16_ofInt {imm : Int} (hlow : -32768 ≤ imm) (hhigh : imm ≤ 32767) :
    sext16 (BitVec.ofInt 16 imm) = BitVec.ofInt 64 imm := by
  apply BitVec.eq_of_toInt_eq
  rw [sext16, BitVec.toInt_signExtend_of_le (by decide), BitVec.toInt_ofInt, BitVec.toInt_ofInt,
    Int.bmod_eq_of_le (by omega) (by omega), Int.bmod_eq_of_le (by omega) (by omega)]

/-- Settles O5. The signed spelling of AUI's immediate sign-extends; the unsigned one, past 32767, zero-extends. -/
theorem assemblerImmediates : Obligations.AssemblerImmediates := by
  refine ⟨fun rt rs imm h => ⟨_, rfl, ?_⟩, fun rt rs imm h => ⟨_, rfl, ?_⟩, fun op rt offset base h => ⟨_, rfl, ?_⟩,
    fun _ _ => rfl⟩
  · simp only [Asm.wf, wfUnsigned16, Bool.and_eq_true, decide_eq_true_eq] at h
    obtain ⟨-, hlow, hhigh⟩ := h
    exact zext16_ofInt hlow hhigh
  · simp only [Asm.wf, wfEither16, Bool.and_eq_true, decide_eq_true_eq] at h
    obtain ⟨-, hlow, hhigh⟩ := h
    by_cases hsigned : imm ≤ 32767
    · exact .inl (sext16_ofInt hlow hsigned)
    · exact .inr (zext16_ofInt (by omega) hhigh)
  · simp only [Asm.wf, wfSigned16, Bool.and_eq_true, decide_eq_true_eq] at h
    obtain ⟨⟨-, hlow, hhigh⟩, -⟩ := h
    exact sext16_ofInt hlow hhigh

/-! ### The classes of words and the checks of ID -/

/-- R63: the I-type opcodes are REGIMM and those that select their instruction alone, COP1 apart. -/
theorem isITypeOpcode_iff (op : BitVec 6) :
    isITypeOpcode op = true ↔ op = Enc.opRegimm ∨ (op ∈ Enc.plainOpcodes ∧ op ≠ Enc.opCop1) := by
  revert op; decide

theorem plainFuncts_disjoint_sopFuncts : ∀ fn ∈ Enc.sopFuncts, fn ∉ Enc.plainFuncts := by decide

/-- R111: the listed functs have a width, and every other funct is Fatal kind 2. -/
theorem widthPolicy_eq_ok {fn : BitVec 6} (h : fn ∈ Enc.plainFuncts ∨ fn ∈ Enc.sopFuncts) :
    ∃ width, widthPolicy fn = .ok width := by
  simp only [Enc.plainFuncts, Enc.sopFuncts, List.mem_cons, List.not_mem_nil, or_false] at h
  rcases h with (rfl | rfl | rfl | rfl | rfl | rfl | rfl | rfl) | (rfl | rfl | rfl | rfl | rfl | rfl | rfl | rfl) <;>
    exact ⟨_, rfl⟩

theorem widthPolicy_eq_error {fn : BitVec 6} (hplain : fn ∉ Enc.plainFuncts) (hsop : fn ∉ Enc.sopFuncts) :
    widthPolicy fn = .error (.controlFunct fn) := by
  simp only [Enc.plainFuncts, Enc.sopFuncts, List.mem_cons, not_or] at hplain hsop
  simp only [widthPolicy, hplain, hsop, if_false]

/-- R120: the ALU control of a funct outside SOP does not read shamt. -/
theorem functControl_of_mem_plainFuncts {fn : BitVec 6} (h : fn ∈ Enc.plainFuncts) (shamt : RegIdx) :
    ∃ a, functControl fn shamt = .ok a := by
  simp only [Enc.plainFuncts, List.mem_cons, List.not_mem_nil, or_false] at h
  rcases h with rfl | rfl | rfl | rfl | rfl | rfl | rfl | rfl <;> exact ⟨_, rfl⟩

/-- R120: an SOP funct has one ALU control, under the SOP shamt. -/
theorem functControl_of_mem_sopFuncts {fn : BitVec 6} (h : fn ∈ Enc.sopFuncts) (shamt : RegIdx) :
    ∃ a, functControl fn shamt = sopControl fn shamt a := by
  simp only [Enc.sopFuncts, List.mem_cons, List.not_mem_nil, or_false] at h
  rcases h with rfl | rfl | rfl | rfl | rfl | rfl | rfl | rfl <;> exact ⟨_, rfl⟩

theorem ctrlPrimary_rType_ok {fn : BitVec 6} {width : RegWidth} (h : widthPolicy fn = .ok width) (op : BitVec 6)
    (rs rt rd shamt : RegIdx) : ctrlPrimary (.rType op rs rt rd shamt fn) = .ok (registerRegister width) := by
  simp only [ctrlPrimary, h]

theorem ctrlPrimary_rType_error {fn : BitVec 6} {info : FatalInfo} (h : widthPolicy fn = .error info) (op : BitVec 6)
    (rs rt rd shamt : RegIdx) : ctrlPrimary (.rType op rs rt rd shamt fn) = .error info := by
  simp only [ctrlPrimary, h]

theorem ctrlPrimary_iType_of_mem_plainOpcodes {op : BitVec 6} (h : op ∈ Enc.plainOpcodes) (hne : op ≠ Enc.opCop1)
    (rs rt : RegIdx) (imm : BitVec 16) : ∃ c, ctrlPrimary (.iType op rs rt imm) = .ok c := by
  simp only [Enc.plainOpcodes, List.mem_cons, List.not_mem_nil, or_false] at h
  rcases h with rfl | rfl | rfl | rfl | rfl | rfl | rfl
  case inr.inr.inl => exact absurd rfl hne
  all_goals exact ⟨_, rfl⟩

/-- No I-type template derives its ALU control from the funct (R120). -/
theorem aluControlOf_iType_ok {op : BitVec 6} {rs rt : RegIdx} {imm : BitVec 16} {c : Ctrl}
    (h : ctrlPrimary (.iType op rs rt imm) = .ok c) : ∃ a, aluControlOf c (.iType op rs rt imm) = .ok a := by
  simp only [ctrlPrimary, regimmSelect] at h
  split_ifs at h <;> cases h <;> exact ⟨_, rfl⟩

theorem illegalInfo_of_plainFunct {word : Word} (hop : Enc.opcode word = Enc.opSpecial)
    (h : Enc.funct word ∈ Enc.plainFuncts) : illegalInfo word = none := by
  simp only [illegalInfo, hop, h, if_true]

theorem illegalInfo_of_sopFunct {word : Word} (hop : Enc.opcode word = Enc.opSpecial)
    (h : Enc.funct word ∈ Enc.sopFuncts) : illegalInfo word =
      if Enc.shamt word = Enc.sopShamt then none else some (.controlShamt (Enc.funct word) (Enc.shamt word)) := by
  simp only [illegalInfo, hop, plainFuncts_disjoint_sopFuncts _ h, h, if_true, if_false]

theorem illegalInfo_of_otherFunct {word : Word} (hop : Enc.opcode word = Enc.opSpecial)
    (hplain : Enc.funct word ∉ Enc.plainFuncts) (hsop : Enc.funct word ∉ Enc.sopFuncts) :
    illegalInfo word = some (.controlFunct (Enc.funct word)) := by
  simp only [illegalInfo, hop, hplain, hsop, if_true, if_false]

theorem illegalInfo_of_regimm {word : Word} (hop : Enc.opcode word = Enc.opRegimm) : illegalInfo word =
    if Enc.rt word = Enc.rtDahi ∨ Enc.rt word = Enc.rtDati then none else some (.controlRegimm (Enc.rt word)) := by
  rw [illegalInfo, hop]
  rfl

theorem illegalInfo_of_jump {word : Word} (hop : Enc.opcode word = Enc.opJ ∨ Enc.opcode word = Enc.opJal) :
    illegalInfo word = some (.controlJType (Enc.opcode word)) := by
  rcases hop with hop | hop <;> rw [illegalInfo, hop] <;> rfl

theorem illegalInfo_of_plainOpcode {word : Word} (hop : Enc.opcode word ∈ Enc.plainOpcodes) :
    illegalInfo word = none := by
  have hother : ∀ op ∈ Enc.plainOpcodes, op ≠ Enc.opSpecial ∧ op ≠ Enc.opRegimm ∧ op ≠ Enc.opJ ∧ op ≠ Enc.opJal := by
    decide
  simp only [illegalInfo, hother _ hop, hop, or_false, if_false, if_true]

/-- R63, R76: a word of no listed opcode is of kind 1. -/
theorem illegalInfo_of_decodeVariant_error {word : Word} {info : FatalInfo} (h : decodeVariant word = .error info) :
    illegalInfo word = some info ∧ info.kind = 1 := by
  unfold decodeVariant at h
  split_ifs at h with hspecial hi hj hcop
  cases h
  simp only [isITypeOpcode_iff, not_or, not_and_not_right] at hi
  obtain ⟨hregimm, hplain⟩ := hi
  have hunlisted : Enc.opcode word ∉ Enc.plainOpcodes := fun h => hcop (hplain h)
  simp only [illegalInfo, hspecial, hregimm, hj, hunlisted, if_false, FatalInfo.kind, and_self]

/-- What the two checks of ID after decoding answer on a variant of `word`, by the word's class (R76, R321, R323): a
template and its ALU control for an admitted word, else the Fatal of the class from the check that fails. -/
inductive ControlChecks (word : Word) (v : Variant) : Option FatalInfo → Prop where
  | admitted {c : Ctrl} {a : AluControl} (template : ctrlPrimary v = .ok c) (operation : aluControlOf c v = .ok a) :
      ControlChecks word v none
  | noTemplate {info : FatalInfo} (notDecoder : info.kind ≠ 1) (notShamt : info.kind ≠ 3)
      (template : ctrlPrimary v = .error info) : ControlChecks word v (some info)
  | noAluControl {info : FatalInfo} {width : RegWidth} (kind : info.kind = 3)
      (policy : widthPolicy (Enc.funct word) = .ok width) (template : ctrlPrimary v = .ok (registerRegister width))
      (operation : aluControlOf (registerRegister width) v = .error info) : ControlChecks word v (some info)

/-- R111, R120: of the words of opcode 0, an unlisted funct has no template, and a bad SOP shamt no ALU control. -/
theorem controlChecks_of_special {word : Word} (hop : Enc.opcode word = Enc.opSpecial) (op : BitVec 6)
    (rs rt rd : RegIdx) :
    ControlChecks word (.rType op rs rt rd (Enc.shamt word) (Enc.funct word)) (illegalInfo word) := by
  by_cases hplain : Enc.funct word ∈ Enc.plainFuncts
  · obtain ⟨width, hwidth⟩ := widthPolicy_eq_ok (.inl hplain)
    obtain ⟨a, ha⟩ := functControl_of_mem_plainFuncts hplain (Enc.shamt word)
    rw [illegalInfo_of_plainFunct hop hplain]
    exact .admitted (ctrlPrimary_rType_ok hwidth ..) ha
  by_cases hsop : Enc.funct word ∈ Enc.sopFuncts
  · obtain ⟨width, hwidth⟩ := widthPolicy_eq_ok (.inr hsop)
    obtain ⟨a, ha⟩ := functControl_of_mem_sopFuncts hsop (Enc.shamt word)
    rw [illegalInfo_of_sopFunct hop hsop]
    split
    · next hshamt => exact .admitted (ctrlPrimary_rType_ok hwidth ..) (ha.trans (if_pos hshamt))
    · next hshamt => exact .noAluControl rfl hwidth (ctrlPrimary_rType_ok hwidth ..) (ha.trans (if_neg hshamt))
  · rw [illegalInfo_of_otherFunct hop hplain hsop]
    exact .noTemplate nofun nofun (ctrlPrimary_rType_error (widthPolicy_eq_error hplain hsop) ..)

/-- R112: of the words of opcode 1, DAHI's and DATI's rt alone select a template. -/
theorem controlChecks_of_regimm {word : Word} (hop : Enc.opcode word = Enc.opRegimm) (rs : RegIdx) (imm : BitVec 16) :
    ControlChecks word (.iType (Enc.opcode word) rs (Enc.rt word) imm) (illegalInfo word) := by
  rw [illegalInfo_of_regimm hop, hop]
  split
  · next hrt => rcases hrt with hrt | hrt <;> rw [hrt] <;> exact .admitted rfl rfl
  · next hrt =>
    obtain ⟨hdahi, hdati⟩ := not_or.1 hrt
    exact .noTemplate nofun nofun ((if_neg hdahi).trans (if_neg hdati))

/-- R105: any other I-type word has the template of its opcode. -/
theorem controlChecks_of_plainOpcode {word : Word} (hop : Enc.opcode word ∈ Enc.plainOpcodes)
    (hne : Enc.opcode word ≠ Enc.opCop1) (rs rt : RegIdx) (imm : BitVec 16) :
    ControlChecks word (.iType (Enc.opcode word) rs rt imm) (illegalInfo word) := by
  obtain ⟨c, hc⟩ := ctrlPrimary_iType_of_mem_plainOpcodes hop hne rs rt imm
  obtain ⟨a, ha⟩ := aluControlOf_iType_ok hc
  rw [illegalInfo_of_plainOpcode hop]
  exact .admitted hc ha

/-- R122, R323: on a word that decodes, the two checks answer as its class says. -/
theorem controlChecks {word : Word} {v : Variant} (h : decodeVariant word = .ok v) :
    ControlChecks word v (illegalInfo word) := by
  unfold decodeVariant at h
  split_ifs at h with hspecial hi hj hcop <;> cases h
  · exact controlChecks_of_special hspecial ..
  · rcases (isITypeOpcode_iff _).1 hi with hregimm | ⟨hplain, hne⟩
    · exact controlChecks_of_regimm hregimm ..
    · exact controlChecks_of_plainOpcode hplain hne ..
  · rw [illegalInfo_of_jump hj]
    exact .noTemplate nofun nofun rfl
  · have hplain : Enc.opcode word ∈ Enc.plainOpcodes := by rw [hcop]; decide
    rw [illegalInfo_of_plainOpcode hplain]
    exact .admitted rfl rfl

/-! ### A Fatal word runs to ID -/

/-- The state in which ID of a fetched word begins (R174). -/
def fetched (s : State) : State := (latchFetch (fetchWord s) s).setStage .instructionDecode

@[simp] theorem fetched_w (s : State) :
    (fetched s).w = { Wires.bottom with instruction := some (fetchWord s) } := by simp [fetched]

@[simp] theorem readReg_fetched (s : State) (width : RegWidth) (r : RegIdx) :
    readReg width (fetched s) r = readReg width s r := readReg_of_x_eq (by simp [fetched]) width r

theorem fetched_instruction (s : State) : (fetched s).w.instruction = some (fetchWord s) := by rw [fetched_w]

/-- R322: a Fatal raised in ID leaves all but the wires and latches as before the word, which the coprocessor has seen. -/
abbrev PreciseFatal (info : FatalInfo) (s t : State) : Prop :=
  t.status = .fatal info ∧ t.stage = .instructionDecode ∧ t.pc = s.pc ∧ t.x = s.x ∧ t.mem = s.mem ∧ SameSession s t ∧
    t.cop = s.cop.see (.fetch (fetchWord s))

theorem preciseFatal_fetched (info : FatalInfo) (s : State) : PreciseFatal info s (raiseFatal info (fetched s)) := by
  simp [PreciseFatal, SameSession, fetched]

theorem preciseFatal_latchFields (info : FatalInfo) (v : Variant) (s : State) :
    PreciseFatal info s (raiseFatal info (latchFields v (fetchWord s) (fetched s))) := by
  simp [PreciseFatal, SameSession, fetched]

theorem preciseFatal_latchOperands (info : FatalInfo) (c : Ctrl) (v : Variant) (s : State) :
    PreciseFatal info s
      (raiseFatal info (latchOperands c (fetchWord s) (latchFields v (fetchWord s) (fetched s)))) := by
  simp [PreciseFatal, SameSession, fetched]

/-- A Fatal in the work of ID keeps the stage (R171, D19). -/
theorem executeStage_of_decodeWork_fatal {s t : State} {info : FatalInfo} (h : s.status = .running)
    (hs : s.stage = .instructionDecode) (hid : decodeWork s = .next (raiseFatal info t)) :
    executeStage s = .next (raiseFatal info t) := by
  have hwork : work s = .next (raiseFatal info t) := by rw [work, hs]; exact hid
  rw [executeStage_running h, hwork]; rfl

/-- ID on a word that does not decode raises Fatal and latches nothing (R63, R322). -/
theorem executeStage_decode_variant_error {s : State} {word : Word} {info : FatalInfo} (h : s.status = .running)
    (hs : s.stage = .instructionDecode) (hw : s.w.instruction = some word) (hv : decodeVariant word = .error info) :
    executeStage s = .next (raiseFatal info s) :=
  executeStage_of_decodeWork_fatal h hs (by simp only [decodeWork, hw, need_some, hv])

/-- ID on a variant without an ALU control raises Fatal after it latched the template and the operands (R120, log 17). -/
theorem executeStage_decode_operation_error {s : State} {word : Word} {v : Variant} {c : Ctrl} {info : FatalInfo}
    (h : s.status = .running) (hs : s.stage = .instructionDecode) (hw : s.w.instruction = some word)
    (hv : decodeVariant word = .ok v) (hc : ctrlPrimary v = .ok c) (ha : aluControlOf c v = .error info) :
    executeStage s = .next (raiseFatal info (latchOperands c word (latchFields v word s))) :=
  executeStage_of_decodeWork_fatal h hs (by simp only [decodeWork, hw, need_some, hv, hc, ha])

/-- R172: an instruction whose ID raises Fatal ends there. -/
theorem executeInstruction_of_fetched_fatal {s t : State} {info : FatalInfo} (hr : s.status = .running)
    (hs : s.stage = .instructionFetch) (hid : executeStage (fetched s) = .next (raiseFatal info t)) :
    executeInstruction s = .next (raiseFatal info t) := by
  have hfetch : executeStage s = .next (fetched s) := executeStage_fetch hr hs
  have hrun : (fetched s).status = .running := hr
  rw [executeInstruction_eq_runStages_of_fetch hr hs, runStages_succ hr, hfetch, andThen_next, runStages_succ hrun, hid,
    andThen_next, runStages_fatal (raiseFatal_status info t)]

/-- R172, R185: an instruction that passes the checks of ID completes. -/
theorem executeInstruction_completes {s : State} {v : Variant} {c : Ctrl} {a : AluControl} (hr : s.status = .running)
    (hs : s.stage = .instructionFetch) (hv : decodeVariant (fetchWord s) = .ok v) (hc : ctrlPrimary v = .ok c)
    (ha : aluControlOf c v = .ok a) : ∃ t, executeInstruction s = .next t ∧ Completes s t := by
  obtain ⟨hload, hsrc⟩ := ctrlPrimary_memory hc
  obtain ⟨t, ht, hstage, hstatus, hpc, hcfg, hcalls, hreplies, -⟩ := runInstruction_spec v c a s hload hsrc
  refine ⟨t, ?_, hstage, hstatus, hpc, hcfg, hcalls, hreplies⟩
  rw [executeInstruction_eq_runStages_of_fetch hr hs, runStages_eq_runInstruction hr hs hv hc ha hload hsrc, ht]

/-- Settles O47. The check of ID that fails is the one of the word's class, and says what ID had latched before it. -/
theorem illegalWordsRaiseFatal : Obligations.IllegalWordsRaiseFatal := by
  intro s hr hs
  cases hv : decodeVariant (fetchWord s) with
  | error info =>
    obtain ⟨hclass, hkind⟩ := illegalInfo_of_decodeVariant_error hv
    rw [hclass]
    refine ⟨fun _ h => ?_, nofun⟩
    cases h
    have hid := executeStage_decode_variant_error (s := fetched s) hr rfl (fetched_instruction s) hv
    obtain ⟨hstatus, hstage, hpc, hx, hmem, hsession, hcop⟩ := preciseFatal_fetched info s
    refine ⟨_, executeInstruction_of_fetched_fatal hr hs hid, hstatus, hstage, hpc, hx, hmem, hsession, hcop,
      fun _ => ⟨?_, ?_, ?_⟩, fun h => absurd hkind h⟩ <;> simp [fetched]
  | ok v =>
    have hchecks := controlChecks hv
    generalize illegalInfo (fetchWord s) = answer at hchecks
    cases hchecks with
    | admitted hc ha => exact ⟨nofun, fun _ => executeInstruction_completes hr hs hv hc ha⟩
    | @noTemplate info hone hthree hc =>
      refine ⟨fun _ h => ?_, nofun⟩
      cases h
      have hid := executeStage_decode_primary_error (s := fetched s) hr rfl (fetched_instruction s) hv hc
      obtain ⟨hstatus, hstage, hpc, hx, hmem, hsession, hcop⟩ := preciseFatal_latchFields info v s
      refine ⟨_, executeInstruction_of_fetched_fatal hr hs hid, hstatus, hstage, hpc, hx, hmem, hsession, hcop,
        fun h => absurd h hone, fun _ => ⟨v, hv, ?_, fun _ => ⟨?_, ?_⟩, fun h => absurd h hthree⟩⟩
      · simp
      · rw [raiseFatal_w, latchFields_w, fetched_w]; rfl
      · simp [fetched]
    | @noAluControl info width hkind hwidth hc ha =>
      refine ⟨fun _ h => ?_, nofun⟩
      cases h
      have hid := executeStage_decode_operation_error (s := fetched s) hr rfl (fetched_instruction s) hv hc ha
      have hone : info.kind ≠ 1 := by rw [hkind]; decide
      obtain ⟨hstatus, hstage, hpc, hx, hmem, hsession, hcop⟩ :=
        preciseFatal_latchOperands info (registerRegister width) v s
      refine ⟨_, executeInstruction_of_fetched_fatal hr hs hid, hstatus, hstage, hpc, hx, hmem, hsession, hcop,
        fun h => absurd h hone, fun _ => ⟨v, hv, ?_, fun h => absurd hkind h, fun _ => ⟨width, hwidth, hc, ?_, rfl, ?_⟩⟩⟩
      · simp
      · simp
      · rw [raiseFatal_w, latchOperands_w, latchFields_w, fetched_w]
        simp only [readReg_latchFields, readReg_fetched]
        rfl

/-! ### The ports -/

/-- R321: the Fatal the generator raises on a decoded word is the one of its class. -/
theorem illegalInfo_of_control_error {word : Word} {v : Variant} {info : FatalInfo} (hv : decodeVariant word = .ok v)
    (h : control v = .error info) : illegalInfo word = some info := by
  have hchecks := controlChecks hv
  generalize illegalInfo word = answer at hchecks ⊢
  cases hchecks with
  | admitted hc ha => rw [control_of_primary hc ha] at h; cases h
  | noTemplate _ _ hc => simp only [control, hc] at h; cases h; rfl
  | noAluControl _ _ hc ha => simp only [control, hc, ha] at h; cases h; rfl

/-- R102, R321: what the Fatal of an illegal word names are fields of the word. -/
theorem diagnosticShows_of_illegalInfo {word : Word} {info : FatalInfo} (h : illegalInfo word = some info) :
    diagnosticShows ⟨Enc.opcode word, Enc.funct word, Enc.shamt word, Enc.rt word⟩ info = true := by
  simp only [illegalInfo] at h
  split_ifs at h <;> cases h <;> simp [diagnosticShows, FatalInfo.opcode, *]

theorem generatorPort_of_control_ok {word : Word} {v : Variant} {c : Ctrl} (hv : decodeVariant word = .ok v)
    (h : control v = .ok c) :
    generatorPort (variantKind v) (Enc.opcode word) (Enc.rt word) (Enc.shamt word) (Enc.funct word) =
      { ctrlOk := 1#1, bundle := ctrlToPort c, diagnostic := none } := by
  simp only [generatorPort, control_portVariant hv, h]

theorem generatorPort_of_control_error {word : Word} {v : Variant} {info : FatalInfo} (hv : decodeVariant word = .ok v)
    (h : control v = .error info) :
    generatorPort (variantKind v) (Enc.opcode word) (Enc.rt word) (Enc.shamt word) (Enc.funct word) =
      { ctrlOk := 0#1, bundle := none,
        diagnostic := some ⟨Enc.opcode word, Enc.funct word, Enc.shamt word, Enc.rt word⟩ } := by
  simp only [generatorPort, control_portVariant hv, h]

/-- R101: the generator's bundles are complete, so each has its code. -/
theorem ctrlToPort_isSome_of_control {v : Variant} {c : Ctrl} (h : control v = .ok c) : (ctrlToPort c).isSome = true := by
  obtain ⟨p, a, -, -, rfl⟩ := control_eq_ok h
  rfl

/-- Settles O60: the decoder's port follows the decoder, and the generator's the generator on the decoded variant. -/
theorem decoderAndGeneratorPorts : Obligations.DecoderAndGeneratorPorts := by
  intro word
  refine ⟨⟨rfl, rfl, rfl, rfl, rfl, rfl, rfl, rfl⟩, ?_, ?_, fun v hv => ⟨?_, ?_⟩⟩
  · cases hv : decodeVariant word <;> simp [decoderPort, hv]
  · cases hv : decodeVariant word <;> simp [decoderPort, hv]
  · simp only [decoderPort, hv]
  · cases hc : control v with
    | ok c =>
      have hg := generatorPort_of_control_ok hv hc
      exact ⟨congrArg (·.ctrlOk) hg, congrArg (·.bundle) hg,
        (congrArg (·.bundle.isSome) hg).trans (ctrlToPort_isSome_of_control hc), congrArg (·.diagnostic) hg⟩
    | error info =>
      have hg := generatorPort_of_control_error hv hc
      exact ⟨congrArg (·.ctrlOk) hg, congrArg (·.bundle) hg, congrArg (·.diagnostic) hg,
        diagnosticShows_of_illegalInfo (illegalInfo_of_control_error hv hc)⟩

end Sys2Proof.Machine
end

section
/-! PROOFS. The control-signal family (40_control_signals.md). What the generator answers by the class of a word, the bundle
of each template, the work of EX, MEM and WB under a change of branch and jump, and the codes of the port. -/

namespace Sys2Proof.Machine

/-! ### The generator -/

/-- R104, R122: an R-type bundle is the RegisterRegister template with the width and the ALU control of the funct. -/
theorem control_rType_eq_ok {op : BitVec 6} {rs rt rd shamt : RegIdx} {fn : BitVec 6} {c : Ctrl}
    (h : control (.rType op rs rt rd shamt fn) = .ok c) : ∃ a width,
      widthPolicy fn = .ok width ∧ functControl fn shamt = .ok a ∧ c = withAlu (registerRegister width) a := by
  obtain ⟨template, a, hc, ha, rfl⟩ := control_eq_ok h
  cases hwidth : widthPolicy fn with
  | error info => rw [ctrlPrimary_rType_error hwidth] at hc; cases hc
  | ok width =>
    rw [ctrlPrimary_rType_ok hwidth] at hc
    cases hc
    exact ⟨a, width, rfl, ha, rfl⟩

/-- Settles O6. An R-type bundle has the width and the ALU control of its funct, and each funct's are one entry of the
table; every other instruction has one variant per row, on which the generator computes. -/
theorem bundleOfEachTemplate : Obligations.BundleOfEachTemplate := by
  refine ⟨fun _ _ _ _ _ _ _ h => control_rType_eq_ok h, fun fn width a h => ?_, fun fn width a h => ?_, fun _ _ _ => rfl,
    fun _ _ _ => rfl, fun _ _ => rfl, fun _ _ => rfl, ?_, ?_, fun _ _ _ _ _ => rfl⟩
  · fin_cases h <;> exact ⟨rfl, fun _ => rfl⟩
  · fin_cases h <;> exact ⟨rfl, fun _ => rfl⟩
  · rintro rs rt imm width i (h | h) <;> cases h <;> rfl
  · rintro rs rt imm width i (h | h) <;> cases h <;> rfl

theorem control_of_illegalInfo_eq_none {word : Word} {v : Variant} (hv : decodeVariant word = .ok v)
    (h : illegalInfo word = none) : ∃ c, control v = .ok c ∧ c.aluControl.isSome = true := by
  have hchecks := controlChecks hv
  rw [h] at hchecks
  cases hchecks with
  | admitted hc ha => exact ⟨_, control_of_primary hc ha, rfl⟩

/-- R122, R321: on an illegal word the generator raises the Fatal of the word's class. -/
theorem control_of_illegalInfo_eq_some {word : Word} {v : Variant} {info : FatalInfo} (hv : decodeVariant word = .ok v)
    (h : illegalInfo word = some info) : control v = .error info := by
  have hchecks := controlChecks hv
  rw [h] at hchecks
  cases hchecks with
  | noTemplate _ _ hc => simp only [control, hc]
  | noAluControl _ _ hc ha => simp only [control, hc, ha]

/-- Settles O7: the generator is its two lookups, and on a word that decodes these answer as the word's class says. -/
theorem generatorAdmitsExactlyTheSubset : Obligations.GeneratorAdmitsExactlyTheSubset := by
  refine ⟨fun v c => ⟨control_eq_ok, ?_⟩, fun word v hv =>
    ⟨control_of_illegalInfo_eq_none hv, fun info => control_of_illegalInfo_eq_some hv⟩⟩
  rintro ⟨template, a, hc, ha, rfl⟩
  exact control_of_primary hc ha

/-! ### branch and jump -/

/-- A bundle with other values of the two signals of R110. -/
def withJumps (c : Ctrl) (branch jump : Bool) : Ctrl := { c with branch := branch, jump := jump }

theorem ctrlPrimary_jumps {v : Variant} {c : Ctrl} (h : ctrlPrimary v = .ok c) : c.branch = false ∧ c.jump = false := by
  cases v with
  | rType op rs rt rd shamt funct =>
    simp only [ctrlPrimary] at h
    split at h <;> cases h
    exact ⟨rfl, rfl⟩
  | iType op rs rt imm =>
    simp only [ctrlPrimary, regimmSelect] at h
    split_ifs at h <;> cases h <;> exact ⟨rfl, rfl⟩
  | jType op target => cases h
  | fpuRType op fmt ft fs fd function => cases h; exact ⟨rfl, rfl⟩

/-- What goes on from a wire that is read goes on after the read. -/
theorem andThen_need {α : Type} (v : Option α) (wire : Wire) (k : α → Out) (f : State → Out) :
    andThen (need v wire k) f = need v wire fun a => andThen (k a) f := by
  cases v <;> rfl

theorem storeValue_setCtrl (width : RegWidth) (a v : Dword) (s : State) (c : Option Ctrl) :
    storeValue width a v (s.setCtrl c) = (storeValue width a v s).setCtrl c := by
  rw [storeValue_eq width a v (s.setCtrl c), storeValue_eq width a v s,
    storeValue_mem_of_mem_eq (s := s) (t := s.setCtrl c) rfl rfl]
  rfl

theorem setGpr_setCtrl (dst : RegIdx) (v : Dword) (s : State) (c : Option Ctrl) :
    setGpr dst v (s.setCtrl c) = (setGpr dst v s).setCtrl c := by
  unfold setGpr
  split <;> rfl

theorem advanceStage_setCtrl (s : State) (c : Option Ctrl) : advanceStage (s.setCtrl c) = (advanceStage s).setCtrl c := by
  unfold advanceStage
  rw [State.setCtrl_status]
  split <;> rfl

section
variable (c : Ctrl) (b j : Bool) (x : Option Ctrl) (ea : Dword) (s : State)

theorem loadWork_withJumps : loadWork (withJumps c b j) ea (s.setCtrl x) = (loadWork c ea s).setCtrl x := by
  have hload : loadValue c.regWidth ea (s.setCtrl x) = loadValue c.regWidth ea s := loadValue_of_mem_eq rfl rfl ..
  simp only [loadWork, withJumps, hload]
  cases c.memRead <;> rfl

theorem storeWork_withJumps : storeWork (withJumps c b j) ea (s.setCtrl x) =
    andThen (storeWork c ea s) fun t => .next (t.setCtrl x) := by
  unfold storeWork
  simp only [withJumps, storeValue_setCtrl, State.setCtrl_w, State.setCtrl_cop]
  split
  · split
    · rw [andThen_need]; rfl
    · rfl
  · rfl

theorem selectWork_withJumps : selectWork (withJumps c b j) ea (s.setCtrl x) =
    andThen (selectWork c ea s) fun t => .next (t.setCtrl x) := by
  unfold selectWork
  simp only [withJumps, State.setCtrl_w]
  split
  · rfl
  · rw [andThen_need]; rfl

variable {c s} (hc : s.ctrl = some c)
include hc

/-- The work of EX reads neither signal (R177). -/
theorem executeWork_withJumps : executeWork (s.setCtrl (some (withJumps c b j))) =
    andThen (executeWork s) fun t => .next (t.setCtrl (some (withJumps c b j))) := by
  simp only [executeWork, State.setCtrl_ctrl, hc, need_some, andThen_need]
  rfl

/-- The work of MEM reads neither signal (R179). -/
theorem memoryWork_withJumps : memoryWork (s.setCtrl (some (withJumps c b j))) =
    andThen (memoryWork s) fun t => .next (t.setCtrl (some (withJumps c b j))) := by
  simp only [memoryWork, State.setCtrl_ctrl, State.setCtrl_w, hc, need_some, andThen_need, andThen_assoc,
    loadWork_withJumps, storeWork_withJumps, andThen_next, selectWork_withJumps]

theorem registerWrite_withJumps : registerWrite (s.setCtrl (some (withJumps c b j))) =
    andThen (registerWrite s) fun t => .next (t.setCtrl (some (withJumps c b j))) := by
  simp only [registerWrite, State.setCtrl_ctrl, State.setCtrl_w, hc, need_some, andThen_need]
  show need _ _ (fun d => if c.regWrite then _ else _) = _
  congr 1
  funext d
  split
  · rw [andThen_need]
    simp only [andThen_next, ← setGpr_setCtrl]
    rfl
  · rfl

/-- The work of WB reads neither signal (R180, R181). -/
theorem writeBackWork_withJumps : writeBackWork (s.setCtrl (some (withJumps c b j))) =
    andThen (writeBackWork s) fun t => .next (t.setCtrl (some (withJumps c b j))) := by
  have hreg (d : Dword) := registerWrite_withJumps b j (s := hook (.receiveData d) s) hc
  simp only [writeBackWork, State.setCtrl_w, andThen_need, andThen_assoc, andThen_next]
  congr 1
  funext d
  refine (congrArg (andThen · _) (hreg d)).trans ?_
  rw [andThen_assoc]
  rfl

theorem work_withJumps (hs : s.stage = .execute ∨ s.stage = .memory ∨ s.stage = .writeBack) :
    work (s.setCtrl (some (withJumps c b j))) =
      andThen (work s) fun t => .next (t.setCtrl (some (withJumps c b j))) := by
  rcases hs with hs | hs | hs <;> simp only [work, State.setCtrl_stage, hs]
  · exact executeWork_withJumps b j hc
  · exact memoryWork_withJumps b j hc
  · exact writeBackWork_withJumps b j hc

theorem executeStage_withJumps (hr : s.status = .running)
    (hs : s.stage = .execute ∨ s.stage = .memory ∨ s.stage = .writeBack) :
    executeStage (s.setCtrl (some (withJumps c b j))) =
      andThen (executeStage s) fun t => .next (t.setCtrl (some (withJumps c b j))) := by
  rw [executeStage_running hr, executeStage_running (by exact hr), work_withJumps b j hc hs, andThen_assoc, andThen_assoc]
  simp only [andThen_next, advanceStage_setCtrl]

end

/-- Settles O8. Every template has both signals 0, and none of the three works that find a bundle in the latch reads them. -/
theorem branchAndJumpHaveNoMeaning : Obligations.BranchAndJumpHaveNoMeaning := by
  refine ⟨fun v c h => ?_, fun s c b j hr hc hs => executeStage_withJumps b j hc hr hs⟩
  obtain ⟨template, a, hp, -, rfl⟩ := control_eq_ok h
  exact (ctrlPrimary_jumps hp : template.branch = false ∧ template.jump = false)

/-! ### The port -/

section
variable {α : Type} {k n : Nat} (port : Port) {code : α → BitVec k} {values : List α}
  (htable : values.map (fun a => (code a).toNat) = List.range n)
include htable

/-- The codes of a table differ, so the reader finds the value that was written (R101). -/
theorem fromCode_code {a : α} (ha : a ∈ values) : fromCode port code values (code a) = .ok a := by
  have hnodup : (values.map fun a => (code a).toNat).Nodup := htable ▸ List.nodup_range
  cases hfind : values.find? (fun b => code b == code a) with
  | none => exact absurd (List.find?_eq_none.1 hfind a ha) (by simp)
  | some b =>
    have hcode : code b = code a := by simpa using List.find?_some hfind
    have hba : b = a := List.inj_on_of_nodup_map hnodup (List.mem_of_find?_eq_some hfind) ha (congrArg _ hcode)
    simp only [fromCode, hfind, hba]

/-- Every code from the length of a table on is unused, and each of the others is some value's (R101). -/
theorem fromCode_cases (bits : BitVec k) :
    (n ≤ bits.toNat ∧ fromCode port code values bits = .error (.undefinedCode port)) ∨
    (bits.toNat < n ∧ ∃ a, fromCode port code values bits = .ok a) := by
  have hmem : bits.toNat < n ↔ ∃ a ∈ values, (code a).toNat = bits.toNat := by
    rw [← List.mem_range, ← htable, List.mem_map]
  by_cases hlt : bits.toNat < n
  · obtain ⟨a, ha, hcode⟩ := hmem.1 hlt
    rw [← BitVec.eq_of_toNat_eq hcode]
    exact .inr ⟨hcode ▸ hlt, a, fromCode_code port htable ha⟩
  · have hfind : values.find? (fun a => code a == bits) = none := by
      refine List.find?_eq_none.2 fun a ha hcode => hlt (hmem.2 ⟨a, ha, ?_⟩)
      rw [eq_of_beq hcode]
    exact .inl ⟨Nat.le_of_not_lt hlt, by simp only [fromCode, hfind]⟩

end

/-! The code tables of R101 (D8), for the fields that leave codes unused. -/

theorem aluOps_codes : aluOps.map (fun a => (aluOpCode a).toNat) = List.range 6 := rfl
theorem aluControls_codes : aluControls.map (fun a => (aluControlCode a).toNat) = List.range 11 := rfl
theorem aluSrcs_codes : aluSrcs.map (fun a => (aluSrcCode a).toNat) = List.range 3 := rfl
theorem regDsts_codes : regDsts.map (fun a => (regDstCode a).toNat) = List.range 3 := rfl

theorem mem_aluOps (a : AluOp) : a ∈ aluOps := by cases a <;> decide
theorem mem_aluControls (a : AluControl) : a ∈ aluControls := by cases a <;> decide
theorem mem_aluSrcs (a : AluSrc) : a ∈ aluSrcs := by cases a <;> decide
theorem mem_regDsts (a : RegDst) : a ∈ regDsts := by cases a <;> decide

/-! The fields that use every code read back what was written. -/

theorem immShiftOf_code (a : ImmShift) : immShiftOf (immShiftCode a) = a := by cases a <;> rfl

theorem ofBool_beq_one (b : Bool) : (BitVec.ofBool b == 1#1) = b := by cases b <;> rfl

theorem memWriteSrc_of_code (a : MemWriteSrc) :
    (if memWriteSrcCode a = 0#1 then .primaryUnit else .floatingPointUnit) = a := by cases a <;> rfl

theorem memToReg_of_code (a : MemToReg) : (if memToRegCode a = 0#1 then .useAlu else .useMemory) = a := by
  cases a <;> rfl

theorem regWidth_of_code (a : RegWidth) : (if regWidthCode a = 0#1 then .word else .doubleWord) = a := by
  cases a <;> rfl

/-- R101: a complete bundle has a code on the port, from which it is read back. -/
theorem exists_ctrlToPort {c : Ctrl} (h : c.aluControl.isSome = true) :
    ∃ p, ctrlToPort c = some p ∧ ctrlFromPort p = .ok c := by
  obtain ⟨a, ha⟩ := Option.isSome_iff_exists.1 h
  obtain ⟨aluOp, aluControl⟩ := c
  cases ha
  refine ⟨_, rfl, ?_⟩
  simp only [ctrlFromPort, fromCode_code _ aluOps_codes (mem_aluOps _),
    fromCode_code _ aluControls_codes (mem_aluControls _), fromCode_code _ aluSrcs_codes (mem_aluSrcs _),
    fromCode_code _ regDsts_codes (mem_regDsts _), immShiftOf_code, ofBool_beq_one, memWriteSrc_of_code,
    memToReg_of_code, regWidth_of_code]

/-- R101: the port reader answers a fault exactly when one of its four tables does not have the field's code. -/
theorem ctrlFromPort_eq_error_iff (p : CtrlPort) :
    (p.aluOp.toNat ≥ 6 ∨ p.aluControl.toNat ≥ 11 ∨ p.aluSrc.toNat = 3 ∨ p.regDst.toNat = 3) ↔
      ∃ port, ctrlFromPort p = .error (.undefinedCode port) := by
  rcases fromCode_cases .aluOp aluOps_codes p.aluOp with ⟨hop, eop⟩ | ⟨hop, op, eop⟩
  · exact iff_of_true (.inl hop) ⟨.aluOp, by simp only [ctrlFromPort, eop]⟩
  rcases fromCode_cases .aluControl aluControls_codes p.aluControl with ⟨hctl, ectl⟩ | ⟨hctl, ctl, ectl⟩
  · exact iff_of_true (.inr (.inl hctl)) ⟨.aluControl, by simp only [ctrlFromPort, eop, ectl]⟩
  rcases fromCode_cases .aluSrc aluSrcs_codes p.aluSrc with ⟨hsrc, esrc⟩ | ⟨hsrc, src, esrc⟩
  · exact iff_of_true (by omega) ⟨.aluSrc, by simp only [ctrlFromPort, eop, ectl, esrc]⟩
  rcases fromCode_cases .regDst regDsts_codes p.regDst with ⟨hdst, edst⟩ | ⟨hdst, dst, edst⟩
  · exact iff_of_true (by omega) ⟨.regDst, by simp only [ctrlFromPort, eop, ectl, esrc, edst]⟩
  · refine iff_of_false (by omega) ?_
    rintro ⟨port, h⟩
    simp only [ctrlFromPort, eop, ectl, esrc, edst] at h
    cases h

/-- Settles O59: each field is read back through its own code table, and the first unused code stops the reader. -/
theorem bundlePort : Obligations.BundlePort :=
  ⟨fun _ => exists_ctrlToPort, ctrlFromPort_eq_error_iff, aluOps_codes, aluControls_codes, aluSrcs_codes, rfl, rfl, rfl,
    regDsts_codes, rfl⟩

end Sys2Proof.Machine
end

section
/-! PROOFS. The ALU family (41_alu.md). How a Word operation reads its operands and extends its result; then, for each
group of operations, what it computes at any width and the statement about it. -/

namespace Sys2Proof.Machine

/-! ### The two widths -/

theorem alu_doubleWord (ctl : AluControl) (a b : Dword) : alu ctl .doubleWord a b = aluRaw ctl a b := rfl

/-- R143: where the raw result is a 32-bit value, a Word operation gives its sign extension. -/
theorem alu_word_of_setWidth {ctl : AluControl} {a b : Dword} {w : Word}
    (h : aluRaw ctl (lo32 a) (lo32 b) = w.setWidth 64) : alu ctl .word a b = sext32 w := by
  rw [alu_word, h, lo32_setWidth]

/-- A 0/1 result is the same at both widths (R146). -/
theorem sext32_lo32_zextBool (c : Bool) : sext32 (lo32 (zextBool c)) = zextBool c := by cases c <;> decide

/-- R142: a Word operation reads its operands' low words alone. -/
theorem alu_word_congr {ctl : AluControl} {a b a' b' : Dword} (ha : lo32 a = lo32 a') (hb : lo32 b = lo32 b') :
    alu ctl .word a b = alu ctl .word a' b' := by
  rw [alu_word, alu_word, ha, hb]

/-! ### Sums, differences and shifts -/

theorem lo32_eq_ofNat (v : Dword) : lo32 v = BitVec.ofNat 32 (v.toNat % 2 ^ 32) :=
  BitVec.eq_of_toNat_eq (by simp [lo32])

theorem toNat_lo32 (v : Dword) : (lo32 v).toNat = v.toNat % 2 ^ 32 := BitVec.toNat_setWidth 32 v

theorem alu_addition_word (a b : Dword) : alu .addition .word a b = sext32 (lo32 a + lo32 b) :=
  alu_word_of_setWidth rfl

theorem alu_subtraction_word (a b : Dword) : alu .subtraction .word a b = sext32 (lo32 a - lo32 b) :=
  alu_word_of_setWidth rfl

theorem alu_leftShift16_word (a b : Dword) : alu .leftShift16 .word a b = sext32 (lo32 b <<< 16) :=
  alu_word_of_setWidth rfl

/-- Settles O9: at 64 bits by the unsigned readings, at Word width by the raw result on 32 bits. -/
theorem aluArithmetic : Obligations.AluArithmetic := by
  intro a b
  refine ⟨?_, ?_, ?_, ?_, ?_, ?_, BitVec.setWidth_eq _, BitVec.setWidth_eq _, alu_word_of_setWidth rfl,
    alu_word_of_setWidth rfl⟩
  · simp [alu_doubleWord, aluRaw]
  · have hb := b.isLt
    simp only [alu_doubleWord, aluRaw, BitVec.setWidth_eq, BitVec.toNat_sub]
    omega
  · simp [alu_doubleWord, aluRaw, Nat.shiftLeft_eq]
  · rw [alu_addition_word, BitVec.ofNat_add, ← lo32_eq_ofNat, ← lo32_eq_ofNat]
  · rw [alu_subtraction_word, BitVec.sub_def, toNat_lo32, toNat_lo32]
    congr 2
    omega
  · rw [alu_leftShift16_word, BitVec.shiftLeft_eq_mul_twoPow, BitVec.ofNat_mul, ← lo32_eq_ofNat]
    rfl

/-! ### Comparisons -/

theorem lessSigned_eq {n : Nat} (a b : BitVec n) : lessSigned a b = if a.toInt < b.toInt then 1#64 else 0#64 := by
  simp [lessSigned, zextBool]

theorem lessUnsigned_eq {n : Nat} (a b : BitVec n) :
    lessUnsigned a b = if a.toNat < b.toNat then 1#64 else 0#64 := by
  simp [lessUnsigned, zextBool]

/-- Settles O10: the comparison of the operands of the width, whose 0 or 1 the Word conversion keeps. -/
theorem setLessThan : Obligations.SetLessThan := fun _ _ =>
  ⟨lessSigned_eq .., lessUnsigned_eq .., (sext32_lo32_zextBool _).trans (lessSigned_eq ..),
    (sext32_lo32_zextBool _).trans (lessUnsigned_eq ..)⟩

/-! ### Products -/

/-- R151: modulo 2^n the product of the signed readings is that of the unsigned ones; both are the product of words. -/
theorem ofInt_toInt_mul_toInt {n : Nat} (a b : BitVec n) : BitVec.ofInt n (a.toInt * b.toInt) = a * b := by
  rw [BitVec.ofInt_mul, BitVec.ofInt_toInt, BitVec.ofInt_toInt]

theorem ofNat_toNat_mul_toNat {n : Nat} (a b : BitVec n) : BitVec.ofNat n (a.toNat * b.toNat) = a * b := by
  rw [BitVec.ofNat_mul, BitVec.ofNat_toNat, BitVec.ofNat_toNat, BitVec.setWidth_eq, BitVec.setWidth_eq]

theorem alu_multiplicationSigned_word (a b : Dword) :
    alu .multiplicationSigned .word a b = sext32 (BitVec.ofInt 32 ((lo32 a).toInt * (lo32 b).toInt)) := by
  rw [alu_word, aluRaw, productSigned, lo32_ofInt]

theorem alu_multiplicationUnsigned_word (a b : Dword) :
    alu .multiplicationUnsigned .word a b = sext32 (BitVec.ofNat 32 ((lo32 a).toNat * (lo32 b).toNat)) := by
  rw [alu_word, aluRaw, productUnsigned, lo32_ofNat]

/-- R151: signedness does not change a product, at either width. -/
theorem alu_multiplicationSigned_eq_unsigned (width : RegWidth) (a b : Dword) :
    alu .multiplicationSigned width a b = alu .multiplicationUnsigned width a b := by
  cases width with
  | word =>
    rw [alu_multiplicationSigned_word, alu_multiplicationUnsigned_word, ofInt_toInt_mul_toInt, ofNat_toNat_mul_toNat]
  | doubleWord => exact (ofInt_toInt_mul_toInt a b).trans (ofNat_toNat_mul_toNat a b).symm

/-- Settles O11: the low bits of either exact product are the product of words. -/
theorem multiplicationIgnoresSignedness : Obligations.MultiplicationIgnoresSignedness := fun a b =>
  ⟨rfl, rfl, alu_multiplicationSigned_word a b, alu_multiplicationUnsigned_word a b,
    fun width => alu_multiplicationSigned_eq_unsigned width a b⟩

/-! ### Quotients -/

/-- The signed quotient is the library's signed division of bit vectors, whose quotient by 0 is 0 too. -/
theorem quotientSigned_eq_sdiv {n : Nat} (a b : BitVec n) : quotientSigned a b = a.sdiv b := by
  unfold quotientSigned
  split
  next hb => rw [hb, BitVec.sdiv_zero]
  next => exact BitVec.eq_of_toInt_eq (by rw [BitVec.toInt_ofInt, BitVec.toInt_sdiv])

/-- The unsigned quotient is the library's unsigned division of bit vectors. -/
theorem quotientUnsigned_eq_div {n : Nat} (a b : BitVec n) : quotientUnsigned a b = a / b := by
  unfold quotientUnsigned
  split
  next hb => rw [hb, BitVec.udiv_zero]
  next => exact BitVec.udiv_def.symm

theorem eq_intMin_iff_toInt {n : Nat} (hn : 0 < n) (a : BitVec n) : a = BitVec.intMin n ↔ a.toInt = -2 ^ (n - 1) := by
  rw [← BitVec.toInt_inj, BitVec.toInt_intMin_of_pos hn]

theorem eq_neg_one_iff_toInt {n : Nat} (hn : 0 < n) (b : BitVec n) : b = -1#n ↔ b.toInt = -1 := by
  rw [← BitVec.toInt_inj, BitVec.neg_one_eq_allOnes, BitVec.toInt_allOnes, if_pos hn]

/-- R152, D17: a divisor of 0 gives 0, -2^(n-1) / -1 wraps to itself, and any other quotient is rounded toward zero. -/
theorem toInt_quotientSigned {n : Nat} (hn : 0 < n) (a b : BitVec n) : (quotientSigned a b).toInt =
    if b = 0#n then 0 else if a.toInt = -2 ^ (n - 1) ∧ b.toInt = -1 then -2 ^ (n - 1) else a.toInt.tdiv b.toInt := by
  simp only [quotientSigned_eq_sdiv, ← eq_intMin_iff_toInt hn, ← eq_neg_one_iff_toInt hn]
  split_ifs with hzero hover
  · rw [hzero, BitVec.sdiv_zero, BitVec.toInt_zero]
  · rw [hover.1, hover.2, BitVec.intMin_sdiv_neg_one, BitVec.toInt_intMin_of_pos hn]
  · exact BitVec.toInt_sdiv_of_ne_or_ne a b (Decidable.not_and_iff_or_not.1 hover)

theorem toNat_quotientUnsigned {n : Nat} (a b : BitVec n) :
    (quotientUnsigned a b).toNat = if b = 0#n then 0 else a.toNat / b.toNat := by
  rw [quotientUnsigned_eq_div, BitVec.toNat_udiv]
  split
  next hb => rw [hb, BitVec.toNat_zero, Nat.div_zero]
  next => rfl

theorem alu_divisionSigned_doubleWord (a b : Dword) : alu .divisionSigned .doubleWord a b = quotientSigned a b :=
  BitVec.setWidth_eq _

theorem alu_divisionUnsigned_doubleWord (a b : Dword) : alu .divisionUnsigned .doubleWord a b = quotientUnsigned a b :=
  BitVec.setWidth_eq _

theorem alu_divisionSigned_word (a b : Dword) :
    alu .divisionSigned .word a b = sext32 (quotientSigned (lo32 a) (lo32 b)) := alu_word_of_setWidth rfl

theorem alu_divisionUnsigned_word (a b : Dword) :
    alu .divisionUnsigned .word a b = sext32 (quotientUnsigned (lo32 a) (lo32 b)) := alu_word_of_setWidth rfl

/-- Settles O12: each clause is the quotient at its width, and a sign extension keeps the signed reading. -/
theorem divisionTruncates : Obligations.DivisionTruncates := by
  intro a b
  refine ⟨?_, ?_, ?_, _, alu_divisionUnsigned_word a b, toNat_quotientUnsigned ..⟩
  · rw [alu_divisionSigned_doubleWord]
    exact toInt_quotientSigned (by decide) a b
  · rw [alu_divisionUnsigned_doubleWord]
    exact toNat_quotientUnsigned a b
  · rw [alu_divisionSigned_word, sext32_toInt]
    exact toInt_quotientSigned (by decide) (lo32 a) (lo32 b)

/-! ### Word operations and LW -/

theorem loadValue_word_of_memOk {s : State} {ea : Dword} (h : memOk s.cfg ea.toNat 4 = true) :
    loadValue .word ea s = zext32 (readWord s.mem ea.toNat) := by
  rw [loadValue_eq]
  exact if_pos h

/-- R182: the conversion at WB of a zero-extended word is its sign extension. -/
theorem narrow_word_zext32 (w : Word) : narrow .word (zext32 w) = sext32 w := congrArg sext32 (lo32_setWidth w)

/-- Settles O13: a Word result is a sign extension, which the conversion at WB keeps; a loaded word gets its own
there. -/
theorem wordOperations : Obligations.WordOperations := by
  refine ⟨fun ctl a b a' b' ha hb => ?_, fun s ea hok => ?_⟩
  · have hnarrow := narrow_alu .word ctl a b
    exact ⟨alu_word_congr ha hb, hnarrow.symm, hnarrow⟩
  · have hload := loadValue_word_of_memOk hok
    exact ⟨hload, by rw [hload, narrow_word_zext32]⟩

end Sys2Proof.Machine
end

section
/-! PROOFS. The sequencer family (42_stage_sequencer.md). What a stage step leaves unchanged and what each of the five
stages latches; then runs of stages against execute_instruction, a step against `exec`, and the coprocessor. -/

namespace Sys2Proof.Machine

/-! ### The frame of a stage step -/

/-- Settles O19: only ID raises Fatal and it keeps the stage; any other work is followed by the successor. -/
theorem stageAdvances : Obligations.StageAdvances := by
  intro s
  refine ⟨fun t h => ?_, fun info h => by simp only [executeStage, h]⟩
  have he := executeStage_effect h
  exact ⟨he.running, he.stage.imp_right fun ⟨info, hstatus, _, hstage⟩ => ⟨info, hstatus, hstage⟩⟩

theorem executeStage_mem_of_ne {s t : State} (h : executeStage s = .next t) (hs : s.stage ≠ .memory) :
    t.mem = s.mem :=
  (executeStage_effect h).mem.resolve_right fun ⟨hstage, _⟩ => hs hstage

/-- R184: before MEM a stage step changes no register, pc or memory, and nothing of the session. -/
theorem executeStage_frame {s t : State} (h : executeStage s = .next t)
    (hs : s.stage = .instructionFetch ∨ s.stage = .instructionDecode ∨ s.stage = .execute) :
    t.x = s.x ∧ t.pc = s.pc ∧ t.mem = s.mem ∧ SameSession s t := by
  have he := executeStage_effect h
  have hback : s.stage ≠ .writeBack := by rcases hs with hs | hs | hs <;> rw [hs] <;> decide
  have hmemory : s.stage ≠ .memory := by rcases hs with hs | hs | hs <;> rw [hs] <;> decide
  obtain ⟨hx, hpc⟩ := he.before hback
  exact ⟨hx, hpc, executeStage_mem_of_ne h hmemory, he.session⟩

/-- Settles O20: MEM alone stores, and WB alone writes a register and pc. -/
theorem visibleStateByStage : Obligations.VisibleStateByStage := by
  intro s t h
  have he := executeStage_effect h
  refine ⟨fun hs => ?_, fun hs => ?_, fun hs => ?_⟩
  · obtain ⟨hx, hpc, hmem, -⟩ := executeStage_frame h hs
    exact ⟨hx, hpc, hmem⟩
  · obtain ⟨hx, hpc⟩ := he.before (by rw [hs]; decide)
    refine ⟨hx, hpc, ?_⟩
    obtain hmem | ⟨-, hwrite, -⟩ := he.mem
    · exact .inr hmem
    · exact .inl hwrite
  · obtain ⟨hpc, dst, v, hx⟩ := he.back hs
    exact ⟨executeStage_mem_of_ne h (by rw [hs]; decide), hpc, dst, v, writesGpr_of_x_eq hx⟩

/-! ### The five stages -/

/-- R174: the word fetched is the one at pc, or 0 where memory refuses the access (R47). -/
theorem fetchWord_eq (s : State) :
    fetchWord s = if memOk s.cfg s.pc.toNat 4 = true then readWord s.mem s.pc.toNat else 0#32 := by
  split
  · next hok => exact fetchWord_of_memOk hok
  · next hfail => exact fetchWord_of_not_memOk (Bool.eq_false_of_not_eq_true hfail)

/-- Settles O14, by what IF latches and the frame of a stage before MEM. -/
theorem instructionFetch : Obligations.InstructionFetch := by
  intro s hr hs
  have hstep := executeStage_fetch hr hs
  obtain ⟨hx, hpc, hmem, hsession⟩ := executeStage_frame hstep (.inl hs)
  refine ⟨_, hstep, ?_, rfl, rfl, rfl, rfl, hr, hx, hpc, hmem, hsession⟩
  rw [State.setStage_w, latchFetch_w, fetchWord_eq]

/-- A stage before MEM that answers with `P` answers so in its frame. -/
theorem exists_executeStage_framed {s : State} {P : State → Prop}
    (hs : s.stage = .instructionFetch ∨ s.stage = .instructionDecode ∨ s.stage = .execute)
    (h : ∃ t, executeStage s = .next t ∧ P t) :
    ∃ t, executeStage s = .next t ∧ t.x = s.x ∧ t.pc = s.pc ∧ t.mem = s.mem ∧ SameSession s t ∧ P t := by
  obtain ⟨t, ht, hP⟩ := h
  obtain ⟨hx, hpc, hmem, hsession⟩ := executeStage_frame ht hs
  exact ⟨t, ht, hx, hpc, hmem, hsession, hP⟩

/-- Settles O15. The checks of ID answer as the word's class says; each Fatal keeps the stage and calls no hook. -/
theorem instructionDecode : Obligations.InstructionDecode := by
  intro s word hr hs hw
  refine exists_executeStage_framed (.inr (.inl hs)) ?_
  cases hv : decodeVariant word with
  | error info =>
    rw [(illegalInfo_of_decodeVariant_error hv).1]
    exact ⟨_, executeStage_decode_variant_error hr hs hw hv, rfl, hs, rfl⟩
  | ok v =>
    have hchecks := controlChecks hv
    generalize illegalInfo word = answer at hchecks
    cases hchecks with
    | admitted hc ha =>
      exact ⟨_, executeStage_decode_ok hr hs hw hv hc ha, v, _, rfl, control_of_primary hc ha, hr, rfl, rfl, rfl, rfl,
        rfl⟩
    | noTemplate _ _ hc => exact ⟨_, executeStage_decode_primary_error hr hs hw hv hc, rfl, hs, rfl⟩
    | noAluControl _ _ hc ha => exact ⟨_, executeStage_decode_operation_error hr hs hw hv hc ha, rfl, hs, rfl⟩

/-- Settles O16, by the work of EX on latched operands. -/
theorem execute : Obligations.Execute := by
  intro s c a v1 v2 hr hs hc ha h1 h2
  obtain ⟨t, ht, honly, hcop, hw⟩ := executeWork_next hc ha h1 h2
  have hwork : work s = .next t := by rw [work, hs]; exact ht
  have hstatus : t.status = .running := honly.status.trans hr
  have hstage : t.stage.succ = .memory := by rw [honly.stage, hs]; rfl
  have hstep := executeStage_of_work hr hwork hstatus
  obtain ⟨hx, hpc, hmem, hsession⟩ := executeStage_frame hstep (.inr (.inr hs))
  exact ⟨_, hstep, hw, hcop, hstage, hstatus, hx, hpc, hmem, honly.instr, honly.ctrl, hsession⟩

/-- R179: the value MEM stores, from the source the bundle selects. -/
def storeData (c : Ctrl) (v2 : Dword) (s : State) : Dword :=
  match c.memWriteSrc with
  | .primaryUnit => v2
  | .floatingPointUnit => s.cop.memWriteData

/-- R179: the memory MEM leaves. -/
def storedMemory (c : Ctrl) (ea v2 : Dword) (s : State) : Memory :=
  if c.memWrite = true then (storeValue c.regWidth ea (storeData c v2 s) s).mem else s.mem

/-- R179: the pre-writeback value, of the ALU result and the value loaded. -/
def selectedData (c : Ctrl) (ea loaded : Dword) : Dword :=
  match c.memToReg with
  | .useMemory => loaded
  | .useAlu => ea

/-- R179: the wires MEM leaves. -/
def accessWires (c : Ctrl) (ea : Dword) (s : State) : Wires :=
  { s.w with
    memoryData := if c.memRead = true then some (loadValue c.regWidth ea s) else s.w.memoryData
    dataResult := some (selectedData c ea (loadValue c.regWidth ea s)) }

/-- The value loaded into a wire is not part of what is stored (D24). -/
theorem storedMemory_setWires (c : Ctrl) (ea v2 : Dword) (s : State) (w : Wires) :
    storedMemory c ea v2 (s.setWires w) = storedMemory c ea v2 s := by
  have hdata : storeData c v2 (s.setWires w) = storeData c v2 s := rfl
  have hstore : (storeValue c.regWidth ea (storeData c v2 s) (s.setWires w)).mem =
      (storeValue c.regWidth ea (storeData c v2 s) s).mem :=
    storeValue_mem_of_mem_eq (s := s) (t := s.setWires w) rfl rfl ..
  rw [storedMemory, hdata, hstore, State.setWires_mem, storedMemory]

theorem loadWork_eq (c : Ctrl) (ea : Dword) (s : State) : loadWork c ea s = s.setWires
    { s.w with memoryData := if c.memRead = true then some (loadValue c.regWidth ea s) else s.w.memoryData } := by
  unfold loadWork
  split <;> rfl

theorem storeWork_eq {v2 : Dword} {s : State} (c : Ctrl) (ea : Dword) (h2 : s.w.readData2 = some v2) :
    storeWork c ea s = .next (s.setMem (storedMemory c ea v2 s)) := by
  unfold storeWork storedMemory storeData
  cases c.memWrite with
  | false => rfl
  | true =>
    cases c.memWriteSrc with
    | primaryUnit =>
      simp only [if_true, h2, need_some]
      exact congrArg _ (storeValue_eq ..)
    | floatingPointUnit => exact congrArg _ (storeValue_eq ..)

theorem selectWork_eq {c : Ctrl} {loaded : Dword} {s : State} (ea : Dword)
    (h : c.memToReg = .useMemory → s.w.memoryData = some loaded) : selectWork c ea s =
      .next (hook .memory (s.setWires { s.w with dataResult := some (selectedData c ea loaded) })) := by
  unfold selectWork selectedData
  cases hm : c.memToReg with
  | useAlu => rfl
  | useMemory => simp only [h hm, need_some]

/-- R179, for every bundle: MEM reads, stores the selected source's value, and selects the pre-writeback value. -/
theorem memoryWork_eq {s : State} {c : Ctrl} {ea v2 : Dword} (hc : s.ctrl = some c) (he : s.w.aluResult = some ea)
    (h2 : s.w.readData2 = some v2) (hload : c.memToReg = .useMemory → c.memRead = true) : memoryWork s =
      .next (hook .memory ((s.setMem (storedMemory c ea v2 s)).setWires (accessWires c ea s))) := by
  have hstore : storeWork c ea (loadWork c ea s) = .next ((loadWork c ea s).setMem (storedMemory c ea v2 s)) := by
    rw [loadWork_eq, storeWork_eq c ea (by exact h2), storedMemory_setWires]
  have hread : c.memToReg = .useMemory →
      ((loadWork c ea s).setMem (storedMemory c ea v2 s)).w.memoryData = some (loadValue c.regWidth ea s) := by
    intro hm
    rw [loadWork_eq]
    exact if_pos (hload hm)
  rw [memoryWork, hc, need_some, he, need_some, hstore, andThen_next, selectWork_eq ea hread, loadWork_eq]
  rfl

/-- Settles O17, by the work of MEM, a load's value and a store's memory, for every bundle. -/
theorem memoryAccess : Obligations.MemoryAccess := by
  intro s c ea v2 hr hs hc he h2 hload
  have hwork : work s = memoryWork s := by rw [work, hs]
  have hstage : s.stage.succ = .writeBack := by rw [hs]; rfl
  refine ⟨_, executeStage_of_work hr (hwork.trans (memoryWork_eq hc he h2 hload)) hr, hstage, hr, rfl, rfl, rfl, rfl,
    rfl, ⟨rfl, rfl, rfl⟩, ?_, ?_⟩
  · rw [State.setStage_w, hook_w, State.setWires_w, accessWires, loadValue_eq]
    rfl
  · rw [State.setStage_mem, hook_mem, State.setWires_mem, State.setMem_mem, storedMemory, storeValue_mem, ite_and]
    rfl

/-- Settles O18, by the work of WB: the register write is conditional on reg_write, all else is not. -/
theorem writeBack : Obligations.WriteBack := by
  intro s c d dst hr hs hc hd hdst
  obtain ⟨t, ht, hpc, hmem, hstage, -, -, hstatus, hcfg, hcalls, hreplies, hcop, hw, hg, -⟩ :=
    writeBackWork_next hc hd hdst
  have hwork : work s = .next t := by rw [work, hs]; exact ht
  have hrun : t.status = .running := hstatus.trans hr
  have hnext : t.stage.succ = .instructionFetch := by rw [hstage, hs]; rfl
  refine ⟨_, executeStage_of_work hr hwork hrun, hnext, hrun, hpc, hmem, hcop, ⟨hcfg, hcalls, hreplies⟩,
    fun hwrite => ⟨fun r => ?_, ?_⟩, fun hwrite => ⟨fun r => ?_, ?_⟩⟩
  · rw [gpr_setStage, hg r, hwrite]
    simp only [true_and]
    rfl
  · rw [State.setStage_w, hw, if_pos hwrite]
    rfl
  · rw [gpr_setStage, hg r, hwrite]
    simp only [Bool.false_eq_true, false_and, if_false]
  · rw [State.setStage_w, hw, hwrite]
    rfl

/-! ### Runs of stages -/

/-- Settles O22, for every word: one that decodes runs `exec`, and any other runs the stages. -/
theorem singleStepEquivalence : Obligations.SingleStepEquivalence :=
  fun _ hr hs => (executeInstruction_eq_runStages_of_fetch hr hs).symm

/-- A run of stages, stopped and resumed, is the uninterrupted run. -/
theorem runStages_add (m n : Nat) : ∀ s : State, runStages (m + n) s = andThen (runStages m s) (runStages n) := by
  induction m with
  | zero => intro s; rw [Nat.zero_add]; rfl
  | succ m ih =>
    intro s
    cases hs : s.status with
    | fatal info => rw [runStages_fatal hs, runStages_fatal hs, andThen_next, runStages_fatal hs]
    | running =>
      rw [Nat.add_right_comm, runStages_succ hs, runStages_succ hs, andThen_assoc]
      exact congrArg _ (funext ih)

/-- While the block runs, the stages that are owed and those that ran add up, up to the last stage (R172). -/
theorem stagesOwed_of_runStages (k : Nat) : ∀ {s t : State}, k < stagesOwed s.stage → runStages k s = .next t →
    t.status = .running → k + stagesOwed t.stage = stagesOwed s.stage := by
  induction k with
  | zero => intro s t _ h _; cases h; exact Nat.zero_add _
  | succ k ih =>
    intro s t hk h ht
    cases hs : s.status with
    | fatal info => rw [runStages_fatal hs] at h; cases h; rw [hs] at ht; cases ht
    | running =>
      rw [runStages_succ hs] at h
      obtain ⟨u, hu, hrun⟩ := andThen_eq_next h
      have hback : s.stage ≠ .writeBack := by
        intro hwb
        rw [hwb] at hk
        exact absurd (Nat.lt_of_succ_lt_succ hk) (Nat.not_lt_zero k)
      have hsucc := stagesOwed_succ hback
      obtain ⟨-, hstage⟩ | ⟨info, hfatal, -⟩ := (executeStage_effect hu).stage
      · rw [← hstage] at hsucc
        have hrest := ih (by omega) hrun ht
        omega
      · rw [runStages_fatal hfatal] at hrun; cases hrun; rw [hfatal] at ht; cases ht

/-- Settles O23. The call runs the stages still owed, so it resumes the run that was stopped after `k`. -/
theorem pendingInstructionIsFinished : Obligations.PendingInstructionIsFinished := by
  intro s t k hr hs hpos hk h
  have hwhole : executeInstruction s = runStages (5 - k) t := by
    rw [executeInstruction_eq_runStages_of_fetch hr hs, ← Nat.add_sub_of_le hk.le, runStages_add, h, andThen_next,
      Nat.add_sub_cancel_left]
  have howed : stagesOwed s.stage = 5 := by rw [hs]; rfl
  constructor
  · intro ht
    have hleft := stagesOwed_of_runStages k (by omega) h ht
    refine ⟨fun hfetch => ?_, ?_⟩
    · have hfive : stagesOwed t.stage = 5 := by rw [hfetch]; rfl
      omega
    · rw [hwhole, executeInstruction_eq_runStages ht]
      congr 1
      omega
  · intro ht
    cases hstatus : t.status with
    | running => exact absurd hstatus ht
    | fatal info => rw [hwhole, runStages_fatal hstatus]

/-! ### A step and `exec` -/

theorem executeInstruction_of_decode {s : State} {i : Instr} (hr : s.status = .running)
    (hs : s.stage = .instructionFetch) (hd : decode (fetchWord s) = .ok i) : executeInstruction s = exec i s := by
  simp only [executeInstruction, hr, hs, freshInstruction, hd]

/-- Settles O21: the bytes at pc are the word fetched, whatever calls remain. -/
theorem stepRunsTheDecodedInstruction : Obligations.StepRunsTheDecodedInstruction := by
  intro s i hr hs _ hok hbytes
  have hd : decode (fetchWord s) = .ok i := by
    rw [fetchWord_of_memOk hok]
    exact Option.some.inj hbytes
  refine ⟨fun hc => (step_nil hr hc).trans (executeInstruction_of_decode hr hs hd), fun rest hc => ?_⟩
  have hexec : executeInstruction (s.setCalls rest) = exec i (s.setCalls rest) := executeInstruction_of_decode hr hs hd
  obtain hc | hc := hc <;> exact (step_cons hr hc).trans hexec

/-! ### The coprocessor -/

/-- The coprocessor reaches neither the ALU result nor the pre-writeback value (R177, R179). -/
theorem dataOf_setCop (v : Variant) (c : Ctrl) (a : AluControl) (s : State) (cop : Cop) :
    dataOf v c a (s.setCop cop) = dataOf v c a s := rfl

/-- Settles O40. The runs with and without the coprocessor share the pre-writeback value and the store; the hooks are those
of `copAtWrite`, and its claim enters the destination's value alone. -/
theorem coprocessorArbitration : Obligations.CoprocessorArbitration := by
  intro i s seen hj hcop
  obtain ⟨t, ht, ⟨htstage, htstatus, htpc, -⟩, htmem, htg, htcop, -⟩ := exec_spec i hj s
  obtain ⟨u, hu, ⟨hustage, hustatus, hupc, -⟩, humem, hug, hucop, -⟩ := exec_spec i hj (s.setCop .null)
  have hseen : copAtWrite i.variant (templateOf i) (operationOf i) s =
      .attached ([.receiveData (dataOf i.variant (templateOf i) (operationOf i) s), .memory, .execute,
        .decode (readReg (templateOf i).regWidth s (Enc.rt (encode i))), .fetch (encode i)] ++ seen) := by
    rw [copAtWrite, hcop]
    rfl
  refine ⟨t, u, _, dataOf i.variant (templateOf i) (operationOf i) s, ht, hu, control_variant i hj,
    htpc.trans hupc.symm, ?_, htstatus.trans hustatus.symm, htstage.trans hustage.symm, hucop, fun r hr => ?_, ?_,
    fun dst hdst hne => ⟨?_, ?_⟩⟩
  · rw [htmem, humem, storeValue_mem_of_mem_eq (s := s) (t := s.setCop .null) rfl rfl]
    rfl
  · rw [htg r, hug r, if_neg fun h => hr h.1, if_neg fun h => hr h.1]
    rfl
  · rw [htcop, hseen]
    rfl
  · rw [hug dst, if_pos ⟨hdst, hne⟩, dataOf_setCop]
    rfl
  · rw [htg dst, if_pos ⟨hdst, hne⟩, hseen]
    rfl

theorem tradStep_cop (s : State) : (tradStep s).1.cop = s.cop := by
  obtain ht | ⟨-, ht | ⟨u, hu, ht⟩⟩ := tradStep_cases s <;> rw [ht]
  · rfl
  · obtain ⟨d, v, rfl⟩ | ⟨m, rfl, -⟩ := hu
    · exact setGpr_cop d v _
    · rfl

/-- Outside the pipeline no operation calls a hook (R195, R303). -/
theorem outsidePipeline_cop {s u : State} (hu : OutsidePipeline s u) : u.cop = s.cop := by
  obtain rfl | rfl | ⟨words, rfl⟩ := hu
  · exact tradStep_cop s
  · rfl
  · obtain ⟨m, hm, -⟩ := storeWords_eq_setMem words 4 s
    rw [loadInstructions, hm]; rfl

/-- R196: a step keeps the null coprocessor, whatever the host calls. -/
theorem step_keeps_null {s t : State} (hnull : s.cop = .null) (h : step s = .next t) : t.cop = .null := by
  obtain ⟨cs, ⟨-, n, -, hstep⟩ | ⟨u, r, hu, hstep⟩⟩ := step_cases (step_running h) <;> rw [hstep] at h
  · exact runStages_keeps (P := fun u => u.cop = .null) (fun _ _ hu huv => (executeStage_effect huv).null hu) n
      (s := s.setCalls cs) hnull h
  · cases h
    exact (outsidePipeline_cop hu).trans hnull

/-- Settles O41: each hook and output of the null coprocessor is one branch, and every step keeps it. -/
theorem nullCoprocessor : Obligations.NullCoprocessor :=
  ⟨fun _ => rfl, rfl, rfl, rfl, fun _ _ => step_keeps_null⟩

end Sys2Proof.Machine
end

section
/-! PROOFS. The register-register integer family (43_integer_rtype.md). First what every instruction but J and JAL leaves
unchanged; then one rule for all the instructions whose bundle is RegisterRegister, of which each result statement is a
use at its ALU operation. -/

namespace Sys2Proof.Machine

/-! ### The frame of an instruction -/

/-- R196: the null coprocessor sees none of the calls before the register write. -/
theorem copAtWrite_null (v : Variant) (c : Ctrl) (a : AluControl) {s : State} (h : s.cop = .null) :
    copAtWrite v c a s = .null := by
  simp only [copAtWrite, h, Cop.see_null]

/-- R45: where memory is as the instruction's store leaves it, no other byte has changed. -/
theorem keepsMemory_of_mem_eq {i : Instr} {s t : State} {v : Dword}
    (h : t.mem = if (templateOf i).memWrite then (storeValue (templateOf i).regWidth (resultOf i.variant (templateOf i)
      (operationOf i) s) v s).mem else s.mem) : KeepsMemory i s t := by
  unfold KeepsMemory
  rw [← storeTarget_eq]
  cases hw : (templateOf i).memWrite <;> simp only [hw, Bool.false_eq_true, if_false, if_true] at h ⊢
  · exact fun _ => by rw [h]
  · exact fun a ha => by rw [h, storeValue_keeps _ _ _ _ _ ha]

/-- Settles O25: the frame read off the whole effect of an instruction, which names its destination and its store. -/
theorem everyInstructionCompletes : Obligations.EveryInstructionCompletes := by
  intro i s hj
  obtain ⟨t, ht, hcompletes, hmem, hgpr, hcop, -⟩ := exec_spec i hj s
  refine ⟨t, ht, hcompletes, fun r hr => ?_, keepsMemory_of_mem_eq hmem, fun hnull => ?_⟩
  · rw [hgpr r, if_neg fun h => hr h.1]
  · rw [hcop, copAtWrite_null _ _ _ hnull, Cop.see_null]

/-! ### One rule for the RegisterRegister bundle -/

/-- R142, R176: an operation of a width gives the same on registers read at that width as on whole registers. -/
theorem alu_readReg (ctl : AluControl) (width : RegWidth) (s : State) (r1 r2 : RegIdx) :
    alu ctl width (readReg width s r1) (readReg width s r2) = alu ctl width (gpr s r1) (gpr s r2) := by
  cases width with
  | word => exact alu_word_congr (readReg_lo s .word r1) (readReg_lo s .word r2)
  | doubleWord => rfl

section
variable {i : Instr} {op : BitVec 6} {rs rt rd shamt : RegIdx} {funct : BitVec 6} {width : RegWidth}

theorem encodesR_of_variant (hv : i.variant = .rType op rs rt rd shamt funct) : EncodesR i op rs rt rd shamt funct :=
  ⟨congrArg Variant.word hv, decode_encode i⟩

theorem not_isJump_of_rType (hv : i.variant = .rType op rs rt rd shamt funct) : ¬ isJump i := by
  rintro ⟨_, _, hjump⟩
  rw [hv] at hjump
  cases hjump

theorem signals_of_template (hj : ¬ isJump i) (ht : (templateOf i).regWidth = width) : Signals i width (operationOf i) :=
  ⟨_, control_variant i hj, ht, rfl⟩

theorem destination_of_registerRegister (hv : i.variant = .rType op rs rt rd shamt funct)
    (ht : templateOf i = registerRegister width) : destination i = some rd := by
  rw [← templateOf_destination, ht, encode, hv]
  simp only [registerRegister, if_true, dstField, rd_word_rType]

theorem resultOf_registerRegister (a : AluControl) (s : State) :
    resultOf (.rType op rs rt rd shamt funct) (registerRegister width) a s = alu a width (gpr s rs) (gpr s rt) := by
  rw [← alu_readReg]
  simp only [resultOf, registerRegister, defaultBundle, op2Value, rs_word_rType, rt_word_rType]

/-- R210: an instruction with the RegisterRegister bundle has the word of its fields and the signals of its row, and
retires with its ALU operation on x[rs] and x[rt] in x[rd]. -/
theorem registerRegister_rule {s : State} {v : Dword} (hv : i.variant = .rType op rs rt rd shamt funct)
    (ht : templateOf i = registerRegister width) (hnull : s.cop = .null)
    (hresult : alu (operationOf i) width (gpr s rs) (gpr s rt) = v) :
    EncodesR i op rs rt rd shamt funct ∧ Signals i width (operationOf i) ∧ Retires i s rd v := by
  refine ⟨encodesR_of_variant hv, signals_of_template (not_isJump_of_rType hv) (by rw [ht]; rfl), ?_⟩
  refine retires_alu i s hnull rd v (fun _ _ h => not_isJump_of_rType hv ⟨_, _, h⟩)
    (destination_of_registerRegister hv ht) (by rw [ht]; rfl) (by rw [ht]; rfl) ?_
  rw [hv, ht, resultOf_registerRegister, hresult]

end

/-! ### The results -/

theorem alu_addition_doubleWord (a b : Dword) : alu .addition .doubleWord a b = a + b := BitVec.setWidth_eq _

theorem alu_subtraction_doubleWord (a b : Dword) : alu .subtraction .doubleWord a b = a - b := BitVec.setWidth_eq _

theorem alu_and_doubleWord (a b : Dword) : alu .and .doubleWord a b = a &&& b := BitVec.setWidth_eq _

theorem alu_or_doubleWord (a b : Dword) : alu .or .doubleWord a b = a ||| b := BitVec.setWidth_eq _

theorem alu_setOnLessThanSigned_doubleWord (a b : Dword) :
    alu .setOnLessThanSigned .doubleWord a b = if a.toInt < b.toInt then 1#64 else 0#64 := lessSigned_eq a b

theorem alu_setOnLessThanUnsigned_doubleWord (a b : Dword) :
    alu .setOnLessThanUnsigned .doubleWord a b = if a.toNat < b.toNat then 1#64 else 0#64 := lessUnsigned_eq a b

/-- Settles O26: the RegisterRegister rule at the Word sum and difference. -/
theorem addAndSub : Obligations.AddAndSub := fun _ _ _ _ _ hnull =>
  ⟨⟨fun _ _ _ => rfl, registerRegister_rule rfl rfl hnull (alu_addition_word ..)⟩,
    ⟨fun _ _ _ => rfl, registerRegister_rule rfl rfl hnull (alu_subtraction_word ..)⟩⟩

/-- Settles O27: the RegisterRegister rule at the four 64-bit operations. -/
theorem logicAndCompare : Obligations.LogicAndCompare := fun _ _ _ _ _ hnull =>
  ⟨⟨fun _ _ _ => rfl, registerRegister_rule rfl rfl hnull (alu_and_doubleWord ..)⟩,
    ⟨fun _ _ _ => rfl, registerRegister_rule rfl rfl hnull (alu_or_doubleWord ..)⟩,
    ⟨fun _ _ _ => rfl, registerRegister_rule rfl rfl hnull (alu_setOnLessThanSigned_doubleWord ..)⟩,
    ⟨fun _ _ _ => rfl, registerRegister_rule rfl rfl hnull (alu_setOnLessThanUnsigned_doubleWord ..)⟩⟩

/-- Settles O28: the RegisterRegister rule at the 64-bit sum and difference. -/
theorem daddAndDsub : Obligations.DaddAndDsub := fun _ _ _ _ _ hnull =>
  ⟨⟨fun _ _ _ => rfl, registerRegister_rule rfl rfl hnull (alu_addition_doubleWord ..)⟩,
    ⟨fun _ _ _ => rfl, registerRegister_rule rfl rfl hnull (alu_subtraction_doubleWord ..)⟩⟩

end Sys2Proof.Machine
end

section
/-! PROOFS. The multiply and divide family (44_muldiv.md). The quotients in the form the statements give them; then each
statement as the RegisterRegister rule at its ALU operations. -/

namespace Sys2Proof.Machine

/-! ### Products and quotients -/

/-- R151: the exact products of the signed and of the unsigned readings agree modulo 2^n. -/
theorem ofInt_toInt_mul_eq_ofNat_toNat_mul {n : Nat} (a b : BitVec n) :
    BitVec.ofInt n (a.toInt * b.toInt) = BitVec.ofNat n (a.toNat * b.toNat) :=
  (ofInt_toInt_mul_toInt a b).trans (ofNat_toNat_mul_toNat a b).symm

/-- R143: the sign extension of a value that is 0 in one case is taken in the other case alone. -/
theorem sext32_ite_zero (p : Prop) [Decidable p] (q : Word) :
    sext32 (if p then 0#32 else q) = if p then 0#64 else sext32 q := apply_ite ..

theorem sext32_quotientSigned (a b : Word) :
    sext32 (quotientSigned a b) = if b = 0#32 then 0#64 else sext32 (BitVec.ofInt 32 (Int.tdiv a.toInt b.toInt)) :=
  sext32_ite_zero ..

theorem sext32_quotientUnsigned (a b : Word) :
    sext32 (quotientUnsigned a b) = if b = 0#32 then 0#64 else sext32 (BitVec.ofNat 32 (a.toNat / b.toNat)) :=
  sext32_ite_zero ..

/-! ### The results -/

/-- Settles O29: the RegisterRegister rule at the two Word products, whose low words agree. -/
theorem mulAndMulu : Obligations.MulAndMulu := fun _ _ _ _ hnull =>
  ⟨⟨fun _ _ _ => rfl, registerRegister_rule rfl rfl hnull (alu_multiplicationSigned_word ..)⟩,
    ⟨fun _ _ _ => rfl, registerRegister_rule rfl rfl hnull (alu_multiplicationUnsigned_word ..)⟩,
    ofInt_toInt_mul_eq_ofNat_toNat_mul ..⟩

/-- Settles O30: the RegisterRegister rule at the two Word quotients. -/
theorem divAndDivu : Obligations.DivAndDivu := fun _ _ _ _ hnull =>
  ⟨⟨fun _ _ _ => rfl,
      registerRegister_rule rfl rfl hnull ((alu_divisionSigned_word ..).trans (sext32_quotientSigned ..))⟩,
    ⟨fun _ _ _ => rfl,
      registerRegister_rule rfl rfl hnull ((alu_divisionUnsigned_word ..).trans (sext32_quotientUnsigned ..))⟩⟩

/-- Settles O31: the RegisterRegister rule at the two 64-bit products, which agree; the ALU's raw product is the
statement's by definition. -/
theorem dmulAndDmulu : Obligations.DmulAndDmulu := fun _ _ _ _ hnull =>
  ⟨⟨fun _ _ _ => rfl, registerRegister_rule rfl rfl hnull (alu_doubleWord .multiplicationSigned ..)⟩,
    ⟨fun _ _ _ => rfl, registerRegister_rule rfl rfl hnull (alu_doubleWord .multiplicationUnsigned ..)⟩,
    ofInt_toInt_mul_eq_ofNat_toNat_mul ..⟩

/-- Settles O32: the RegisterRegister rule at the two 64-bit quotients, whose definition is the statement's. -/
theorem ddivAndDdivu : Obligations.DdivAndDdivu := fun _ _ _ _ hnull =>
  ⟨⟨fun _ _ _ => rfl, registerRegister_rule rfl rfl hnull (alu_divisionSigned_doubleWord ..)⟩,
    ⟨fun _ _ _ => rfl, registerRegister_rule rfl rfl hnull (alu_divisionUnsigned_doubleWord ..)⟩⟩

end Sys2Proof.Machine
end

section
/-! PROOFS. The immediate-arithmetic family (45_immediate.md). Operand 2 as the immediate alone; one rule for the
instructions that retire with an ALU operation on it; then the bits of the immediate that reach each result. -/

namespace Sys2Proof.Machine

/-! ### One rule for an operation on the immediate -/

/-- R141: the sign-extended immediate is shifted as the bundle says, whatever the second register read. -/
theorem op2Value_of_signExtended {c : Ctrl} (h : c.aluSrc = .signExtendedImmediate) (op : BitVec 6) (rs rt : RegIdx)
    (imm : BitVec 16) (v2 : Dword) :
    op2Value c (Variant.word (.iType op rs rt imm)) v2 = sext16 imm <<< shiftOf c.immShift := by
  rw [op2Value, h, imm_word_iType]

/-- R141: the zero-extended immediate is never shifted. -/
theorem op2Value_of_zeroExtended {c : Ctrl} (h : c.aluSrc = .zeroExtendedImmediate) (op : BitVec 6) (rs rt : RegIdx)
    (imm : BitVec 16) (v2 : Dword) : op2Value c (Variant.word (.iType op rs rt imm)) v2 = zext16 imm := by
  rw [op2Value, h, imm_word_iType]

/-- R142, R176: an operation of a width gives the same on its first register read at that width as on the whole
register. -/
theorem alu_readReg_left (ctl : AluControl) (width : RegWidth) (s : State) (r : RegIdx) (b : Dword) :
    alu ctl width (readReg width s r) b = alu ctl width (gpr s r) b := by
  cases width with
  | word => exact alu_word_congr (readReg_lo s .word r) rfl
  | doubleWord => rfl

section
variable {i : Instr} {op : BitVec 6} {rs rt : RegIdx} {imm : BitVec 16} {operand : Dword}

theorem encodesI_of_variant (hv : i.variant = .iType op rs rt imm) : EncodesI i op rs rt imm :=
  ⟨congrArg Variant.word hv, decode_encode i⟩

theorem variant_ne_jType_of_iType (hv : i.variant = .iType op rs rt imm) (jop : BitVec 6) (target : BitVec 26) :
    i.variant ≠ .jType jop target := fun h => nomatch hv.symm.trans h

/-- R177: where operand 2 does not depend on the second register, the ALU result is an operation on x[rs] and it. -/
theorem resultOf_of_op2Value {c : Ctrl} (hop : ∀ v2, op2Value c (Variant.word (.iType op rs rt imm)) v2 = operand)
    (a : AluControl) (s : State) :
    resultOf (.iType op rs rt imm) c a s = alu a c.regWidth (gpr s rs) operand := by
  rw [resultOf, hop, rs_word_iType, alu_readReg_left]

/-- R250: an instruction that neither loads nor stores, of an operand 2 that the second register does not enter, has
the word of its fields and the signals of its row, and retires with its ALU operation on x[rs] and that operand. -/
theorem immediate_rule {dst : RegIdx} {s : State} {v : Dword} (hv : i.variant = .iType op rs rt imm)
    (hd : destination i = some dst) (hwrite : (templateOf i).memWrite = false)
    (hsrc : (templateOf i).memToReg = .useAlu)
    (hop : ∀ v2, op2Value (templateOf i) (Variant.word (.iType op rs rt imm)) v2 = operand) (hnull : s.cop = .null)
    (hresult : alu (operationOf i) (templateOf i).regWidth (gpr s rs) operand = v) :
    EncodesI i op rs rt imm ∧ Signals i (templateOf i).regWidth (operationOf i) ∧ Retires i s dst v := by
  have hne := variant_ne_jType_of_iType hv
  refine ⟨encodesI_of_variant hv, signals_of_template (not_isJump_of hne) rfl,
    retires_alu i s hnull dst v hne hd hwrite hsrc ?_⟩
  rw [hv, resultOf_of_op2Value hop, hresult]

end

/-! ### The bits of a shifted immediate -/

/-- R252, R254: what the sign extension adds lies at bit 16 and above, so below bit 16 + n of the shifted immediate only
its own bits are left. -/
theorem setWidth_sext16_shiftLeft (imm : BitVec 16) {k n : Nat} (hk : k ≤ 64) (hn : k ≤ 16 + n) :
    (sext16 imm <<< n).setWidth k = imm.setWidth k <<< n := by
  rw [BitVec.setWidth_shiftLeft_of_le hk]
  apply BitVec.eq_of_getLsbD_eq
  intro j hj
  have hbit : j < n ∨ j - n < 16 ∧ j - n < 64 := by omega
  simp only [sext16, BitVec.getLsbD_shiftLeft, BitVec.getLsbD_setWidth, BitVec.getLsbD_signExtend]
  obtain hzero | hown := hbit
  · simp [hzero]
  · simp [hown]

/-- R253, R254: adding a value shifted left by n changes none of the low n bits. -/
theorem setWidth_add_shiftLeft {w n : Nat} (hn : n ≤ w) (x y : BitVec w) :
    (x + y <<< n).setWidth n = x.setWidth n := by
  rw [BitVec.setWidth_add _ _ hn, BitVec.setWidth_shiftLeft_of_le hn, BitVec.shiftLeft_eq_zero le_rfl, BitVec.add_zero]

/-- R252: at Word width the sign extension of AUI's immediate is shifted out. -/
theorem alu_addition_word_sext16_shiftLeft (a : Dword) (imm : BitVec 16) :
    alu .addition .word a (sext16 imm <<< 16) = sext32 (lo32 a + imm.setWidth 32 <<< 16) := by
  rw [alu_addition_word]
  exact congrArg (fun b => sext32 (lo32 a + b)) (setWidth_sext16_shiftLeft imm (by decide) (by decide))

/-- R254: a shift by 48 leaves the immediate's own bits alone, at the top of the word. -/
theorem sext16_shiftLeft_48 (imm : BitVec 16) : sext16 imm <<< 48 = imm.setWidth 64 <<< 48 :=
  (BitVec.setWidth_eq _).symm.trans (setWidth_sext16_shiftLeft imm (by decide) (by decide))

/-! ### The results -/

/-- Settles O33: the rule at the 64-bit OR of the zero-extended immediate and at the Word sum of the shifted one. -/
theorem oriAndAui : Obligations.OriAndAui := fun _ _ imm _ hnull =>
  ⟨⟨fun _ _ _ => rfl,
      immediate_rule rfl rfl rfl rfl (op2Value_of_zeroExtended rfl _ _ _ imm) hnull (alu_or_doubleWord ..)⟩,
    ⟨fun _ _ _ => rfl, fun _ _ => rfl,
      immediate_rule rfl rfl rfl rfl (op2Value_of_signExtended rfl _ _ _ imm) hnull
        (alu_addition_word_sext16_shiftLeft ..)⟩⟩

/-- Settles O34: the rule at the 64-bit sums, whose second term is 0 in the bits below the shift. -/
theorem dahiAndDati : Obligations.DahiAndDati := by
  intro rs imm s hnull
  obtain ⟨hdahi, hdahiSignals, hdahiRetires⟩ := immediate_rule (i := .dahi rs imm) rfl rfl rfl rfl
    (op2Value_of_signExtended rfl _ _ _ imm) hnull (alu_addition_doubleWord ..)
  obtain ⟨hdati, hdatiSignals, hdatiRetires⟩ := immediate_rule (i := .dati rs imm) rfl rfl rfl rfl
    (fun v2 => (op2Value_of_signExtended rfl _ _ _ imm v2).trans (sext16_shiftLeft_48 imm)) hnull
    (alu_addition_doubleWord ..)
  exact ⟨⟨fun _ _ => rfl, hdahi, hdahiSignals, hdahiRetires, setWidth_add_shiftLeft (by decide) _ _⟩,
    ⟨fun _ _ => rfl, hdati, hdatiSignals, hdatiRetires, setWidth_add_shiftLeft (by decide) _ _⟩⟩

end Sys2Proof.Machine
end

section
/-! PROOFS. The load and store family (46_loadstore.md). One rule for the instructions that retire with a loaded value
and one for those that complete with a store; each statement is a use of one of them. -/

namespace Sys2Proof.Machine

/-! ### Loads -/

/-- R179, R182: the conversion at WB of a loaded word is its sign extension, and of a failed load 0. -/
theorem narrow_loadValue_word (ea : Dword) (s : State) : narrow .word (loadValue .word ea s) =
    if memOk s.cfg ea.toNat 4 = true then sext32 (readWord s.mem ea.toNat) else 0#64 := by
  have hzero : narrow .word 0#64 = 0#64 := by decide
  rw [loadValue_eq, apply_ite (narrow .word), narrow_word_zext32, hzero]
  rfl

/-- R179: a doubleword needs no conversion. -/
theorem narrow_loadValue_doubleWord (ea : Dword) (s : State) : narrow .doubleWord (loadValue .doubleWord ea s) =
    if memOk s.cfg ea.toNat 8 = true then readDword s.mem ea.toNat else 0#64 := loadValue_eq .doubleWord ea s

section
variable {i : Instr} {op : BitVec 6} {rs rt : RegIdx} {imm : BitVec 16} {s : State} {ea : Dword}

/-- R270: where operand 2 is the sign-extended immediate, unshifted, the ALU result is an operation on x[rs] and it. -/
theorem resultOf_of_signExtended {c : Ctrl} (hsrc : c.aluSrc = .signExtendedImmediate) (hshift : c.immShift = .shift0)
    (a : AluControl) (s : State) :
    resultOf (.iType op rs rt imm) c a s = alu a c.regWidth (gpr s rs) (sext16 imm) := by
  refine resultOf_of_op2Value (fun v2 => ?_) a s
  rw [op2Value_of_signExtended hsrc, hshift]
  exact BitVec.shiftLeft_zero _

/-- R271, R273: an instruction with a load's bundle has the word of its fields and the signals of its row, and retires
with the value loaded at its effective address, converted to its width, in x[rt]. -/
theorem load_rule {v : Dword} (hv : i.variant = .iType op rs rt imm) (hd : destination i = some rt)
    (hwrite : (templateOf i).memWrite = false) (hmem : (templateOf i).memToReg = .useMemory)
    (hsrc : (templateOf i).aluSrc = .signExtendedImmediate) (hshift : (templateOf i).immShift = .shift0)
    (hnull : s.cop = .null) (hea : alu (operationOf i) (templateOf i).regWidth (gpr s rs) (sext16 imm) = ea)
    (hvalue : narrow (templateOf i).regWidth (loadValue (templateOf i).regWidth ea s) = v) :
    EncodesI i op rs rt imm ∧ Signals i (templateOf i).regWidth (operationOf i) ∧ Retires i s rt v := by
  have hj := not_isJump_of (variant_ne_jType_of_iType hv)
  refine ⟨encodesI_of_variant hv, signals_of_template hj rfl, retires i hj s hnull rt v hd hwrite ?_⟩
  rw [dataOf, hmem, hv, resultOf_of_signExtended hsrc hshift, hea]
  exact hvalue

/-! ### Stores -/

/-- R66: an instruction without a destination writes no register. -/
theorem sameGprs_of_destination_eq_none {t : State} (hj : ¬ isJump i) (hd : destination i = none)
    (ht : exec i s = .next t) : SameGprs s t := by
  obtain ⟨u, hu, -, hgpr, -⟩ := everyInstructionCompletes i s hj
  obtain rfl : t = u := Host.Outcome.next.inj (ht.symm.trans hu)
  exact fun r => hgpr r (by rw [hd]; nofun)

/-- R272, R274: an instruction that completes with a store and has no destination has the word of its fields and the
signals of its row, writes no register, and changes no byte but those it stores; where memory refuses the access it
changes none (D13). -/
theorem store_rule {bytes : List Byte} {byte : Nat → Byte} (hv : i.variant = .iType op rs rt imm)
    (hd : destination i = none) (hm : Memory.wf s.mem)
    (hbytes : ∀ k (hk : k < bytes.length), bytes[k] = byte k)
    (hexec : ∃ t, exec i s = .next t ∧ Completes s t ∧ t.mem =
      if memOk s.cfg ea.toNat bytes.length = true then writeBytes s.mem ea.toNat bytes else s.mem) :
    EncodesI i op rs rt imm ∧ Signals i (templateOf i).regWidth (operationOf i) ∧
    ∃ t, exec i s = .next t ∧ Completes s t ∧ SameGprs s t ∧
      if memOk s.cfg ea.toNat bytes.length = true then
        (∀ k < bytes.length, readByte t.mem (ea.toNat + k) = byte k) ∧ SameOutside s t ea.toNat bytes.length
      else SameMemory s t := by
  have hj := not_isJump_of (variant_ne_jType_of_iType hv)
  obtain ⟨t, ht, hcompletes, hmem⟩ := hexec
  refine ⟨encodesI_of_variant hv, signals_of_template hj rfl, t, ht, hcompletes,
    sameGprs_of_destination_eq_none hj hd ht, ?_⟩
  split
  next hok =>
    rw [if_pos hok] at hmem
    refine ⟨fun k hk => ?_, fun a ha => ?_⟩
    · rw [hmem, readByte_writeBytes hm _ hk, hbytes k hk]
    · rw [hmem, readByte_writeBytes_outside ha]
  next hfail =>
    rw [if_neg hfail] at hmem
    exact fun _ => by rw [hmem]

end

/-- R272, D36: the bytes SW stores are the low four of the register. -/
theorem wordBytes_lo32_get (v : Dword) (k : Nat) (hk : k < (wordBytes (lo32 v)).length) :
    (wordBytes (lo32 v))[k] = v.extractLsb' (24 - 8 * k) 8 := by
  rw [wordBytes_get, lo32_eq_extractLsb', extractLsb'_extractLsb'_of_add_le v (by omega), Nat.zero_add]

/-! ### The results -/

/-- Settles O35: the rule for a load at the Word and at the 64-bit address. -/
theorem loads : Obligations.Loads := fun _ _ _ _ hnull =>
  ⟨⟨fun _ _ _ => rfl,
      load_rule rfl rfl rfl rfl rfl rfl hnull (alu_addition_word ..) (narrow_loadValue_word ..)⟩,
    ⟨fun _ _ _ => rfl,
      load_rule rfl rfl rfl rfl rfl rfl hnull (alu_addition_doubleWord ..) (narrow_loadValue_doubleWord ..)⟩⟩

/-- Settles O36: the rule for a store at the four bytes SW leaves. -/
theorem storeWordForm : Obligations.StoreWordForm := fun _ _ _ _ hm =>
  ⟨fun _ _ _ => rfl, store_rule rfl rfl hm (wordBytes_lo32_get _) (exec_sw ..)⟩

/-- Settles O37: the rule for a store at the eight bytes SD leaves. -/
theorem storeDoubleForm : Obligations.StoreDoubleForm := fun _ _ _ _ hm =>
  ⟨fun _ _ _ => rfl, store_rule rfl rfl hm (dwordBytes_get _) (exec_sd ..)⟩

end Sys2Proof.Machine
end

section
/-! PROOFS. The coprocessor and jump family (47_coprocessor_jtype.md). What TradCore leaves on a word it does not support;
then what COP1 shows to the hooks, and one rule for the two jumps. -/

namespace Sys2Proof.Machine

/-! ### TradCore on an unsupported word -/

/-- R300, R304: clearing the latches changes nothing that an unsupported word must leave. -/
theorem tradUnsupported_of_tradStep {s : State} {word : Word}
    (h : tradStep s = (clearLatches s, unsupportedWord word)) : TradUnsupported s word :=
  ⟨clearLatches s, h, rfl, rfl, rfl, rfl, rfl, rfl, rfl, rfl, rfl⟩

/-- R304: TradCore does not support the word of an instruction to which it gives no effect. -/
theorem tradUnsupported_of_encode {i : Instr} {s : State} (hs : s.stage = .instructionFetch)
    (hf : fetchWord s = encode i) (hi : ∀ u, tradEffect i u = none) : TradUnsupported s (fetchWord s) := by
  have hd : decode (fetchWord s) = .ok i := by rw [hf, decode_encode]
  apply tradUnsupported_of_tradStep
  simp only [tradStep, hs, tradOnWord, hd, hi]

/-! ### COP1 -/

/-- R63, R70: the opcode alone makes a word COP1, whatever its other bits. -/
theorem decode_of_opcode_eq_opCop1 {word : Word} (h : Enc.opcode word = Enc.opCop1) : decode word =
    .ok (.cop1 (Enc.rs word) (Enc.rt word) (Enc.rd word) (Enc.shamt word) (Enc.funct word)) := by
  rw [← decode_encode, encode, Instr.variant, ← h, word_fpuRType_fields]

section
variable (fmt ft fs fd : RegIdx) (function : BitVec 6)

/-- R80: the register numbers of the sum are the bits of fmt and ft. -/
theorem dataOf_cop1 (op : BitVec 6) (s : State) :
    dataOf (.fpuRType op fmt ft fs fd function) coprocessorOnly .addition s = gpr s fmt + gpr s ft := by
  simp only [dataOf, resultOf, coprocessorOnly, defaultBundle, op2Value, rs_word_fpuRType, rt_word_fpuRType]
  exact alu_addition_doubleWord ..

/-- R195: the hook calls up to the register write, with the values COP1 shows in them. -/
theorem copAtWrite_cop1 (op : BitVec 6) (s : State) :
    copAtWrite (.fpuRType op fmt ft fs fd function) coprocessorOnly .addition s =
      ((((s.cop.see (.fetch (Variant.word (.fpuRType op fmt ft fs fd function)))).see (.decode (gpr s ft))).see
        .execute).see .memory).see (.receiveData (gpr s fmt + gpr s ft)) := by
  rw [copAtWrite, dataOf_cop1, rt_word_fpuRType]
  rfl

/-- R291: the CoprocessorOnly bundle neither stores nor writes a register, under any coprocessor. -/
theorem exec_cop1 (s : State) : ∃ t, exec (.cop1 fmt ft fs fd function) s = .next t ∧ Completes s t ∧ SameGprs s t ∧
    SameMemory s t ∧ t.cop = (copAtWrite (.fpuRType Enc.opCop1 fmt ft fs fd function) coprocessorOnly .addition s).see
      .writeback := by
  have hj : ¬ isJump (.cop1 fmt ft fs fd function) := not_isJump_of nofun
  obtain ⟨t, ht, hcompletes, hmem, -, hcop, -⟩ := exec_spec _ hj s
  exact ⟨t, ht, hcompletes, sameGprs_of_destination_eq_none hj rfl ht, fun a => congrArg (readByte · a) hmem, hcop⟩

end

/-- Settles O38: a COP1 word is one by its opcode, and the instruction's whole effect is its hook calls. -/
theorem cop1PassesThrough : Obligations.Cop1PassesThrough := by
  intro fmt ft fs fd function s
  obtain ⟨t, ht, hcompletes, hgprs, hmem, hcop⟩ := exec_cop1 fmt ft fs fd function s
  rw [copAtWrite_cop1] at hcop
  exact ⟨⟨rfl, decode_encode _⟩, fun _ hop => ⟨_, _, _, _, _, decode_of_opcode_eq_opCop1 hop⟩,
    ⟨_, control_variant _ (not_isJump_of nofun), rfl, rfl, rfl, rfl, rfl, rfl⟩,
    ⟨t, ht, hcompletes, hgprs, hmem, hcop⟩, fun hs hf => tradUnsupported_of_encode hs hf fun _ => rfl⟩

/-! ### J and JAL -/

/-- R302: TradCore gives no jump an effect. -/
theorem tradEffect_of_isJump {i : Instr} (h : isJump i) (s : State) : tradEffect i s = none := by
  obtain ⟨op, target, hv⟩ := h
  cases i with
  | j target => rfl
  | jal target => rfl
  | _ => cases hv

/-- R293: an instruction of J format has the word of its two fields, raises Fatal kind 5 in ID with nothing
architectural changed, and is unsupported under TradCore. -/
theorem jump_rule {i : Instr} {op : BitVec 6} {target : BitVec 26} (hv : i.variant = .jType op target) (s : State) :
    (encode i = (op ++ target).cast rfl ∧ decode (encode i) = .ok i) ∧
    (∃ t, exec i s = .next t ∧ t.status = .fatal (.controlJType op) ∧ t.stage = .instructionDecode ∧ t.pc = s.pc ∧
      SameGprs s t ∧ SameMemory s t ∧ SameSession s t ∧ t.cop = s.cop.see (.fetch (encode i))) ∧
    (s.stage = .instructionFetch → fetchWord s = encode i → TradUnsupported s (fetchWord s)) := by
  obtain ⟨t, ht, hstatus, hstage, hpc, hx, hmem, hsession, hcop⟩ := exec_jump_next i op target hv s
  refine ⟨⟨congrArg Variant.word hv, decode_encode i⟩,
    ⟨t, ht, hstatus, hstage, hpc, gpr_of_x_eq hx, fun a => by rw [hmem], hsession, hcop⟩, fun hs hf => ?_⟩
  exact tradUnsupported_of_encode hs hf (tradEffect_of_isJump ⟨op, target, hv⟩)

/-- Settles O39: the rule for a jump at the opcodes of J and of JAL. -/
theorem jumpsRaiseFatal : Obligations.JumpsRaiseFatal := by
  intro target s i op h
  obtain h | h := h <;> cases h <;> exact jump_rule rfl s

end Sys2Proof.Machine
end

section
/-! PROOFS. The TradCore and reset families (48_trad_core.md, 70_reset_and_hazards.md). Which words TradCore supports, by
the decoder; its effect against the pipeline's, by the rules of the bundles; then the memory and registers of a launch. -/

namespace Sys2Proof.Machine

/-! ### The supported words -/

/-- R302: every word of the supported ranges lies in a row of the opcode table. -/
theorem exists_row_of_tradSupportedWord {word : Word} (h : tradSupportedWord word) : ∃ p ∈ rows, InRow word p := by
  have hspecial : ∀ fn ∈ [Enc.fnAdd, Enc.fnSub, Enc.fnDadd, Enc.fnDsub], ∃ p ∈ rows, p = rowSpecial p.mnemonic fn := by
    decide
  have hsop : ∀ fn ∈ Enc.sopFuncts, ∃ p ∈ rows, p = rowSop p.mnemonic fn := by decide
  have hopcode : ∀ op ∈ [Enc.opOri, Enc.opLw, Enc.opSw], ∃ p ∈ rows, p = rowOpcode p.mnemonic op := by decide
  obtain ⟨hop, hfn⟩ | ⟨hop, hfn, hshamt⟩ | hop := h
  · obtain ⟨p, hp, hrow⟩ := hspecial _ hfn
    exact ⟨p, hp, hrow ▸ (special_row_iff ..).2 ⟨hop, rfl⟩⟩
  · obtain ⟨p, hp, hrow⟩ := hsop _ hfn
    exact ⟨p, hp, hrow ▸ (sop_row_iff ..).2 ⟨hop, hshamt, rfl⟩⟩
  · obtain ⟨p, hp, hrow⟩ := hopcode _ hop
    exact ⟨p, hp, hrow ▸ (opcode_row_iff ..).2 rfl⟩

theorem tradSupportedWord_encode (i : Instr) : tradSupportedWord (encode i) ↔ tradSupported i = true := by
  cases i <;> simp +decide [tradSupportedWord, tradSupported, encode, Instr.variant]

/-- R302: the supported words are the words of the supported instructions. -/
theorem tradSupportedWord_iff {word : Word} :
    tradSupportedWord word ↔ ∃ i, decode word = .ok i ∧ tradSupported i = true := by
  constructor
  · intro h
    obtain ⟨p, hp, hrow⟩ := exists_row_of_tradSupportedWord h
    obtain ⟨i, hi, -⟩ := rows_decode p hp word hrow
    exact ⟨i, hi, by rwa [← tradSupportedWord_encode, encode_of_decode hi]⟩
  · rintro ⟨i, hi, hsupported⟩
    rwa [← encode_of_decode hi, tradSupportedWord_encode]

/-- R301: TradCore has an effect for the supported instructions and no other. -/
theorem tradEffect_isSome (i : Instr) (s : State) : (tradEffect i s).isSome = tradSupported i := by cases i <;> rfl

/-! ### A step on an unsupported word, and in mid-instruction -/

theorem tradStep_of_not_tradSupportedWord {s : State} (hs : s.stage = .instructionFetch)
    (h : ¬ tradSupportedWord (fetchWord s)) : tradStep s = (clearLatches s, unsupportedWord (fetchWord s)) := by
  simp only [tradStep, hs, tradOnWord]
  cases hd : decode (fetchWord s) with
  | error info => rfl
  | ok i =>
    have hnone : tradEffect i (clearLatches s) = none := by
      rw [← Option.not_isSome_iff_eq_none, tradEffect_isSome]
      exact fun hi => h (tradSupportedWord_iff.2 ⟨i, hd, hi⟩)
    simp only [hnone]

/-- R305: TradCore selected in mid-instruction. -/
theorem tradStep_of_stage_ne {s : State} (hs : s.stage ≠ .instructionFetch) : tradStep s = (s, .refused) := by
  unfold tradStep
  cases h : s.stage with
  | instructionFetch => exact absurd h hs
  | _ => rfl

/-- Settles O50: an unsupported word has no effect, so only the latches are cleared; in mid-instruction nothing is. -/
theorem tradCoreRefusals : Obligations.TradCoreRefusals := by
  refine ⟨fun s hs h => tradUnsupported_of_tradStep (tradStep_of_not_tradSupportedWord hs h), fun s rest hr hs => ?_⟩
  refine ⟨tradStep_of_stage_ne hs, fun hc => ?_⟩
  rw [step_cons hr hc, hostCall, tradStep_of_stage_ne (s := s.setCalls rest) hs]

/-! ### TradCore's effect and the pipeline's -/

/-- R270: the sign extension of the offset to 64 bits adds nothing to a Word address. -/
theorem tradWordAddress_eq (s : State) (rs : RegIdx) (imm : BitVec 16) :
    tradWordAddress s rs imm = wordAddress s rs imm := by
  have hlow : lo32 (sext16 imm) = imm.signExtend 32 := lo32_ofInt imm.toInt
  rw [tradWordAddress, wordAddress, hlow]

/-- R179: a store changes no register. -/
theorem gpr_storeValue (width : RegWidth) (a v : Dword) (s : State) (r : RegIdx) :
    gpr (storeValue width a v s) r = gpr s r := by
  obtain ⟨m, hm, -⟩ := storeValue_eq_setMem width a v s
  rw [hm, gpr_setMem]

/-- R272: TradCore's SW is the pipeline's store of a word. -/
theorem tradEffect_sw (rs rt : RegIdx) (imm : BitVec 16) (s : State) :
    tradEffect (.sw rs rt imm) s = some (storeValue .word (wordAddress s rs imm) (gpr s rt) s) := by
  rw [← tradWordAddress_eq]
  rfl

/-- TradCore's `u` is one register write, which is the instruction's whole effect in the pipeline too. -/
def WritesAlike (i : Instr) (s u : State) : Prop :=
  ∃ dst v, u = setGpr dst v (clearLatches s) ∧ (templateOf i).memWrite = false ∧ Retires i s dst v

theorem writesAlike_of_registerRegister {i : Instr} {s : State} {op : BitVec 6} {rs rt rd shamt : RegIdx}
    {funct : BitVec 6} {width : RegWidth} {v : Dword} (hnull : s.cop = .null)
    (hresult : alu (operationOf i) width (gpr s rs) (gpr s rt) = v)
    (hv : i.variant = .rType op rs rt rd shamt funct := by rfl) (ht : templateOf i = registerRegister width := by rfl) :
    WritesAlike i s (setGpr rd v (clearLatches s)) := by
  obtain ⟨-, -, hretires⟩ := registerRegister_rule hv ht hnull hresult
  exact ⟨rd, v, rfl, by rw [ht]; rfl, hretires⟩

/-- R301: under the null coprocessor each supported instruction but SW writes in TradCore what it writes in the
pipeline. -/
theorem writesAlike_of_tradEffect {i : Instr} {s u : State} (hnull : s.cop = .null)
    (h : tradEffect i (clearLatches s) = some u) : WritesAlike i s u ∨ ∃ rs rt imm, i = .sw rs rt imm := by
  cases i <;> simp only [tradEffect, reduceCtorEq, Option.some.injEq] at h <;> subst h
  case sw rs rt imm => exact .inr ⟨rs, rt, imm, rfl⟩
  all_goals left
  case add => exact writesAlike_of_registerRegister hnull (alu_addition_word ..)
  case sub => exact writesAlike_of_registerRegister hnull (alu_subtraction_word ..)
  case dadd => exact writesAlike_of_registerRegister hnull (alu_addition_doubleWord ..)
  case dsub => exact writesAlike_of_registerRegister hnull (alu_subtraction_doubleWord ..)
  case mul => exact writesAlike_of_registerRegister hnull (alu_word .multiplicationSigned ..)
  case mulu => exact writesAlike_of_registerRegister hnull (alu_word .multiplicationUnsigned ..)
  case div => exact writesAlike_of_registerRegister hnull (alu_divisionSigned_word ..)
  case divu => exact writesAlike_of_registerRegister hnull (alu_divisionUnsigned_word ..)
  case dmul => exact writesAlike_of_registerRegister hnull (alu_doubleWord .multiplicationSigned ..)
  case dmulu => exact writesAlike_of_registerRegister hnull (alu_doubleWord .multiplicationUnsigned ..)
  case ddiv => exact writesAlike_of_registerRegister hnull (alu_divisionSigned_doubleWord ..)
  case ddivu => exact writesAlike_of_registerRegister hnull (alu_divisionUnsigned_doubleWord ..)
  case ori rs rt imm =>
    obtain ⟨-, -, hretires⟩ := immediate_rule (i := .ori rs rt imm) rfl rfl rfl rfl
      (op2Value_of_zeroExtended rfl _ _ _ imm) hnull (alu_or_doubleWord ..)
    exact ⟨rt, _, rfl, rfl, hretires⟩
  case lw rs rt imm =>
    obtain ⟨-, -, hretires⟩ := load_rule (i := .lw rs rt imm) rfl rfl rfl rfl rfl rfl hnull
      ((alu_addition_word ..).trans (tradWordAddress_eq s rs imm).symm) (narrow_word_zext32 _)
    exact ⟨rt, _, rfl, rfl, hretires⟩

/-- An instruction whose bundle stores nothing leaves memory as it is (R179). -/
theorem exec_mem_of_memWrite_eq_false {i : Instr} {s t : State} (hj : ¬ isJump i) (hw : (templateOf i).memWrite = false)
    (ht : exec i s = .next t) : t.mem = s.mem := by
  obtain ⟨u, hu, -, hmem, -⟩ := exec_spec i hj s
  obtain rfl : t = u := Host.Outcome.next.inj (ht.symm.trans hu)
  rw [hmem, hw, if_neg Bool.false_ne_true]

theorem not_isJump_of_tradEffect {i : Instr} {s u : State} (h : tradEffect i s = some u) : ¬ isJump i := fun hj => by
  rw [tradEffect_of_isJump hj] at h
  cases h

/-- R301, R185: under the null coprocessor a supported instruction leaves in the pipeline the registers and the memory of
TradCore's effect, and completes. -/
theorem exec_agrees_of_tradEffect {i : Instr} {s u : State} (hnull : s.cop = .null)
    (h : tradEffect i (clearLatches s) = some u) :
    ∃ t, exec i s = .next t ∧ Completes s t ∧ SameGprs t u ∧ u.mem = t.mem := by
  have hj := not_isJump_of_tradEffect h
  obtain ⟨dst, v, rfl, hw, t, ht, hcompletes, hwrites, -⟩ | ⟨rs, rt, imm, rfl⟩ := writesAlike_of_tradEffect hnull h
  · refine ⟨t, ht, hcompletes, fun r => ?_, ?_⟩
    · rw [hwrites r, gpr_setGpr]; rfl
    · rw [exec_mem_of_memWrite_eq_false hj hw ht, setGpr_mem]; rfl
  · obtain ⟨t, ht, hcompletes, hmem⟩ := exec_sw rs rt imm s
    have hgprs : SameGprs s t := sameGprs_of_destination_eq_none hj rfl ht
    rw [tradEffect_sw] at h
    obtain rfl := Option.some.inj h
    refine ⟨t, ht, hcompletes, fun r => ?_, ?_⟩
    · rw [hgprs r, gpr_storeValue]
      rfl
    · rw [hmem]
      exact storeValue_mem .word (wordAddress s rs imm) (gpr s rt) (clearLatches s)

/-! ### A step on a supported word -/

theorem tradStep_of_tradEffect {i : Instr} {s u : State} (hs : s.stage = .instructionFetch)
    (hd : decode (fetchWord s) = .ok i) (hu : tradEffect i (clearLatches s) = some u) :
    tradStep s = (advancePc (clearX0 u), .executed) := by
  simp only [tradStep, hs, tradOnWord, hd, hu]

/-- R300, R303: an effect keeps the wires and latches cleared, and changes only x and memory of the state. -/
theorem tradEffect_frame {s u : State} (hu : TradEffect (clearLatches s) u) :
    u.w = Wires.bottom ∧ u.instr = none ∧ u.ctrl = none ∧ u.cop = s.cop ∧ u.stage = s.stage ∧ u.status = s.status ∧
      u.pc = s.pc ∧ SameSession s u := by
  obtain ⟨d, v, rfl⟩ | ⟨m, rfl, -⟩ := hu
  · obtain ⟨x, hx⟩ := setGpr_eq_setX d v (clearLatches s)
    rw [hx]
    exact ⟨rfl, rfl, rfl, rfl, rfl, rfl, rfl, rfl, rfl, rfl⟩
  · exact ⟨rfl, rfl, rfl, rfl, rfl, rfl, rfl, rfl, rfl, rfl⟩

/-- Settles O49: a supported word decodes to an instruction with an effect in TradCore, which is also the effect of its
execution in the pipeline. -/
theorem tradCoreAgreesWithThePipeline : Obligations.TradCoreAgreesWithThePipeline := by
  intro s hr hs h
  obtain ⟨i, hd, hi⟩ := tradSupportedWord_iff.1 h
  obtain ⟨u, hu⟩ := Option.isSome_iff_exists.1 ((tradEffect_isSome i (clearLatches s)).trans hi)
  obtain ⟨hw, hinstr, hctrl, hcop, hstage, hstatus, hpc, hsession⟩ := tradEffect_frame (tradEffect_some hu)
  refine ⟨_, tradStep_of_tradEffect hs hd hu, hw, hinstr, hctrl, hcop, hstage.trans hs, hstatus.trans hr, hsession,
    fun hnull => ?_⟩
  obtain ⟨t, ht, ⟨-, -, htpc, -⟩, hgprs, hmem⟩ := exec_agrees_of_tradEffect hnull hu
  refine ⟨t, (executeInstruction_of_decode hr hs hd).trans ht, fun r => ?_, ?_, hmem⟩
  · exact (gpr_clearX0 u r).trans (hgprs r)
  · rw [htpc, ← hpc]; rfl

/-! ### Reset -/

theorem initialMemory_concat (size : Nat) (cells : List Host.Cell) (p : Host.Cell) :
    initialMemory size (cells ++ [p]) =
      if p.1 < size then writeByte (initialMemory size cells) p.1 p.2 else initialMemory size cells :=
  List.foldl_concat ..

/-- R340, R35: a byte in range is the last one listed for its address. -/
theorem readByte_initialMemory {size a : Nat} (ha : a < size) (cells : List Host.Cell) :
    readByte (initialMemory size cells) a =
      ((cells.reverse.find? (fun cell => cell.1 == a)).map (·.2)).getD unlistedByte := by
  induction cells using List.reverseRecOn with
  | nil => rfl
  | append_singleton cells p ih =>
    obtain ⟨b, v⟩ := p
    rw [initialMemory_concat, List.reverse_concat]
    by_cases hb : b = a
    · subst hb
      obtain ⟨⟨hordered, -⟩, -⟩ := initialMemory_wf size cells
      rw [if_pos ha, readByte_writeByte_self hordered, List.find?_cons_of_pos (by simp)]
      rfl
    · rw [List.find?_cons_of_neg (by simpa using hb), ← ih]
      split
      · exact readByte_writeByte_ne (Ne.symm hb)
      · rfl

theorem gpr_launch (p : Launch) {r : RegIdx} (hr : r ≠ 0#5) : gpr (launch p) r = p.gprInit[r.toNat] :=
  (gpr_clearX0 ((launch p).setX p.gprInit) r).trans (if_neg hr)

/-- Settles O53: each field of a launch, its registers and its bytes. -/
theorem resetState : Obligations.ResetState := fun p =>
  ⟨rfl, rfl, rfl, rfl, rfl, clearX0_x_zero ((launch p).setX p.gprInit), fun _ hr => gpr_launch p hr, rfl, rfl, rfl,
    fun _ ha => readByte_initialMemory ha p.memInit⟩

theorem gpr_reset (r : RegIdx) : gpr State.reset r = 0#64 := by
  unfold gpr
  split
  · rfl
  · exact Vector.getElem_replicate ..

/-- A memory configuration that neither aligns nor denies admits every access in range (R43). -/
theorem memOk_testMemory (a n : Nat) : memOk Config.testMemory a n = decide (a + n ≤ 0x1000) :=
  (Bool.and_true _).trans (Bool.and_true _)

/-- Settles O54: the reset state, field by field. -/
theorem resetChoices : Obligations.ResetChoices :=
  ⟨launch_common.symm, rfl, gpr_reset, fun _ => rfl, rfl, memOk_testMemory⟩

end Sys2Proof.Machine
end
